-- ==== Sys2Proof/Word.lean ====
section
/-! DEFINITION. The word types of the block (00_scope.md R6, R7). -/

namespace Sys2Proof

/-- A byte, also called a character (00_scope.md R7). -/
abbrev Byte := BitVec 8

/-- A command word, and the data of a CSR or RT access: `CSR_W` = 16 bits (00_scope.md R6, 30_encoding.md R60). -/
abbrev Word := BitVec 16

/-- A frame index, or the argument of a format-A command: `IDX_W` = 12 bits (00_scope.md R6). -/
abbrev Index := BitVec 12

end Sys2Proof
end

