-- ==== Sys2Proof/Config.lean ====
section
/-! DEFINITION. What an implementation fixes (00_scope.md R5, R6), and the free values the spec leaves open
(93_implementation_defined.md U1). -/

namespace Sys2Proof.Config

/-- STX, the start marker (00_scope.md R5). -/
def stx : Byte := 0x02

/-- ETX, the end marker (00_scope.md R5). -/
def etx : Byte := 0x03

/-- The shortest frame (00_scope.md R5). -/
def frameMin : Nat := 4

/-- Bytes of the frame buffer, `FB_SIZE` (00_scope.md R6). -/
def fbSize : Nat := 4096

/-- The longest frame LEN can describe, `FRAME_MAX` = `FB_SIZE - 1` (00_scope.md R6). -/
def frameMax : Nat := 4095

/-- The longest payload: `FRAME_MAX` less the four characters of the envelope (41_frame_envelope.md R110). -/
def payloadMax : Nat := 4091

/-- Entries of the reading table, `RT_ENTRIES` (00_scope.md R6). -/
def rtEntries : Nat := 99

/-- Assigned RT addresses, 0 to 791 (10_state.md R28). -/
def rtSize : Nat := 792

/-- `ENC_PRESENT`, at the value this hardware takes (00_scope.md R6). DEDUCED, safe, log entry 7: the decoder takes
the parameter as an argument, so statements can speak of both values. -/
def encPresent : Bool := true

/-- The byte that frame index `k` holds after the `n`th reset until something is written there: any value, fixed at
that reset and stable (10_state.md R31, 70_reset_and_hazards.md R241, 93_implementation_defined.md U1). A free value:
it has no body. DESIGN CHOICE, safe, log entry 1. -/
opaque fbUnwritten (n k : Nat) : Byte

/-- The data that RT address `a` holds after the `n`th reset until something is written there, of which the field's
width is used: any value, fixed at that reset and stable (10_state.md R31, 70_reset_and_hazards.md R241,
93_implementation_defined.md U1). A free value: it has no body. DESIGN CHOICE, safe, log entry 2. -/
opaque rtUnwritten (n a : Nat) : Word

end Sys2Proof.Config
end

