-- ==== Sys2Proof/Syntax.lean ====
section
/-! DEFINITION. The eight commands (30_encoding.md R62). -/

namespace Sys2Proof

/-- One constructor per row of the opcode map (30_encoding.md R62). A format-A command carries its 12-bit argument,
an unsigned number 0..4095 (R63). -/
inductive Instr where
  /-- NOP, op 0x0, format Z (46_host_port.md R195). -/
  | nop
  /-- ACLR, op 0x1, format Z (40_checksum.md R91). -/
  | aclr
  /-- AXB `k`, op 0x2, format A, `k` a frame index (40_checksum.md R92). -/
  | axb (k : Index)
  /-- CSUM `n`, op 0x3, format A, `n` a byte count (40_checksum.md R93). -/
  | csum (n : Index)
  /-- FCHK, op 0x4, format Z (41_frame_envelope.md R101). -/
  | fchk
  /-- DEC, op 0x5, format Z (42_dispatch_da_st.md R120). -/
  | dec
  /-- WRAP `n`, op 0x6, format A, `n` a payload length (41_frame_envelope.md R110). -/
  | wrap (n : Index)
  /-- ENC, op 0x7, format Z (45_encode.md R170). -/
  | enc
deriving DecidableEq, Repr

end Sys2Proof
end

