-- ==== Sys2Proof/WellFormed.lean ====
section
/-! DEFINITION. Which commands a block has. The 12-bit argument is part of the syntax, so the one check left is that
the encode direction is present (00_scope.md R6, 30_encoding.md R64 (c)). -/

namespace Sys2Proof

/-- The commands of a block whose `ENC_PRESENT` is `p`: WRAP and ENC exist only when it is 1 (30_encoding.md R64 (c)). -/
def Instr.wellFormedWith (p : Bool) : Instr → Bool
  | .nop => true
  | .aclr => true
  | .axb _ => true
  | .csum _ => true
  | .fchk => true
  | .dec => true
  | .wrap _ => p
  | .enc => p

/-- The commands of this block. -/
def Instr.wellFormed (i : Instr) : Bool := i.wellFormedWith Config.encPresent

end Sys2Proof
end

