-- ==== Sys2Proof/Decode.lean ====
section
/-! DEFINITION. The decoder of command words, total on all 65536 words and rejecting by name (30_encoding.md R61 to
R64), and after it the encoder written from the same map (R62). -/

namespace Sys2Proof

/-- Why a command word is illegal (30_encoding.md R64). Every illegal word has the same effect (46_host_port.md R196);
the name says which clause of R64 holds. -/
inductive Illegal where
  /-- R64 (a): `op` is 0x8..0xF. -/
  | reservedOpcode
  /-- R64 (b): a format-Z command with a nonzero `arg`. -/
  | nonzeroArgument
  /-- R64 (c): WRAP or ENC in a block without the encode direction. -/
  | encodeAbsent
deriving DecidableEq, Repr

/-- What a command word is: a command, or illegal. -/
inductive Decoded where
  | command (i : Instr)
  | illegal (why : Illegal)
deriving DecidableEq, Repr

/-- The opcode, bits 15:12 (30_encoding.md R61). -/
def opField (w : Word) : BitVec 4 := w.extractLsb' 12 4

/-- The argument, bits 11:0 (30_encoding.md R61, R63). -/
def argField (w : Word) : Index := w.extractLsb' 0 12

/-- A format-Z command: its argument must be zero (30_encoding.md R61, R64 (b)). -/
def formatZ (arg : Index) (i : Instr) : Decoded :=
  if arg = 0 then .command i else .illegal .nonzeroArgument

/-- A command of the encode direction: it exists only when `ENC_PRESENT` = 1 (30_encoding.md R64 (c)). -/
def encodeDirection (p : Bool) (d : Decoded) : Decoded :=
  if p then d else .illegal .encodeAbsent

/-- The command a word encodes, in a block whose `ENC_PRESENT` is `p` (30_encoding.md R62, R64). -/
def decodeWith (p : Bool) (w : Word) : Decoded :=
  match (opField w).toNat with
  | 0 => formatZ (argField w) .nop
  | 1 => formatZ (argField w) .aclr
  | 2 => .command (.axb (argField w))
  | 3 => .command (.csum (argField w))
  | 4 => formatZ (argField w) .fchk
  | 5 => formatZ (argField w) .dec
  | 6 => encodeDirection p (.command (.wrap (argField w)))
  | 7 => encodeDirection p (formatZ (argField w) .enc)
  | _ => .illegal .reservedOpcode

/-- The command a word encodes in this block. -/
def decode (w : Word) : Decoded := decodeWith Config.encPresent w

/-- The instruction of a decoded word, if it is one. -/
def Decoded.toInstr : Decoded → Option Instr
  | .command i => some i
  | .illegal _ => none

/-- The command read from an opcode-table word of `nbits` bits: one 16-bit word, the data of one CMD write
(30_encoding.md R60); the bits above `nbits` are 0. -/
def decodeTableWord (nbits w : Nat) : Option Instr :=
  (decode (BitVec.ofNat 16 (w % 2 ^ nbits))).toInstr

/-- The opcode of a command (30_encoding.md R62). -/
def Instr.op : Instr → BitVec 4
  | .nop => 0x0
  | .aclr => 0x1
  | .axb _ => 0x2
  | .csum _ => 0x3
  | .fchk => 0x4
  | .dec => 0x5
  | .wrap _ => 0x6
  | .enc => 0x7

/-- The argument field of a command: zero for format Z (30_encoding.md R61, R62). -/
def Instr.arg : Instr → Index
  | .nop => 0
  | .aclr => 0
  | .axb k => k
  | .csum n => n
  | .fchk => 0
  | .dec => 0
  | .wrap n => n
  | .enc => 0

/-- The word of a command: `op` in bits 15:12, `arg` in bits 11:0 (30_encoding.md R61). -/
def encode (i : Instr) : Word := i.op ++ i.arg

end Sys2Proof
end

