-- ==== Sys2Proof/Machine/State.lean ====
section
/-! DEFINITION. The architectural state (10_state.md R32), the host operations the port takes (46_host_port.md R190),
the reasons a step can stop, and the state after reset (10_state.md R31). -/

namespace Sys2Proof.Machine

/-- The frame buffer: the bytes written since the last reset, by frame index, indices strictly rising
(10_state.md R26, 70_reset_and_hazards.md R241). An index not listed is an unwritten byte. -/
abbrev Memory := List Host.Cell

/-- The reading table: the field data written since the last reset, by RT address `8·i + f`, addresses strictly rising
(10_state.md R27, R28). An address not listed is an unwritten field. -/
abbrev Table := List (Nat × Word)

/-- The assigned CSRs (10_state.md R13). -/
inductive Csr where
  | cmd | status | err | infoA | infoB | len | acc | plen | ttype | comp | cmdlen | count
deriving DecidableEq, Repr

/-- The eight fields of a reading-table entry (10_state.md R27). -/
inductive RtField where
  | comp | vs | vm | es | ee | opsts | errsts | serial
deriving DecidableEq, Repr

/-- The decoded value field: mantissa sign, four mantissa digits, exponent sign, two exponent digits
(10_state.md R27 fields 1 to 4, 44_value_field.md R153). A sign is 0 for `+` and 1 for `-`. -/
structure Triple where
  vs : BitVec 1
  vm : BitVec 14
  es : BitVec 1
  ee : BitVec 7
deriving DecidableEq, Repr

/-- One ComponentReading as an RT entry holds it (10_state.md R27, R29). -/
structure Reading where
  comp : BitVec 10
  value : Triple
  opsts : Byte
  errsts : Byte
  serial : BitVec 10
deriving DecidableEq, Repr

/-- The error codes that have a name (60_exceptions.md R210). `numericFormatError` and `invalidPayloadType` are
reserved for the host and never raised by the block (R213). -/
inductive ErrCode where
  | frameTooShort | missingStartMarker | missingEndMarker | checksumMismatch | unknownTelegramType | invalidLength
  | numericFormatError | valueTooLarge | invalidPayloadType | fieldFormatError | fieldRange | frameTooLong
  | illegalCommand
deriving DecidableEq, Repr

/-- An error with its two diagnostic values: the `E(a, b)` of the spec's `fail E(a, b)` (00_scope.md R8). -/
structure Failure where
  code : ErrCode
  infoA : Word
  infoB : Word
deriving DecidableEq, Repr

/-- The operations of the host port (46_host_port.md R190). -/
inductive HostOp where
  | csrRead (c : BitVec 4)
  | csrWrite (c : BitVec 4) (v : Word)
  | fbRead (k : Index)
  | fbWrite (k : Index) (b : Byte)
  | rtRead (a : BitVec 10)
  | rtWrite (a : BitVec 10) (v : Word)
  | reset
deriving DecidableEq, Repr

/-- A value a host read returns: 16 bits from a CSR or RT, 8 bits from FB (46_host_port.md R190). -/
inductive HostValue where
  | word (v : Word)
  | byte (b : Byte)
deriving DecidableEq, Repr

/-- The block has no fault: every host operation and every command ends in a next state, and an error is a value in
ERR (60_exceptions.md R220 to R222). Nobody raises one; there is none to raise. DEDUCED, safe, log entry 11. -/
inductive Fault where
deriving DecidableEq, Repr

/-- Why an instruction has no meaning in the model. -/
inductive Refusal where
  /-- Raised by an arm of `exec` whose instruction has no meaning yet. Safe: the model stops. No arm raises it. -/
  | notModelled (mnemonic : String)
deriving DecidableEq, Repr

/-- The state: the tuple of 10_state.md R32 field by field, and the model's own `resets`, `port` and `replies`. -/
structure State where
  /-- STATUS bit 2 (10_state.md R15). -/
  gotv : Bool
  /-- STATUS bits 1:0 (10_state.md R15). -/
  htype : BitVec 2
  /-- ERR (10_state.md R16). -/
  err : BitVec 4
  /-- INFOA (10_state.md R17). -/
  infoA : Word
  /-- INFOB (10_state.md R18). -/
  infoB : Word
  /-- LEN (10_state.md R19). -/
  len : Index
  /-- ACC (10_state.md R20). -/
  acc : Byte
  /-- PLEN (10_state.md R21). -/
  plen : Index
  /-- TTYPE (10_state.md R22). -/
  ttype : BitVec 2
  /-- COMP bit 15, `P` (10_state.md R23). -/
  compP : Bool
  /-- COMP bits 9:0, `VAL` (10_state.md R23). -/
  compVal : BitVec 10
  /-- CMDLEN (10_state.md R24). -/
  cmdlen : Index
  /-- COUNT (10_state.md R25). -/
  count : BitVec 7
  /-- The frame buffer FB (10_state.md R26). -/
  fb : Memory
  /-- The reading table RT (10_state.md R27). -/
  rt : Table
  /-- The model's own: which reset the unwritten content of FB and RT dates from, the argument of the free values
  (log entry 3). -/
  resets : Nat
  /-- The model's own: the host operations still to be taken, the next one first (46_host_port.md R190, log entry 4). -/
  port : List HostOp
  /-- The model's own: the values host reads have returned, oldest first (46_host_port.md R190, log entry 6). -/
  replies : List HostValue
deriving DecidableEq, Repr

/-- The machine right after reset: every CSR 0, FB and RT unwritten (10_state.md R31, 70_reset_and_hazards.md R240).
No host operation is pending and none has returned a value (DESIGN CHOICE, safe, log entries 3, 4, 6). -/
def State.reset : State where
  gotv := false
  htype := 0
  err := 0
  infoA := 0
  infoB := 0
  len := 0
  acc := 0
  plen := 0
  ttype := 0
  compP := false
  compVal := 0
  cmdlen := 0
  count := 0
  fb := []
  rt := []
  resets := 0
  port := []
  replies := []

end Sys2Proof.Machine
end

