-- ==== Sys2Proof/Machine/Ops.lean ====
section
/-! DEFINITION. The named operations over the registers, the frame buffer and the reading table, the XOR fold, and the
report of a checked command: `fail E(a, b)`, which is the block's one exception mechanism (60_exceptions.md R220), and
its success. There is no return from an error (R221). -/

namespace Sys2Proof.Machine

/-! ### Lists of (address, value) pairs -/

/-- The value listed at an address, if one is. -/
def Store.find {α : Type} : List (Nat × α) → Nat → Option α
  | [], _ => none
  | (a, x) :: m, k => if k = a then some x else Store.find m k

/-- The list with the value at one address written, its addresses still rising. -/
def Store.put {α : Type} : List (Nat × α) → Nat → α → List (Nat × α)
  | [], k, v => [(k, v)]
  | (a, x) :: m, k, v =>
    if k < a then (k, v) :: (a, x) :: m
    else if k = a then (k, v) :: m
    else (a, x) :: Store.put m k v

/-- Every listed address is above `a`, and they rise strictly. -/
def Store.risingFrom {α : Type} (a : Nat) : List (Nat × α) → Bool
  | [] => true
  | (b, _) :: m => decide (a ≤ b) && Store.risingFrom (b + 1) m

/-! ### Registers, one named update each -/

/-- STATUS (10_state.md R15). -/
def State.setStatus (s : State) (gotv : Bool) (htype : BitVec 2) : State := { s with gotv := gotv, htype := htype }

/-- STATUS.GOTV (10_state.md R12). -/
def State.setGotv (s : State) (g : Bool) : State := { s with gotv := g }

/-- STATUS.HTYPE (10_state.md R12). -/
def State.setHtype (s : State) (h : BitVec 2) : State := { s with htype := h }

/-- ERR, INFOA and INFOB, which are only ever written together (10_state.md R16 to R18). -/
def State.setReport (s : State) (e : BitVec 4) (a b : Word) : State := { s with err := e, infoA := a, infoB := b }

/-- LEN (10_state.md R19). -/
def State.setLen (s : State) (n : Index) : State := { s with len := n }

/-- ACC (10_state.md R20). -/
def State.setAcc (s : State) (c : Byte) : State := { s with acc := c }

/-- PLEN (10_state.md R21). -/
def State.setPlen (s : State) (n : Index) : State := { s with plen := n }

/-- TTYPE (10_state.md R22). -/
def State.setTtype (s : State) (t : BitVec 2) : State := { s with ttype := t }

/-- COMP (10_state.md R23). -/
def State.setComp (s : State) (p : Bool) (v : BitVec 10) : State := { s with compP := p, compVal := v }

/-- CMDLEN (10_state.md R24). -/
def State.setCmdlen (s : State) (n : Index) : State := { s with cmdlen := n }

/-- COUNT (10_state.md R25). -/
def State.setCount (s : State) (n : BitVec 7) : State := { s with count := n }

/-- The frame buffer's written bytes (10_state.md R26). -/
def State.setFb (s : State) (m : Memory) : State := { s with fb := m }

/-- The reading table's written fields (10_state.md R27). -/
def State.setRt (s : State) (m : Table) : State := { s with rt := m }

/-- The operations still pending at the port (46_host_port.md R190). -/
def State.setPort (s : State) (p : List HostOp) : State := { s with port := p }

/-- The value a host read returns (46_host_port.md R190). -/
def State.reply (s : State) (v : HostValue) : State := { s with replies := s.replies ++ [v] }

/-- The record registers all 0: no record (42_dispatch_da_st.md R124, 60_exceptions.md R220). -/
def State.clearRecord (s : State) : State := (((s.setTtype 0).setComp false 0).setCmdlen 0).setCount 0

/-! ### The frame buffer -/

/-- Addresses rise strictly and lie in the buffer (10_state.md R26). No listed entry equals what an unlisted index
reads as, since an unlisted index is one not written since the last reset (log entry 8). -/
def Memory.wf (m : Memory) : Bool := Store.risingFrom 0 m && m.all fun c => decide (c.1 < Config.fbSize)

/-- What an unlisted index of the frame buffer reads as: the unspecified content it holds since the last reset
(70_reset_and_hazards.md R241, log entry 1). -/
def State.fbUnlisted (s : State) (k : Nat) : Byte := Config.fbUnwritten s.resets k

/-- `FB[k]` (00_scope.md R8). -/
def State.fbGet (s : State) (k : Nat) : Byte := (Store.find s.fb k).getD (s.fbUnlisted k)

/-- `FB[k] <- b` (00_scope.md R8). -/
def State.fbSet (s : State) (k : Nat) (b : Byte) : State := s.setFb (Store.put s.fb k b)

/-- The bytes listed one after another from frame index `k` on, in index order (20_memory.md R42). -/
def Memory.putBytes (m : Memory) (k : Nat) : List Byte → Memory
  | [] => m
  | b :: bs => Memory.putBytes (Store.put m k b) (k + 1) bs

/-- `FB[k], FB[k+1], ... <- ` the bytes, in index order (20_memory.md R42). -/
def State.storeBytes (s : State) (k : Nat) (bs : List Byte) : State := s.setFb (s.fb.putBytes k bs)

/-- The `n` bytes from frame index `k` on. -/
def State.fbBytes (s : State) (k n : Nat) : List Byte := (List.range n).map fun j => s.fbGet (k + j)

/-- `xorfold(a, b)`: the exclusive or of `FB[a]` to `FB[b-1]`, 0 when `a >= b` (00_scope.md R8, 40_checksum.md R90). -/
def State.xorFold (s : State) (a b : Nat) : Byte :=
  (List.range' a (b - a)).foldl (fun c k => c ^^^ s.fbGet k) 0

/-! ### The reading table -/

/-- The number of a field (10_state.md R27). -/
def RtField.id : RtField → Nat
  | .comp => 0
  | .vs => 1
  | .vm => 2
  | .es => 3
  | .ee => 4
  | .opsts => 5
  | .errsts => 6
  | .serial => 7

/-- The width of a field (10_state.md R27, 46_host_port.md R194). -/
def RtField.width : RtField → Nat
  | .comp => 10
  | .vs => 1
  | .vm => 14
  | .es => 1
  | .ee => 7
  | .opsts => 8
  | .errsts => 8
  | .serial => 10

/-- The low bits of the data that a field's width allows, the rest zero (10_state.md R28). -/
def RtField.clip (f : RtField) (v : Word) : Word := (v.setWidth f.width).setWidth 16

/-- The RT address of a field of entry `i` (10_state.md R28). -/
def rtAddress (i : Nat) (f : RtField) : Nat := 8 * i + f.id

/-- The field that an RT address selects within its entry (10_state.md R28). -/
def rtFieldOf (a : Nat) : RtField :=
  match a % 8 with
  | 0 => .comp
  | 1 => .vs
  | 2 => .vm
  | 3 => .es
  | 4 => .ee
  | 5 => .opsts
  | 6 => .errsts
  | _ => .serial

/-- Addresses rise strictly, are assigned (10_state.md R28), and each holds data of its field's width. -/
def Table.wf (m : Table) : Bool :=
  Store.risingFrom 0 m && m.all fun c => decide (c.1 < Config.rtSize) && decide ((rtFieldOf c.1).clip c.2 = c.2)

/-- What an unlisted RT address reads as, before it is clipped to its field's width: the unspecified content it holds
since the last reset (10_state.md R31, log entry 2). -/
def State.rtUnlisted (s : State) (a : Nat) : Word := Config.rtUnwritten s.resets a

/-- The data held at RT address `a`. -/
def State.rtData (s : State) (a : Nat) : Word := (Store.find s.rt a).getD (s.rtUnlisted a)

/-- Field `f` of `RT[i]`, zero-extended to 16 bits (10_state.md R28). -/
def State.rtGet (s : State) (i : Nat) (f : RtField) : Word := f.clip (s.rtData (rtAddress i f))

/-- Entry `RT[i]` as a reading (10_state.md R27, R29). -/
def State.rtReading (s : State) (i : Nat) : Reading where
  comp := (s.rtGet i .comp).setWidth 10
  value :=
    { vs := (s.rtGet i .vs).setWidth 1
      vm := (s.rtGet i .vm).setWidth 14
      es := (s.rtGet i .es).setWidth 1
      ee := (s.rtGet i .ee).setWidth 7 }
  opsts := (s.rtGet i .opsts).setWidth 8
  errsts := (s.rtGet i .errsts).setWidth 8
  serial := (s.rtGet i .serial).setWidth 10

/-- One field of entry `i` listed, clipped to its width (10_state.md R28). -/
def Table.putField (m : Table) (i : Nat) (f : RtField) (v : Word) : Table := Store.put m (rtAddress i f) (f.clip v)

/-- The data of a field of a reading (10_state.md R27). -/
def Reading.field (e : Reading) : RtField → Word
  | .comp => e.comp.setWidth 16
  | .vs => e.value.vs.setWidth 16
  | .vm => e.value.vm.setWidth 16
  | .es => e.value.es.setWidth 16
  | .ee => e.value.ee.setWidth 16
  | .opsts => e.opsts.setWidth 16
  | .errsts => e.errsts.setWidth 16
  | .serial => e.serial.setWidth 16

/-- The fields of an entry in the order of their numbers (10_state.md R27). -/
def rtFields : List RtField := [.comp, .vs, .vm, .es, .ee, .opsts, .errsts, .serial]

/-- Entry `i` listed, all eight fields (42_dispatch_da_st.md R120). -/
def Table.putReading (m : Table) (i : Nat) (e : Reading) : Table :=
  rtFields.foldl (fun m f => m.putField i f (e.field f)) m

/-- Consecutive entries listed from entry `i` on (42_dispatch_da_st.md R120). -/
def Table.putReadings (m : Table) (i : Nat) : List Reading → Table
  | [] => m
  | e :: es => Table.putReadings (m.putReading i e) (i + 1) es

/-- `RT[i].F <- v`: the low bits of the field's width are kept (10_state.md R28). -/
def State.rtSet (s : State) (i : Nat) (f : RtField) (v : Word) : State := s.setRt (s.rt.putField i f v)

/-- `RT[i], RT[i+1], ... <- ` the readings (42_dispatch_da_st.md R120). -/
def State.rtStore (s : State) (i : Nat) (es : List Reading) : State := s.setRt (s.rt.putReadings i es)

/-! ### The report of a checked command -/

/-- The number of an error code (60_exceptions.md R210). -/
def ErrCode.number : ErrCode → BitVec 4
  | .frameTooShort => 1
  | .missingStartMarker => 2
  | .missingEndMarker => 3
  | .checksumMismatch => 4
  | .unknownTelegramType => 5
  | .invalidLength => 6
  | .numericFormatError => 7
  | .valueTooLarge => 8
  | .invalidPayloadType => 9
  | .fieldFormatError => 10
  | .fieldRange => 11
  | .frameTooLong => 12
  | .illegalCommand => 13

/-- `fail E(a, b)`: the effects common to every error, `ERR <- code(E)`, `INFOA <- a`, `INFOB <- b`; the command ends
(60_exceptions.md R220). Nothing is saved, vectored or masked. The effects that depend on the command are in it. -/
def State.fail (s : State) (f : Failure) : State := s.setReport f.code.number f.infoA f.infoB

/-- The end of a checked command that found no error: `ERR <- 0; INFOA <- 0; INFOB <- 0` (10_state.md R16 to R18). -/
def State.succeed (s : State) : State := s.setReport 0 0 0

end Sys2Proof.Machine
end

