-- ==== Sys2Proof/Machine/Checksum.lean ====
section
/-! DEFINITION. The checksum accumulator's commands: ACLR, AXB, CSUM (40_checksum.md). None of them writes STATUS, ERR,
INFOA or INFOB, and none looks at LEN. -/

namespace Sys2Proof.Machine

/-- ACLR: `ACC <- 0` (40_checksum.md R91). -/
def execAclr (s : State) : Host.Outcome State Fault Refusal := .next (s.setAcc 0)

/-- AXB `k`: `ACC <- ACC xor FB[k]` (40_checksum.md R92). -/
def execAxb (k : Index) (s : State) : Host.Outcome State Fault Refusal :=
  .next (s.setAcc (s.acc ^^^ s.fbGet k.toNat))

/-- CSUM `n`: `ACC <- xorfold(0, n)` (40_checksum.md R93). -/
def execCsum (n : Index) (s : State) : Host.Outcome State Fault Refusal :=
  .next (s.setAcc (s.xorFold 0 n.toNat))

end Sys2Proof.Machine
end

