-- ==== Sys2Proof/Machine/Flags.lean ====
section
/-! DEFINITION. The status fields that behave as flags, as the host reads them (10_state.md R12, R15, R23). There is no
arithmetic flag. -/

namespace Sys2Proof.Machine

/-- STATUS as a 16-bit value: HTYPE in bits 1:0, GOTV in bit 2, the rest 0 (10_state.md R15). -/
def State.statusWord (s : State) : Word := (0 : BitVec 13) ++ BitVec.ofBool s.gotv ++ s.htype

/-- COMP as a 16-bit value: VAL in bits 9:0, P in bit 15, bits 14:10 read 0 (10_state.md R23). -/
def State.compWord (s : State) : Word := BitVec.ofBool s.compP ++ (0 : BitVec 5) ++ s.compVal

end Sys2Proof.Machine
end

