-- ==== Sys2Proof/Machine/Operands.lean ====
section
/-! DEFINITION. What an operand or a field of the wire format is: character classes (30_encoding.md R67), field
conversions in both directions (R76, R77, 44_value_field.md R151, R152), and the locations that a CSR number and an RT
address select (10_state.md R13, R28). -/

namespace Sys2Proof.Machine

/-! ### Characters -/

/-- A space, 0x20 (00_scope.md R7). -/
def space : Byte := 0x20

/-- The value of a decimal digit character: `isdig` and `dval` in one (00_scope.md R8). -/
def decDigit (c : Byte) : Option Nat :=
  if 0x30 ≤ c.toNat ∧ c.toNat ≤ 0x39 then some (c.toNat - 0x30) else none

/-- The value of an uppercase hexadecimal digit character: `ishexU` and `hval` in one (00_scope.md R8). The checksum
trailer is read with this class (41_frame_envelope.md R102). -/
def hexUpperDigit (c : Byte) : Option Nat :=
  if 0x30 ≤ c.toNat ∧ c.toNat ≤ 0x39 then some (c.toNat - 0x30)
  else if 0x41 ≤ c.toNat ∧ c.toNat ≤ 0x46 then some (c.toNat - 0x37)
  else none

/-- The value of a hexadecimal digit character of either case: `ishex` and `hval` in one (00_scope.md R8). -/
def hexDigit (c : Byte) : Option Nat :=
  if 0x30 ≤ c.toNat ∧ c.toNat ≤ 0x39 then some (c.toNat - 0x30)
  else if 0x41 ≤ c.toNat ∧ c.toNat ≤ 0x46 then some (c.toNat - 0x37)
  else if 0x61 ≤ c.toNat ∧ c.toNat ≤ 0x66 then some (c.toNat - 0x57)
  else none

/-- The bit of a sign character: `issign` and `sgn` in one (00_scope.md R8). -/
def signBit (c : Byte) : Option (BitVec 1) :=
  if c = 0x2B then some 0 else if c = 0x2D then some 1 else none

/-- `decch(v)`, for `v` in 0..9 (00_scope.md R8). -/
def decChar (v : Nat) : Byte := BitVec.ofNat 8 (0x30 + v)

/-- `hexU(v)`, for `v` in 0..15 (00_scope.md R8). -/
def hexUpperChar (v : Nat) : Byte := if v ≤ 9 then BitVec.ofNat 8 (0x30 + v) else BitVec.ofNat 8 (0x37 + v)

/-- `signch(s)` (00_scope.md R8). -/
def signChar (s : BitVec 1) : Byte := if s = 0 then 0x2B else 0x2D

/-! ### Reading a field -/

/-- FieldFormatError at frame index `k`: the offending byte and its index (60_exceptions.md R211). -/
def State.malformed (s : State) (k : Nat) : Failure :=
  { code := .fieldFormatError, infoA := (s.fbGet k).setWidth 16, infoB := BitVec.ofNat 16 k }

/-- The digits of a field from frame index `k` on, most significant first, continuing the number `acc`: each digit is
checked in index order (30_encoding.md R76, 20_memory.md R43). -/
def State.getDecFrom (s : State) (acc : Nat) : Nat → Nat → Except Failure Nat
  | 0, _ => .ok acc
  | w + 1, k =>
    match decDigit (s.fbGet k) with
    | some d => State.getDecFrom s (acc * 10 + d) w (k + 1)
    | none => .error (s.malformed k)

/-- `getdec(k, w)`: the `w`-digit decimal field at frame indices `k .. k+w-1` (30_encoding.md R76). -/
def State.getDec (s : State) (k w : Nat) : Except Failure Nat := s.getDecFrom 0 w k

/-- `gethex2(k)`: the two-digit hexadecimal field at frame indices `k`, `k+1`, either case (30_encoding.md R76). -/
def State.getHex2 (s : State) (k : Nat) : Except Failure Byte :=
  match hexDigit (s.fbGet k) with
  | none => .error (s.malformed k)
  | some h =>
    match hexDigit (s.fbGet (k + 1)) with
    | none => .error (s.malformed (k + 1))
    | some l => .ok (BitVec.ofNat 8 (h * 16 + l))

/-- `getsign(k)` (30_encoding.md R76). -/
def State.getSign (s : State) (k : Nat) : Except Failure (BitVec 1) :=
  match signBit (s.fbGet k) with
  | some b => .ok b
  | none => .error (s.malformed k)

/-- `getvalue(k)`: the value field at frame indices `k .. k+7` as a triple (44_value_field.md R151). -/
def State.getValue (s : State) (k : Nat) : Except Failure Triple := do
  let vs ← s.getSign k
  let vm ← s.getDec (k + 1) 4
  let es ← s.getSign (k + 5)
  let ee ← s.getDec (k + 6) 2
  return { vs := vs, vm := BitVec.ofNat 14 vm, es := es, ee := BitVec.ofNat 7 ee }

/-! ### Writing a field -/

/-- `putdec` of `v` as `w` decimal digit characters, most significant first, zero-padded (30_encoding.md R77). -/
def decChars (w v : Nat) : List Byte := (List.range w).map fun j => decChar (v / 10 ^ (w - 1 - j) % 10)

/-- `puthex2` of `v`: two uppercase hexadecimal characters, high nibble first (30_encoding.md R77). -/
def hexChars (v : Byte) : List Byte := [hexUpperChar (v.toNat / 16), hexUpperChar (v.toNat % 16)]

/-- The sentinel `+0000-99` (44_value_field.md R152). -/
def sentinel : Triple := { vs := 0, vm := 0, es := 1, ee := 99 }

/-- `normvalue(e)`: the triple itself when its exponent has two digits; the sentinel on underflow; none on overflow,
where the caller fails with ValueTooLarge (44_value_field.md R152). -/
def Triple.norm (t : Triple) : Option Triple :=
  if t.ee.toNat ≤ 99 then some t else if t.es = 1 then some sentinel else none

/-- `putvalue` of a triple: the 8 characters of the value field (44_value_field.md R152, 30_encoding.md R75). -/
def Triple.chars (t : Triple) : List Byte :=
  [signChar t.vs] ++ decChars 4 t.vm.toNat ++ [signChar t.es] ++ decChars 2 t.ee.toNat

/-! ### Locations -/

/-- The number of a CSR (10_state.md R13). -/
def Csr.number : Csr → BitVec 4
  | .cmd => 0x0
  | .status => 0x1
  | .err => 0x2
  | .infoA => 0x3
  | .infoB => 0x4
  | .len => 0x5
  | .acc => 0x6
  | .plen => 0x7
  | .ttype => 0x8
  | .comp => 0x9
  | .cmdlen => 0xA
  | .count => 0xB

/-- The CSR a number selects; 0xC to 0xF are unassigned (10_state.md R13). -/
def csrOf (c : BitVec 4) : Option Csr :=
  match c.toNat with
  | 0 => some .cmd
  | 1 => some .status
  | 2 => some .err
  | 3 => some .infoA
  | 4 => some .infoB
  | 5 => some .len
  | 6 => some .acc
  | 7 => some .plen
  | 8 => some .ttype
  | 9 => some .comp
  | 10 => some .cmdlen
  | 11 => some .count
  | _ => none

end Sys2Proof.Machine
end

