-- ==== Sys2Proof/Machine/Frame.lean ====
section
/-! DEFINITION. The frame envelope: the frame check shared by FCHK and DEC, the wrap shared by WRAP and ENC, and the
commands FCHK and WRAP (41_frame_envelope.md). -/

namespace Sys2Proof.Machine

/-- A trailer of two uppercase hexadecimal characters, high nibble first (20_memory.md R44, 41_frame_envelope.md R102);
none when either character is outside the class (R103). -/
def trailerValue (h l : Byte) : Option Nat :=
  match hexUpperDigit h, hexUpperDigit l with
  | some a, some b => some (a * 16 + b)
  | _, _ => none

/-- Step 4 and 5 of `framecheck`: the checksum into ACC, the trailer read and compared (41_frame_envelope.md R100,
R102, R103). -/
def State.checkTrailer (s : State) (L : Nat) : State × Option Failure :=
  let c := s.xorFold 0 (L - 2)
  let s := s.setAcc c
  let h := s.fbGet (L - 2)
  let l := s.fbGet (L - 1)
  match trailerValue h l with
  | none => (s, some { code := .checksumMismatch, infoA := h ++ l, infoB := c.setWidth 16 })
  | some g =>
    let s := s.setGotv true
    if g ≠ c.toNat then
      (s, some { code := .checksumMismatch, infoA := BitVec.ofNat 16 g, infoB := c.setWidth 16 })
    else (s.setPlen (BitVec.ofNat 12 (L - 4)), none)

/-- `framecheck()`: reads LEN and `FB[0 .. LEN)`; the first check that fails is the one reported
(41_frame_envelope.md R100, 60_exceptions.md R216). The state is the one with what the procedure wrote until it ended. -/
def State.frameCheck (s : State) : State × Option Failure :=
  let L := s.len.toNat
  let s := s.setGotv false
  if L < Config.frameMin then
    (s, some { code := .frameTooShort, infoA := BitVec.ofNat 16 L, infoB := 0 })
  else if s.fbGet 0 ≠ Config.stx then
    (s, some { code := .missingStartMarker, infoA := (s.fbGet 0).setWidth 16, infoB := 0 })
  else if s.fbGet (L - 3) ≠ Config.etx then
    (s, some { code := .missingEndMarker, infoA := (s.fbGet (L - 3)).setWidth 16, infoB := BitVec.ofNat 16 (L - 3) })
  else s.checkTrailer L

/-- FCHK (41_frame_envelope.md R101). On every failure PLEN is 0 (60_exceptions.md R220). -/
def execFchk (s : State) : Host.Outcome State Fault Refusal :=
  match (s.setHtype 0).frameCheck with
  | (s, some f) => .next ((s.setPlen 0).fail f)
  | (s, none) => .next s.succeed

/-- `wrapframe(n)`: the markers, then the checksum over both markers and the payload, then the trailer
(41_frame_envelope.md R110). -/
def State.wrapFrame (s : State) (n : Nat) : State :=
  let s := s.fbSet 0 Config.stx
  let s := s.fbSet (n + 1) Config.etx
  let c := s.xorFold 0 (n + 2)
  let s := s.setAcc c
  let s := s.storeBytes (n + 2) (hexChars c)
  let s := s.setLen (BitVec.ofNat 12 (n + 4))
  s.setPlen (BitVec.ofNat 12 n)

/-- WRAP `n`: STATUS 0, and either FrameTooLong with nothing written or the frame built (41_frame_envelope.md R110). -/
def execWrap (n : Index) (s : State) : Host.Outcome State Fault Refusal :=
  let s := s.setStatus false 0
  if n.toNat > Config.payloadMax then
    .next (s.fail { code := .frameTooLong, infoA := n.setWidth 16, infoB := BitVec.ofNat 16 Config.payloadMax })
  else .next (s.wrapFrame n.toNat).succeed

end Sys2Proof.Machine
end

