-- ==== Sys2Proof/Machine/Encoder.lean ====
section
/-! DEFINITION. The encode direction: the three type encoders and the command ENC (45_encode.md). Each encoder makes all
its checks before anything is written (R170). -/

namespace Sys2Proof.Machine

/-- What a type encoder puts into `FB[1 ..]`, and the payload length it returns. For an ST record the length also counts
the command text, which stays where it is (45_encode.md R170, R172). -/
structure EncodedPayload where
  bytes : List Byte
  length : Nat
deriving DecidableEq, Repr

/-- The locator of CSR COMP, 0xFFFF (45_encode.md R175). -/
def locatorComp : Word := 0xFFFF

/-- The locator of CSR COUNT, 0xFFFE (45_encode.md R175). -/
def locatorCount : Word := 0xFFFE

/-- The locator of a field of `RT[i]`: its RT address (45_encode.md R175). -/
def locatorRt (i : Nat) (f : RtField) : Word := BitVec.ofNat 16 (rtAddress i f)

/-- FieldRange with the offending value and its locator (45_encode.md R171, R174). -/
def fieldRange (v : Nat) (locator : Word) : Failure :=
  { code := .fieldRange, infoA := BitVec.ofNat 16 v, infoB := locator }

/-- `encda()` (45_encode.md R171). -/
def State.encodeDa (s : State) : Except Failure EncodedPayload :=
  if s.compP && decide (s.compVal.toNat > 999) then .error (fieldRange s.compVal.toNat locatorComp)
  else if s.compP then .ok { bytes := [0x44, 0x41] ++ decChars 3 s.compVal.toNat, length := 5 }
  else .ok { bytes := [0x44, 0x41], length := 2 }

/-- `encst()`: COMP.P is ignored; the command text is `FB[6 .. 6+CMDLEN)` and is not touched (45_encode.md R172,
R173). -/
def State.encodeSt (s : State) : Except Failure EncodedPayload :=
  if s.compVal.toNat > 999 then .error (fieldRange s.compVal.toNat locatorComp)
  else if s.cmdlen.toNat > 4086 then
    .error
      { code := .frameTooLong, infoA := BitVec.ofNat 16 (5 + s.cmdlen.toNat)
        infoB := BitVec.ofNat 16 Config.payloadMax }
  else .ok { bytes := [0x53, 0x54] ++ decChars 3 s.compVal.toNat, length := 5 + s.cmdlen.toNat }

/-- The 30 characters of the block of a reading whose value is emitted as `t` (45_encode.md R174, 30_encoding.md R73). -/
def Reading.block (e : Reading) (t : Triple) : List Byte :=
  decChars 3 e.comp.toNat ++ [space] ++ t.chars ++ [space] ++ hexChars e.opsts ++ [space] ++ hexChars e.errsts ++
    [space] ++ decChars 3 e.serial.toNat ++ [space] ++ List.replicate 6 0x30 ++ [space]

/-- The checks of entry `i`, in the order COMP, VM, EE, SERIAL, and the block it gives (45_encode.md R174). -/
def encodeReading (i : Nat) (e : Reading) : Except Failure (List Byte) :=
  if e.comp.toNat > 999 then .error (fieldRange e.comp.toNat (locatorRt i .comp))
  else if e.value.vm.toNat > 9999 then .error (fieldRange e.value.vm.toNat (locatorRt i .vm))
  else
    match e.value.norm with
    | none => .error { code := .valueTooLarge, infoA := e.value.ee.setWidth 16, infoB := locatorRt i .ee }
    | some t =>
      if e.serial.toNat > 999 then .error (fieldRange e.serial.toNat (locatorRt i .serial))
      else .ok (e.block t)

/-- The blocks of `n` entries from `RT[i]` on, in increasing order; the first failing check is the one reported
(45_encode.md R174, 60_exceptions.md R216). -/
def State.encodeReadings (s : State) (i : Nat) : Nat → Except Failure (List Byte)
  | 0 => .ok []
  | n + 1 => do
    let b ← encodeReading i (s.rtReading i)
    let bs ← State.encodeReadings s (i + 1) n
    return b ++ bs

/-- `encmd()` (45_encode.md R174). -/
def State.encodeMd (s : State) : Except Failure EncodedPayload :=
  if s.count.toNat > 99 then .error (fieldRange s.count.toNat locatorCount)
  else do
    let bs ← s.encodeReadings 0 s.count.toNat
    return { bytes := [0x4D, 0x44] ++ decChars 2 s.count.toNat ++ [space] ++ bs, length := 5 + 30 * s.count.toNat }

/-- The type encoder TTYPE selects (45_encode.md R170). -/
def State.encodeRecord (s : State) : Except Failure EncodedPayload :=
  match s.ttype.toNat with
  | 1 => s.encodeDa
  | 2 => s.encodeSt
  | 3 => s.encodeMd
  | _ => .error { code := .unknownTelegramType, infoA := 0, infoB := 0 }

/-- ENC: STATUS.HTYPE is TTYPE as found and GOTV 0; then either an error with nothing else written, or the payload
written into `FB[1 ..]` and wrapped (45_encode.md R170). -/
def execEnc (s : State) : Host.Outcome State Fault Refusal :=
  let s := s.setStatus false s.ttype
  match s.encodeRecord with
  | .error f => .next (s.fail f)
  | .ok p => .next ((s.storeBytes 1 p.bytes).wrapFrame p.length).succeed

end Sys2Proof.Machine
end

