-- ==== Sys2Proof/Machine/Registers.lean ====
section
/-! DEFINITION. The command NOP, the effect of an illegal command word, and the host operations that only read or store
(46_host_port.md R191 to R196, 70_reset_and_hazards.md R240). -/

namespace Sys2Proof.Machine

/-- NOP: the state is unchanged, ERR and STATUS included (46_host_port.md R195). -/
def execNop (s : State) : Host.Outcome State Fault Refusal := .next s

/-- An illegal command word `w`: `STATUS <- 0; fail IllegalCommand(w, 0)`; nothing else changes (46_host_port.md R196,
30_encoding.md R64). -/
def State.illegalCommand (s : State) (w : Word) : State :=
  (s.setStatus false 0).fail { code := .illegalCommand, infoA := w, infoB := 0 }

/-- The value a CSR reads as, zero-extended, reserved bits 0; CMD reads 0 (46_host_port.md R191, 10_state.md R13). -/
def State.csrValue (s : State) : Csr → Word
  | .cmd => 0
  | .status => s.statusWord
  | .err => s.err.setWidth 16
  | .infoA => s.infoA
  | .infoB => s.infoB
  | .len => s.len.setWidth 16
  | .acc => s.acc.setWidth 16
  | .plen => s.plen.setWidth 16
  | .ttype => s.ttype.setWidth 16
  | .comp => s.compWord
  | .cmdlen => s.cmdlen.setWidth 16
  | .count => s.count.setWidth 16

/-- `CsrRead(c)`: an unassigned number reads 0 (46_host_port.md R191). -/
def State.csrRead (s : State) (c : BitVec 4) : Word :=
  match csrOf c with
  | some r => s.csrValue r
  | none => 0

/-- `CsrWrite(c, v)` to a register other than CMD: a read-write register keeps the low bits of its width, a read-only
one and an unassigned number ignore the write (46_host_port.md R191). A write to CMD stores nothing
(10_state.md R14). -/
def State.csrStore (s : State) (c : BitVec 4) (v : Word) : State :=
  match csrOf c with
  | some .len => s.setLen (v.setWidth 12)
  | some .ttype => s.setTtype (v.setWidth 2)
  | some .comp => s.setComp (v.getLsbD 15) (v.setWidth 10)
  | some .cmdlen => s.setCmdlen (v.setWidth 12)
  | some .count => s.setCount (v.setWidth 7)
  | some .cmd | some .status | some .err | some .infoA | some .infoB | some .acc | some .plen | none => s

/-- `RtRead(a)`: field `a mod 8` of entry `a div 8`; an unassigned address reads 0 (46_host_port.md R194). -/
def State.rtRead (s : State) (a : BitVec 10) : Word :=
  if a.toNat < Config.rtSize then s.rtGet (a.toNat / 8) (rtFieldOf a.toNat) else 0

/-- `RtWrite(a, v)`: an unassigned address ignores the write (46_host_port.md R194). -/
def State.rtWrite (s : State) (a : BitVec 10) (v : Word) : State :=
  if a.toNat < Config.rtSize then s.rtSet (a.toNat / 8) (rtFieldOf a.toNat) v else s

/-- `Reset`: every CSR 0, FB and RT unspecified again (70_reset_and_hazards.md R240, R241). The content they then hold
is chosen at this reset, so the counter of the free values advances (log entry 3); the port's pending operations and the
values already returned are no state of the block and stay (log entry 10). -/
def State.hostReset (s : State) : State :=
  { State.reset with resets := s.resets + 1, port := s.port, replies := s.replies }

end Sys2Proof.Machine
end

