-- ==== Sys2Proof/Machine/Telegram.lean ====
section
/-! DEFINITION. The decode direction: the dispatcher, the DA, ST and MD handlers, and the command DEC
(42_dispatch_da_st.md, 43_md.md). The handlers compute the whole record without writing anything (R124). -/

namespace Sys2Proof.Machine

/-- The record a handler returns: what DEC commits to TTYPE, COMP, CMDLEN, COUNT and RT (42_dispatch_da_st.md R120). -/
structure DecodedRecord where
  ttype : BitVec 2
  p : Bool
  val : BitVec 10
  cmdlen : Index
  readings : List Reading
deriving DecidableEq, Repr

/-- InvalidLength with the expected and the actual payload length (60_exceptions.md R211). -/
def invalidLength (expected actual : Nat) : Failure :=
  { code := .invalidLength, infoA := BitVec.ofNat 16 expected, infoB := BitVec.ofNat 16 actual }

/-- `da(P)`: the bare tag, or the tag and a component (42_dispatch_da_st.md R122). -/
def State.decodeDa (s : State) (P : Nat) : Except Failure DecodedRecord :=
  if P = 2 then .ok { ttype := 1, p := false, val := 0, cmdlen := 0, readings := [] }
  else if P = 5 then do
    let v ← s.getDec 3 3
    return { ttype := 1, p := true, val := BitVec.ofNat 10 v, cmdlen := 0, readings := [] }
  else .error (invalidLength 0 P)

/-- `st(P)`: the component, and the command text left where it is (42_dispatch_da_st.md R123). -/
def State.decodeSt (s : State) (P : Nat) : Except Failure DecodedRecord :=
  if P < 6 then .error (invalidLength 6 P)
  else do
    let v ← s.getDec 3 3
    return { ttype := 2, p := true, val := BitVec.ofNat 10 v, cmdlen := BitVec.ofNat 12 (P - 5), readings := [] }

/-- `block(b)`: the block whose offset 0 is at frame index `b`; the fields are read in increasing offset
(43_md.md R142). -/
def State.decodeBlock (s : State) (b : Nat) : Except Failure Reading := do
  let comp ← s.getDec (b + 0) 3
  let value ← s.getValue (b + 4)
  let opsts ← s.getHex2 (b + 13)
  let errsts ← s.getHex2 (b + 16)
  let serial ← s.getDec (b + 19) 3
  .ok
    { comp := BitVec.ofNat 10 comp, value := value, opsts := opsts, errsts := errsts, serial := BitVec.ofNat 10 serial }

/-- The `n` blocks from frame index `b` on, in wire order (43_md.md R140, R141). -/
def State.decodeBlocks (s : State) (b : Nat) : Nat → Except Failure (List Reading)
  | 0 => .ok []
  | n + 1 => do
    let e ← s.decodeBlock b
    let es ← State.decodeBlocks s (b + 30) n
    return e :: es

/-- `md(P)`: the count, the length it asks for, then the blocks (43_md.md R141). -/
def State.decodeMd (s : State) (P : Nat) : Except Failure DecodedRecord :=
  if P < 4 then .error (invalidLength 5 P)
  else do
    let n ← s.getDec 3 2
    if P ≠ 5 + 30 * n then .error (invalidLength (5 + 30 * n) P)
    else do
      let es ← s.decodeBlocks 6 n
      return { ttype := 3, p := false, val := 0, cmdlen := 0, readings := es }

/-- The handler's number of the tag at frame indices 1 and 2: exact bytes, case-sensitive; 0 for any other pair
(30_encoding.md R69, 42_dispatch_da_st.md R121). -/
def State.tagType (s : State) : BitVec 2 :=
  let t := s.fbGet 1 ++ s.fbGet 2
  if t = 0x4441#16 then 1 else if t = 0x5354#16 then 2 else if t = 0x4D44#16 then 3 else 0

/-- `dispatch(P)`: the value it writes to STATUS.HTYPE, and what the handler returns (42_dispatch_da_st.md R121). -/
def State.dispatch (s : State) (P : Nat) : BitVec 2 × Except Failure DecodedRecord :=
  if P < 2 then
    (0, .error { code := .unknownTelegramType, infoA := 0, infoB := BitVec.ofNat 16 P })
  else
    match s.tagType.toNat with
    | 1 => (1, s.decodeDa P)
    | 2 => (2, s.decodeSt P)
    | 3 => (3, s.decodeMd P)
    | _ => (0, .error { code := .unknownTelegramType, infoA := s.fbGet 1 ++ s.fbGet 2, infoB := BitVec.ofNat 16 P })

/-- The commit of a decoded record: the record registers, and the RT entries below the new COUNT
(42_dispatch_da_st.md R120, R124). -/
def State.commit (s : State) (r : DecodedRecord) : State :=
  ((((s.setTtype r.ttype).setComp r.p r.val).setCmdlen r.cmdlen).setCount
    (BitVec.ofNat 7 r.readings.length)).rtStore 0 r.readings

/-- DEC (42_dispatch_da_st.md R120). Any failure clears the record registers and leaves RT; a failed frame check makes
PLEN 0 (R124, 60_exceptions.md R220). -/
def execDec (s : State) : Host.Outcome State Fault Refusal :=
  match (s.setHtype 0).frameCheck with
  | (s, some f) => .next ((s.setPlen 0).clearRecord.fail f)
  | (s, none) =>
    match s.dispatch s.plen.toNat with
    | (h, .error f) => .next ((s.setHtype h).clearRecord.fail f)
    | (h, .ok r) => .next ((s.setHtype h).commit r).succeed

end Sys2Proof.Machine
end

