-- ==== Sys2Proof/Machine/Dispatch.lean ====
section
/-! DEFINITION. The meaning of every command (30_encoding.md R62). -/

namespace Sys2Proof.Machine

def exec (i : Instr) (s : State) : Host.Outcome State Fault Refusal :=
  match i with
  | .nop => Sys2Proof.Machine.execNop s
  | .aclr => Sys2Proof.Machine.execAclr s
  | .axb k => Sys2Proof.Machine.execAxb k s
  | .csum n => Sys2Proof.Machine.execCsum n s
  | .fchk => Sys2Proof.Machine.execFchk s
  | .dec => Sys2Proof.Machine.execDec s
  | .wrap n => Sys2Proof.Machine.execWrap n s
  | .enc => Sys2Proof.Machine.execEnc s

end Sys2Proof.Machine
end

