-- ==== Sys2Proof/Machine/Port.lean ====
section
/-! DEFINITION. The host port: one host operation, whole (46_host_port.md R190 to R194). The block fetches no
instruction; a command is the data of a write to CMD (10_state.md R11, R14). -/

namespace Sys2Proof.Machine

/-- A write of `w` to CMD: the command it encodes, completely, or the effect of an illegal word (10_state.md R14,
30_encoding.md R64, 46_host_port.md R196). -/
def runWord (w : Word) (s : State) : Host.Outcome State Fault Refusal :=
  match decode w with
  | .command i => exec i s
  | .illegal _ => .next (s.illegalCommand w)

/-- One host operation: a read appends the value it returns to `replies` and changes nothing else
(46_host_port.md R190 to R194, 20_memory.md R47). -/
def hostStep (o : HostOp) (s : State) : Host.Outcome State Fault Refusal :=
  match o with
  | .csrRead c => .next (s.reply (.word (s.csrRead c)))
  | .csrWrite c v => if csrOf c = some .cmd then runWord v s else .next (s.csrStore c v)
  | .fbRead k => .next (s.reply (.byte (s.fbGet k.toNat)))
  | .fbWrite k b => .next (s.fbSet k.toNat b)
  | .rtRead a => .next (s.reply (.word (s.rtRead a)))
  | .rtWrite a v => .next (s.rtWrite a v)
  | .reset => .next s.hostReset

/-- The port takes its next operation; with none pending the block waits and nothing changes (46_host_port.md R190,
log entries 4, 5). -/
def portStep (s : State) : Host.Outcome State Fault Refusal :=
  match s.port with
  | [] => .next s
  | o :: os => hostStep o (s.setPort os)

/-- The host operation that issues the command word of an opcode-table row (10_state.md R14, 30_encoding.md R60). -/
def commandWrite (nbits w : Nat) : HostOp := .csrWrite Csr.cmd.number (BitVec.ofNat 16 (w % 2 ^ nbits))

end Sys2Proof.Machine
end

