-- ==== Sys2Proof/Machine/Step.lean ====
section
/-! DEFINITION. One step: the port takes one host operation (46_host_port.md R190). -/

namespace Sys2Proof.Machine

/-- One step of the block (46_host_port.md R190). -/
def step (s : State) : Host.Outcome State Fault Refusal := portStep s

/-- The state in which the host's very next operation is the write of this word to CMD (log entry 4). -/
def State.withFetchWord (s : State) (nbits w : Nat) : State := s.setPort (commandWrite nbits w :: s.port)

end Sys2Proof.Machine
end

