-- ==== Sys2Proof/Machine/Assembler.lean ====
section
/-! DEFINITION. Host programs: their lines and pseudo-operations, the host operations each expands to, and the reading of
a line's text (30_encoding.md R65, R66). What the two rules leave open of the text is in log entry 13. -/

namespace Sys2Proof.Machine

/-- A line of a host program (30_encoding.md R65) or a pseudo-operation (R66). -/
inductive AsmLine where
  | csrw (c : BitVec 4) (v : Word)
  | csrr (c : BitVec 4)
  | fbw (k : Index) (b : Byte)
  | fbr (k : Index)
  | rtw (i : Fin 99) (f : RtField) (v : Word)
  | rtr (i : Fin 99) (f : RtField)
  | command (i : Instr)
  | reset
  | frame (bytes : List Byte)
  | text (k : Index) (bytes : List Byte)
deriving DecidableEq, Repr

/-- `fbw k, b0`, `fbw k+1, b1`, and so on. -/
def fbWrites (k : Nat) : List Byte → List HostOp
  | [] => []
  | b :: bs => .fbWrite (BitVec.ofNat 12 k) b :: fbWrites (k + 1) bs

/-- The host operations a line stands for (30_encoding.md R65, R66). -/
def AsmLine.expand : AsmLine → List HostOp
  | .csrw c v => [.csrWrite c v]
  | .csrr c => [.csrRead c]
  | .fbw k b => [.fbWrite k b]
  | .fbr k => [.fbRead k]
  | .rtw i f v => [.rtWrite (BitVec.ofNat 10 (rtAddress i.val f)) v]
  | .rtr i f => [.rtRead (BitVec.ofNat 10 (rtAddress i.val f))]
  | .command i => [.csrWrite Csr.cmd.number (encode i)]
  | .reset => [.reset]
  | .frame bytes => fbWrites 0 bytes ++ [.csrWrite Csr.len.number (BitVec.ofNat 16 bytes.length)]
  | .text k bytes => fbWrites k.toNat bytes

/-- The host operations of a program. -/
def assemble (p : List AsmLine) : List HostOp := p.flatMap AsmLine.expand

/-- The byte of an ASCII character. -/
def asciiByte (c : Char) : Option Byte := if c.toNat < 128 then some (BitVec.ofNat 8 c.toNat) else none

/-- The value of a hexadecimal digit of an escape. -/
def escapeDigit (c : Char) : Option Nat := (asciiByte c).bind hexDigit

/-- The bytes of a string of `frame` or `text`: an escape of exactly two hexadecimal digits gives one byte, every other
character its ASCII byte (30_encoding.md R66). None for a character that has no ASCII byte. -/
def stringBytes : List Char → Option (List Byte)
  | [] => some []
  | '\\' :: 'x' :: a :: b :: rest =>
    match escapeDigit a, escapeDigit b with
    | some h, some l => (stringBytes rest).map (BitVec.ofNat 8 (h * 16 + l) :: ·)
    | _, _ => do
      let bs ← stringBytes ('x' :: a :: b :: rest)
      return 0x5C :: bs
  | c :: rest => do
    let x ← asciiByte c
    let bs ← stringBytes rest
    return x :: bs

/-! ### The text of a line -/

/-- What the text of a line is made of. -/
inductive AsmToken where
  | word (cs : List Char)
  | string (cs : List Char)
  | comma
  | arrow
deriving DecidableEq, Repr

/-- The quotation mark that begins and ends a string. -/
def quoteChar : Char := Char.ofNat 0x22

/-- The word read so far, if any, as a token. Its characters are held last first. -/
def wordToken (w : List Char) : List AsmToken := if w = [] then [] else [.word w.reverse]

/-- The tokens of a line, a comment left out; `q` is the string begun and not yet ended, `w` the word, both last
character first. None for a string that does not end (30_encoding.md R65, R66). -/
def lexFrom : Option (List Char) → List Char → List Char → Option (List AsmToken)
  | some _, _, [] => none
  | some q, w, c :: cs => if c = quoteChar then (lexFrom none w cs).map (.string q.reverse :: ·) else lexFrom (some (c :: q)) w cs
  | none, w, [] => some (wordToken w)
  | none, w, '=' :: '>' :: cs => (lexFrom none [] cs).map (wordToken w ++ .arrow :: ·)
  | none, w, c :: cs =>
    if c = ';' then some (wordToken w)
    else if c = quoteChar then (lexFrom (some []) [] cs).map (wordToken w ++ ·)
    else if c = ',' then (lexFrom none [] cs).map (wordToken w ++ .comma :: ·)
    else if c = ' ' ∨ c = '\t' then (lexFrom none [] cs).map (wordToken w ++ ·)
    else lexFrom none (c :: w) cs

/-- The digits of a number in a base, continuing the number `n`. -/
def numberFrom (base n : Nat) : List Char → Option Nat
  | [] => some n
  | c :: cs => do
    let d ← escapeDigit c
    if d < base then numberFrom base (n * base + d) cs else none

/-- A number: decimal, or hexadecimal with `0x` (30_encoding.md R65). -/
def parseNumber : List Char → Option Nat
  | [] => none
  | '0' :: 'x' :: c :: cs => numberFrom 16 0 (c :: cs)
  | cs => numberFrom 10 0 cs

/-- A number that fits `w` bits. -/
def parseBits (w : Nat) (cs : List Char) : Option (BitVec w) := do
  let n ← parseNumber cs
  if n < 2 ^ w then some (BitVec.ofNat w n) else none

/-- The register names (10_state.md R13). -/
def csrNames : List (List Char × Csr) :=
  [(['C', 'M', 'D'], .cmd), (['S', 'T', 'A', 'T', 'U', 'S'], .status), (['E', 'R', 'R'], .err),
   (['I', 'N', 'F', 'O', 'A'], .infoA), (['I', 'N', 'F', 'O', 'B'], .infoB), (['L', 'E', 'N'], .len),
   (['A', 'C', 'C'], .acc), (['P', 'L', 'E', 'N'], .plen), (['T', 'T', 'Y', 'P', 'E'], .ttype),
   (['C', 'O', 'M', 'P'], .comp), (['C', 'M', 'D', 'L', 'E', 'N'], .cmdlen), (['C', 'O', 'U', 'N', 'T'], .count)]

/-- The field names (10_state.md R27). -/
def fieldNames : List (List Char × RtField) :=
  [(['C', 'O', 'M', 'P'], .comp), (['V', 'S'], .vs), (['V', 'M'], .vm), (['E', 'S'], .es), (['E', 'E'], .ee),
   (['O', 'P', 'S', 'T', 'S'], .opsts), (['E', 'R', 'R', 'S', 'T', 'S'], .errsts), (['S', 'E', 'R', 'I', 'A', 'L'], .serial)]

/-- What a name stands for in a table of names. -/
def lookName {α : Type} (cs : List Char) : List (List Char × α) → Option α
  | [] => none
  | (n, a) :: rest => if cs = n then some a else lookName cs rest

/-- A register: its name, or its number (30_encoding.md R65, 95_test_vectors.md H7). -/
def parseCsr (cs : List Char) : Option (BitVec 4) :=
  match lookName cs csrNames with
  | some r => some r.number
  | none => parseBits 4 cs

/-- A word up to its first `.`, and what follows it. -/
def splitDot : List Char → Option (List Char × List Char)
  | [] => none
  | c :: cs => if c = '.' then some ([], cs) else (splitDot cs).map fun p => (c :: p.1, p.2)

/-- `i.FIELD`, a field of a reading-table entry (30_encoding.md R65). -/
def parseRtField (cs : List Char) : Option (Fin 99 × RtField) := do
  let p ← splitDot cs
  let n ← parseNumber p.1
  let f ← lookName p.2 fieldNames
  if h : n < 99 then some (⟨n, h⟩, f) else none

/-- A line of one word (30_encoding.md R65). -/
def parseBare (op : List Char) : Option AsmLine :=
  lookName op
    [(['n', 'o', 'p'], .command .nop), (['a', 'c', 'l', 'r'], .command .aclr), (['f', 'c', 'h', 'k'], .command .fchk),
     (['d', 'e', 'c'], .command .dec), (['e', 'n', 'c'], .command .enc), (['r', 'e', 's', 'e', 't'], .reset)]

/-- A line of a word and one operand (30_encoding.md R65). -/
def parseUnary (op x : List Char) : Option AsmLine :=
  if op = ['c', 's', 'r', 'r'] then (parseCsr x).map .csrr
  else if op = ['f', 'b', 'r'] then (parseBits 12 x).map .fbr
  else if op = ['r', 't', 'r'] then (parseRtField x).map fun p => .rtr p.1 p.2
  else if op = ['a', 'x', 'b'] then (parseBits 12 x).map fun k => .command (.axb k)
  else if op = ['c', 's', 'u', 'm'] then (parseBits 12 x).map fun n => .command (.csum n)
  else if op = ['w', 'r', 'a', 'p'] then (parseBits 12 x).map fun n => .command (.wrap n)
  else none

/-- A line of a word and two operands (30_encoding.md R65). -/
def parseBinary (op x y : List Char) : Option AsmLine :=
  if op = ['c', 's', 'r', 'w'] then do return .csrw (← parseCsr x) (← parseBits 16 y)
  else if op = ['f', 'b', 'w'] then do return .fbw (← parseBits 12 x) (← parseBits 8 y)
  else if op = ['r', 't', 'w'] then do
    let p ← parseRtField x
    return .rtw p.1 p.2 (← parseBits 16 y)
  else none

/-- A line, its tokens read (30_encoding.md R65, R66). -/
def parseTokens : List AsmToken → Option AsmLine
  | [.word op] => parseBare op
  | [.word op, .word x] => parseUnary op x
  | [.word op, .word x, .comma, .word y] => parseBinary op x y
  | [.word op, .string s] => if op = ['f', 'r', 'a', 'm', 'e'] then (stringBytes s).map .frame else none
  | [.word op, .word k, .comma, .string s] =>
    if op = ['t', 'e', 'x', 't'] then do return .text (← parseBits 12 k) (← stringBytes s) else none
  | _ => none

/-- Whether a line returns a value, and so may be followed by `=> v` (30_encoding.md R65). -/
def AsmLine.returnsValue : AsmLine → Bool
  | .csrr _ | .fbr _ | .rtr _ _ => true
  | .csrw _ _ | .fbw _ _ | .rtw _ _ _ | .command _ | .reset | .frame _ | .text _ _ => false

/-- The tokens before an `=>`, and the one word after it, if there is one. -/
def splitArrow : List AsmToken → Option (List AsmToken × Option (List Char))
  | [] => some ([], none)
  | .arrow :: [.word v] => some ([], some v)
  | .arrow :: _ => none
  | t :: ts => (splitArrow ts).map fun p => (t :: p.1, p.2)

/-- A line of text: nothing, or a line and the value stated of what it returns (30_encoding.md R65, R66). The outer
`none` is a text that is no line. -/
def parseLine (cs : List Char) : Option (Option (AsmLine × Option Word)) := do
  let ts ← lexFrom none [] cs
  match ← splitArrow ts with
  | ([], none) => some none
  | (ts, none) => do return some (← parseTokens ts, none)
  | (ts, some v) => do
    let l ← parseTokens ts
    let w ← parseBits 16 v
    if l.returnsValue then some (some (l, some w)) else none

end Sys2Proof.Machine
end

