-- ==== Sys2Proof/Machine/Record.lean ====
section
/-! DEFINITION. What the state denotes: the Telegram record (10_state.md R29) and the number a triple denotes
(44_value_field.md R153). No command reads these; statements are made in their terms. -/

namespace Sys2Proof.Machine

/-- A Telegram (00_scope.md R9, 10_state.md R29). A DA's component may be absent. -/
inductive Telegram where
  | da (component : Option (BitVec 10))
  | st (component : BitVec 10) (command : List Byte)
  | md (components : List Reading)
deriving DecidableEq, Repr

/-- The first `n` entries of the reading table (10_state.md R29). -/
def State.readings (s : State) (n : Nat) : List Reading := (List.range n).map fun i => s.rtReading i

/-- `record(state)`: the Telegram the record registers, RT and the command text denote; none when TTYPE = 0
(10_state.md R29). Where the host has stored a COUNT above 99 or a CMDLEN above 4090, R29 does not say what the entries
past `RT[98]` or the characters past `FB[4095]` are: they are free values, as every unlisted location reads. DESIGN
CHOICE, safe, log entry 14. -/
def State.record (s : State) : Option Telegram :=
  match s.ttype.toNat with
  | 1 => some (.da (if s.compP then some s.compVal else none))
  | 2 => some (.st s.compVal (s.fbBytes 6 s.cmdlen.toNat))
  | 3 => some (.md (s.readings s.count.toNat))
  | _ => none

/-- The signed exponent of a triple: `EE`, or `-EE` when ES = 1 (44_value_field.md R153). -/
def Triple.exponent (t : Triple) : Int := if t.es = 0 then (t.ee.toNat : Int) else -(t.ee.toNat : Int)

/-- `val(VS, VM, ES, EE) = (-1)^VS * VM * 10^(x - 3)`, an exact rational number (44_value_field.md R153). -/
def Triple.val (t : Triple) : Rat :=
  (if t.vs = 0 then (1 : Rat) else -1) * (t.vm.toNat : Rat) * (10 : Rat) ^ (t.exponent - 3)

end Sys2Proof.Machine
end

