-- ==== Sys2Proof/Machine/HostReference.lean ====
section
/-! DEFINITION. The host-side reference between a triple and a number (44_value_field.md R155 to R158). It is software
outside the block (00_scope.md R4): no command reads it and its errors are never written to ERR (60_exceptions.md R213). -/

namespace Sys2Proof.Machine

/-- The decimal literal of a triple, `s d0 . d1 d2 d3 e t x1 x2` (44_value_field.md R155). -/
def Triple.literal (t : Triple) : List Byte :=
  [signChar t.vs] ++ (decChars 4 t.vm.toNat).take 1 ++ [0x2E] ++ (decChars 4 t.vm.toNat).drop 1 ++ [0x65, signChar t.es] ++
    decChars 2 t.ee.toNat

/-- `ROUND4`, the open parameter of 44_value_field.md R156: for a positive number, the integers `m` and `e` of
`m * 10^(e-3)`. Its tie rule is not stated (93_implementation_defined.md U6). -/
abbrev Round4 := Rat → Nat × Int

/-- What makes a function a rounding to four significant digits (44_value_field.md R156): for a number whose own decimal
exponent is `d`, the answer is a multiple of the unit of its fourth digit, `10^(d-3)`, within half of that unit
(92_eei_decisions.md D35), written with `1000 <= m <= 9999`: its exponent is `d`, or the multiple is `10000` units and it
is `m = 1000, e = d + 1`. Off a tie there is one such answer. -/
def Round4.Sound (r : Round4) : Prop :=
  ∀ (x : Rat) (d : Int), (10 : Rat) ^ d ≤ x → x < (10 : Rat) ^ (d + 1) →
    1000 ≤ (r x).1 ∧ (r x).1 ≤ 9999 ∧ ((r x).2 = d ∨ (r x).1 = 1000 ∧ (r x).2 = d + 1) ∧
      |((r x).1 : Rat) * (10 : Rat) ^ ((r x).2 - 3) - x| ≤ (10 : Rat) ^ (d - 3) / 2

/-- `quant(x)` on a finite number: its triple, or the host-side error (44_value_field.md R156, R157). NaN and infinities
are not in its domain (93_implementation_defined.md U7, log entry 12). -/
def quant (r : Round4) (x : Rat) : Except ErrCode Triple :=
  if x = 0 then .ok { vs := 0, vm := 0, es := 0, ee := 0 }
  else
    let me := r (if x < 0 then -x else x)
    if me.2 ≤ -100 then .ok sentinel
    else if 100 ≤ me.2 then .error .valueTooLarge
    else
      .ok
        { vs := if x < 0 then 1 else 0
          vm := BitVec.ofNat 14 me.1
          es := if me.2 < 0 then 1 else 0
          ee := BitVec.ofNat 7 me.2.natAbs }

end Sys2Proof.Machine
end

