-- ==== Sys2Proof/Safety.lean ====
section
/-! DEFINITION. The terms claims are made in: what two states share, what a report may say, the invariant every step
keeps, and runs. -/

namespace Sys2Proof.Machine

/-- The report of the last checked command reads the same: STATUS, ERR, INFOA, INFOB. -/
def SameReport (s t : State) : Prop :=
  t.gotv = s.gotv ∧ t.htype = s.htype ∧ t.err = s.err ∧ t.infoA = s.infoA ∧ t.infoB = s.infoB

/-- The record registers read the same: TTYPE, COMP, CMDLEN, COUNT. -/
def SameRecordRegs (s t : State) : Prop :=
  t.ttype = s.ttype ∧ t.compP = s.compP ∧ t.compVal = s.compVal ∧ t.cmdlen = s.cmdlen ∧ t.count = s.count

/-- The record registers are all 0: no record (60_exceptions.md R220). -/
def NoRecord (t : State) : Prop :=
  t.ttype = 0 ∧ t.compP = false ∧ t.compVal = 0 ∧ t.cmdlen = 0 ∧ t.count = 0

/-- Every frame index reads the same. -/
def SameFb (s t : State) : Prop := ∀ k : Nat, t.fbGet k = s.fbGet k

/-- Every field of every RT entry reads the same. -/
def SameRt (s t : State) : Prop := ∀ (i : Nat) (f : RtField), t.rtGet i f = s.rtGet i f

/-- The model's own fields are the same. -/
def SameModelFields (s t : State) : Prop := t.resets = s.resets ∧ t.port = s.port ∧ t.replies = s.replies

/-- The bytes of a payload (20_memory.md R41). -/
def State.payload (s : State) : List Byte := s.fbBytes 1 (s.len.toNat - 4)

/-- The checksum of a payload's frame: the exclusive or of STX, the payload and ETX (40_checksum.md R95). -/
def frameChecksum (p : List Byte) : Byte := (Config.stx :: p ++ [Config.etx]).foldl (· ^^^ ·) 0

/-- The frame of a payload (30_encoding.md R68). -/
def frameBytes (p : List Byte) : List Byte := Config.stx :: p ++ [Config.etx] ++ hexChars (frameChecksum p)

/-- `FB[0 .. LEN)` is a frame: markers in place and the trailer the two uppercase digits of the checksum, high nibble
first (30_encoding.md R68). -/
def State.Framed (s : State) : Prop :=
  4 ≤ s.len.toNat ∧ s.fbGet 0 = Config.stx ∧ s.fbGet (s.len.toNat - 3) = Config.etx ∧
    s.fbGet (s.len.toNat - 2) = hexUpperChar ((s.xorFold 0 (s.len.toNat - 2)).toNat / 16) ∧
    s.fbGet (s.len.toNat - 1) = hexUpperChar ((s.xorFold 0 (s.len.toNat - 2)).toNat % 16)

/-- The state after a frame check that passed, before anything else is done: GOTV, ACC and PLEN written
(41_frame_envelope.md R100), the report 0, HTYPE as given. -/
def State.passed (s : State) (htype : BitVec 2) : State :=
  { s with
    gotv := true, htype := htype, err := 0, infoA := 0, infoB := 0, acc := s.xorFold 0 (s.len.toNat - 2)
    plen := BitVec.ofNat 12 (s.len.toNat - 4) }

/-- The frame of payload `p` stands in the buffer and the report says so: `t` is `s` with the frame built
(41_frame_envelope.md R110), STATUS.HTYPE as given, and every byte beyond the frame as it was. -/
def BuiltFrame (s t : State) (htype : BitVec 2) (p : List Byte) : Prop :=
  t = { s with
        fb := t.fb, gotv := false, htype := htype, err := 0, infoA := 0, infoB := 0
        len := BitVec.ofNat 12 (p.length + 4), plen := BitVec.ofNat 12 p.length, acc := frameChecksum p } ∧
    t.fbBytes 0 (p.length + 4) = frameBytes p ∧ ∀ k, p.length + 4 ≤ k → t.fbGet k = s.fbGet k

/-- The state with a report and the record registers cleared, as a failed DEC leaves it (60_exceptions.md R220). -/
def State.decodeFailed (s : State) (code infoA infoB : Nat) : State :=
  { s with
    err := BitVec.ofNat 4 code, infoA := BitVec.ofNat 16 infoA, infoB := BitVec.ofNat 16 infoB
    ttype := 0, compP := false, compVal := 0, cmdlen := 0, count := 0 }

/-- The state with a report, as a command that changes nothing else leaves it. -/
def State.reported (s : State) (code infoA infoB : Nat) : State :=
  { s with err := BitVec.ofNat 4 code, infoA := BitVec.ofNat 16 infoA, infoB := BitVec.ofNat 16 infoB }

/-- The character classes a block distinguishes (30_encoding.md R67, R73). -/
inductive CharClass where
  | decimal | hex | sign | anything
deriving DecidableEq, Repr

/-- A character is in a class (30_encoding.md R67). -/
def CharClass.has : CharClass → Byte → Bool
  | .decimal, c => decide (0x30 ≤ c.toNat ∧ c.toNat ≤ 0x39)
  | .hex, c => decide (0x30 ≤ c.toNat ∧ c.toNat ≤ 0x39 ∨ 0x41 ≤ c.toNat ∧ c.toNat ≤ 0x46 ∨ 0x61 ≤ c.toNat ∧ c.toNat ≤ 0x66)
  | .sign, c => decide (c = 0x2B ∨ c = 0x2D)
  | .anything, _ => true

/-- The class of each of a block's 30 offsets on decode (30_encoding.md R73, R74). -/
def blockClass (o : Nat) : CharClass :=
  if o < 3 then .decimal
  else if o = 4 then .sign
  else if 5 ≤ o ∧ o < 9 then .decimal
  else if o = 9 then .sign
  else if 10 ≤ o ∧ o < 12 then .decimal
  else if 13 ≤ o ∧ o < 15 then .hex
  else if 16 ≤ o ∧ o < 18 then .hex
  else if 19 ≤ o ∧ o < 22 then .decimal
  else .anything

/-- The character at frame index `k` of an MD payload's blocks is in its class: `k` counts from index 6, 30 characters a
block (30_encoding.md R72, R73). -/
def State.blockCharOk (s : State) (k : Nat) : Bool := (blockClass ((k - 6) % 30)).has (s.fbGet k)

/-- A decimal digit character of value `d` stands at frame index `k`. -/
def State.DigitAt (s : State) (k d : Nat) : Prop := d ≤ 9 ∧ (s.fbGet k).toNat = 0x30 + d

/-- Characters of the class of `hval` (either case) of value `v` stand at frame indices `k`, `k+1` (00_scope.md R8). -/
def State.HexPairAt (s : State) (k v : Nat) : Prop :=
  ∃ h l, hexDigit (s.fbGet k) = some h ∧ hexDigit (s.fbGet (k + 1)) = some l ∧ v = h * 16 + l

/-- A decimal field of three digits at frame index `k` has the value `v` (20_memory.md R43). -/
def State.Dec3At (s : State) (k v : Nat) : Prop :=
  ∃ a b c, s.DigitAt k a ∧ s.DigitAt (k + 1) b ∧ s.DigitAt (k + 2) c ∧ v = 100 * a + 10 * b + c

/-- A decimal field of two digits at frame index `k` has the value `v` (20_memory.md R43). -/
def State.Dec2At (s : State) (k v : Nat) : Prop :=
  ∃ a b, s.DigitAt k a ∧ s.DigitAt (k + 1) b ∧ v = 10 * a + b

/-- A sign character of bit `b` stands at frame index `k`: `+` for 0, `-` for 1 (00_scope.md R8). -/
def State.SignAt (s : State) (k : Nat) (b : BitVec 1) : Prop :=
  b = 0 ∧ s.fbGet k = 0x2B ∨ b = 1 ∧ s.fbGet k = 0x2D

/-- The value field at frame index `k` is the triple `t` (30_encoding.md R75). -/
def State.ValueAt (s : State) (k : Nat) (t : Triple) : Prop :=
  s.SignAt k t.vs ∧
    (∃ a v, s.DigitAt (k + 1) a ∧ s.Dec3At (k + 2) v ∧ t.vm.toNat = 1000 * a + v) ∧
    s.SignAt (k + 5) t.es ∧ s.Dec2At (k + 6) t.ee.toNat

/-- The block whose offset 0 is at frame index `b` holds the reading `e`, field by field at the offsets of
30_encoding.md R73. -/
def State.BlockAt (s : State) (b : Nat) (e : Reading) : Prop :=
  s.Dec3At b e.comp.toNat ∧ s.ValueAt (b + 4) e.value ∧ s.HexPairAt (b + 13) e.opsts.toNat ∧
    s.HexPairAt (b + 16) e.errsts.toNat ∧ s.Dec3At (b + 19) e.serial.toNat

/-- A reading ENC can emit: every field fits its digits, an exponent of three digits only on the negative side
(45_encode.md R174). -/
def Reading.Encodable (e : Reading) : Prop :=
  e.comp.toNat ≤ 999 ∧ e.value.vm.toNat ≤ 9999 ∧ (e.value.ee.toNat ≤ 99 ∨ e.value.es = 1) ∧ e.serial.toNat ≤ 999

/-- The triple ENC emits for an encodable reading: the sentinel `+0000-99` when the exponent needs three digits
(44_value_field.md R152). -/
def Triple.emitted (t : Triple) : Triple := if t.ee.toNat ≤ 99 then t else { vs := 0, vm := 0, es := 1, ee := 99 }

/-- A reading as it comes back from ENC and DEC (45_encode.md R177). -/
def Reading.emitted (e : Reading) : Reading := { e with value := e.value.emitted }

/-- A record as it comes back from ENC and DEC (45_encode.md R177). -/
def Telegram.emitted : Telegram → Telegram
  | .da c => .da c
  | .st c x => .st c x
  | .md es => .md (es.map Reading.emitted)

/-- Commands run one after another, stopping at the first that has no next state. -/
def execAll : List Instr → State → Host.Outcome State Fault Refusal
  | [], s => .next s
  | i :: is, s =>
    match exec i s with
    | .next t => execAll is t
    | .fault f => .fault f
    | .refused r => .refused r

/-- One bit of one byte of the buffer flipped. -/
def State.flipBit (s : State) (k bit : Nat) : State := s.fbSet k (s.fbGet k ^^^ (1#8 <<< bit))

/-- INFOA and INFOB of ChecksumMismatch: the trailer's value and the checksum, which differ; or, when the trailer has no
value, its two raw bytes and the checksum (60_exceptions.md R211, 41_frame_envelope.md R103). -/
def checksumReport (gotv : Bool) (a b : Word) : Bool :=
  decide (b.toNat < 256) &&
    if gotv then decide (a.toNat < 256 ∧ a ≠ b)
    else decide (hexUpperDigit (a.extractLsb' 8 8) = none ∨ hexUpperDigit (a.extractLsb' 0 8) = none)

/-- INFOA and INFOB of UnknownTelegramType: 0 and 0 from ENC; from DEC, which leaves GOTV 1, the two characters found and
the payload length, or 0 when the payload is shorter than 2 (60_exceptions.md R211, 42_dispatch_da_st.md R121). -/
def tagReport (gotv : Bool) (a b : Word) : Bool :=
  if gotv then
    decide (b.toNat ≤ Config.payloadMax ∧
      if b.toNat < 2 then a = 0 else a ≠ 0x4441 ∧ a ≠ 0x5354 ∧ a ≠ 0x4D44)
  else decide (a = 0 ∧ b = 0)

/-- INFOA and INFOB of InvalidLength from the handler `h`: the expected and the actual payload length
(60_exceptions.md R211): DA 0, when it is neither 2 nor 5; ST 6, when it is less; MD 5 when there is no count, and
otherwise `5 + 30·n`, when it is not that. -/
def lengthReport (h : BitVec 2) (a b : Word) : Bool :=
  decide (2 ≤ b.toNat ∧ b.toNat ≤ Config.payloadMax ∧
    (h = 1 ∧ a = 0 ∧ b ≠ 2 ∧ b ≠ 5 ∨
      h = 2 ∧ a = 6 ∧ b.toNat < 6 ∨
      h = 3 ∧ (a = 5 ∧ b.toNat < 4 ∨
        4 ≤ b.toNat ∧ a ≠ b ∧ 5 ≤ a.toNat ∧ a.toNat ≤ 2975 ∧ (a.toNat - 5) % 30 = 0)))

/-- The class that handler `h` asks of the character at frame index `k`, for the indices at which it can report
FieldFormatError: the component of DA and ST, the count of MD, the blocks of MD (42_dispatch_da_st.md R122, R123,
43_md.md R141, R142). -/
def examinedClass (h : BitVec 2) (k : Nat) : CharClass :=
  if h = 3 then
    if 3 ≤ k ∧ k < 5 then .decimal else if 6 ≤ k ∧ k < 6 + 30 * Config.rtEntries then blockClass ((k - 6) % 30) else .anything
  else if 3 ≤ k ∧ k < 6 then .decimal
  else .anything

/-- INFOA and INFOB of FieldFormatError from the handler `h`: a byte outside the class asked for at its frame index
(60_exceptions.md R211). -/
def formatReport (h : BitVec 2) (a b : Word) : Bool :=
  decide (h ≠ 0 ∧ a.toNat < 256) && !(examinedClass h b.toNat).has (a.setWidth 8)

/-- INFOA and INFOB of FieldRange from the encoder of TTYPE `h`: a value too large for its field and the field's locator
(60_exceptions.md R211, 45_encode.md R175). -/
def rangeReport (h : BitVec 2) (a b : Word) : Bool :=
  decide ((h = 1 ∨ h = 2) ∧ b = 0xFFFF ∧ 999 < a.toNat ∧ a.toNat < 1024 ∨
    h = 3 ∧ (b = 0xFFFE ∧ 99 < a.toNat ∧ a.toNat < 128 ∨
      b.toNat < Config.rtSize ∧
        ((b.toNat % 8 = RtField.id .comp ∨ b.toNat % 8 = RtField.id .serial) ∧ 999 < a.toNat ∧ a.toNat < 1024 ∨
          b.toNat % 8 = RtField.id .vm ∧ 9999 < a.toNat ∧ a.toNat < 16384)))

/-- INFOA and INFOB of FrameTooLong: the payload length asked for, by a WRAP (HTYPE 0) or an ST record, and the largest
(60_exceptions.md R211, 41_frame_envelope.md R110, 45_encode.md R172). -/
def longReport (h : BitVec 2) (a b : Word) : Bool :=
  decide (4091 < a.toNat ∧ b = 4091 ∧ (h = 0 ∧ a.toNat ≤ 4095 ∨ h = 2 ∧ a.toNat ≤ 5 + 4095))

/-- What ERR, INFOA, INFOB and STATUS may say together (60_exceptions.md R211, R213, R220): one clause per code that
the block can raise, and none for 7, 9, 14 and 15. -/
def State.reportOk (s : State) : Bool :=
  match s.err.toNat with
  | 0 => decide (s.infoA = 0 ∧ s.infoB = 0)
  | 1 => decide (s.gotv = false ∧ s.htype = 0 ∧ s.infoA.toNat < 4 ∧ s.infoB = 0)
  | 2 => decide (s.gotv = false ∧ s.htype = 0 ∧ s.infoA.toNat < 256 ∧ s.infoA ≠ 2 ∧ s.infoB = 0)
  | 3 => decide (s.gotv = false ∧ s.htype = 0 ∧ s.infoA.toNat < 256 ∧ s.infoA ≠ 3 ∧ 1 ≤ s.infoB.toNat ∧
      s.infoB.toNat ≤ 4092)
  | 4 => decide (s.htype = 0) && checksumReport s.gotv s.infoA s.infoB
  | 5 => decide (s.htype = 0) && tagReport s.gotv s.infoA s.infoB
  | 6 => s.gotv && lengthReport s.htype s.infoA s.infoB
  | 8 => decide (s.gotv = false ∧ s.htype = 3 ∧ 100 ≤ s.infoA.toNat ∧ s.infoA.toNat ≤ 127 ∧
      s.infoB.toNat < Config.rtSize ∧ s.infoB.toNat % 8 = RtField.id .ee)
  | 10 => s.gotv && formatReport s.htype s.infoA s.infoB
  | 11 => !s.gotv && rangeReport s.htype s.infoA s.infoB
  | 12 => !s.gotv && longReport s.htype s.infoA s.infoB
  | 13 => decide (s.gotv = false ∧ s.htype = 0 ∧ (decode s.infoA).toInstr = none ∧ s.infoB = 0)
  | _ => false

/-- The invariant every step keeps: FB and RT are in canonical form with assigned addresses and data of their width
(10_state.md R26 to R28), the report is one the spec's error tables allow (60_exceptions.md R211, R213, R220), and PLEN
is a payload length that a frame can have (10_state.md R21). -/
abbrev State.Inv (s : State) : Prop :=
  s.fb.wf = true ∧ s.rt.wf = true ∧ s.reportOk = true ∧ s.plen.toNat ≤ Config.payloadMax

/-- The states a run of steps from `s` reaches. -/
inductive Reaches (s : State) : State → Prop where
  | refl : Reaches s s
  | step {t u : State} : Reaches s t → step t = .next u → Reaches s u

/-- A run is safe: every state it reaches keeps the invariant and has a next state. -/
def SafeRun (s : State) : Prop := ∀ t, Reaches s t → t.Inv ∧ ∃ u, step t = .next u

end Sys2Proof.Machine
end

