-- ==== Sys2Proof/Certificates/Slice0/Obligations.lean ====
section
/-! DEFINITION. The statements about the block, for the provers. A whole-state equation `exec i s = .next { s with … }`
is also the command's frame: every field not named, the frame buffer and the reading table are unchanged. -/

open Sys2Proof Sys2Proof.Machine

/-! ### Encodings -/

/-- Decoding the word of a command the block has gives it back, for both values of `ENC_PRESENT` (30_encoding.md R61,
R62). -/
def Obligations.DecodeOfEncodeIsTheCommand : Prop :=
  ∀ (p : Bool) (i : Instr), i.wellFormedWith p = true → decodeWith p (encode i) = .command i

/-- 30_encoding.md R62, R63: a word is a command iff `w & mask = match`, row by row, and a format-A argument is
`w[11:0]`. -/
def Obligations.WordIsCommandIffItMatchesItsRow : Prop :=
  ∀ w : Word,
    (decode w = .command .nop ↔ w &&& 0xFFFF#16 = 0x0000#16) ∧
    (decode w = .command .aclr ↔ w &&& 0xFFFF#16 = 0x1000#16) ∧
    (∀ k : Index, decode w = .command (.axb k) ↔ w &&& 0xF000#16 = 0x2000#16 ∧ k = w.extractLsb' 0 12) ∧
    (∀ n : Index, decode w = .command (.csum n) ↔ w &&& 0xF000#16 = 0x3000#16 ∧ n = w.extractLsb' 0 12) ∧
    (decode w = .command .fchk ↔ w &&& 0xFFFF#16 = 0x4000#16) ∧
    (decode w = .command .dec ↔ w &&& 0xFFFF#16 = 0x5000#16) ∧
    (∀ n : Index, decode w = .command (.wrap n) ↔ w &&& 0xF000#16 = 0x6000#16 ∧ n = w.extractLsb' 0 12) ∧
    (decode w = .command .enc ↔ w &&& 0xFFFF#16 = 0x7000#16)

/-- 30_encoding.md R64: which words are illegal, for both values of `ENC_PRESENT`; every other word is a command. -/
def Obligations.WordIsIllegalExactlyAsListed : Prop :=
  ∀ (p : Bool) (w : Word),
    (∃ why, decodeWith p w = .illegal why) ↔
      8 ≤ w.toNat / 4096 ∨
      (w.toNat / 4096 = 0 ∨ w.toNat / 4096 = 1 ∨ w.toNat / 4096 = 4 ∨ w.toNat / 4096 = 5 ∨ w.toNat / 4096 = 7) ∧
        w.toNat % 4096 ≠ 0 ∨
      p = false ∧ (w.toNat / 4096 = 6 ∨ w.toNat / 4096 = 7)

/-- Words of the spec's programs and vectors, one per command (95_test_vectors.md, 30_encoding.md R62). -/
def Obligations.SpecWordsDecode : Prop :=
  decode 0x0000 = .command .nop ∧ decode 0x1000 = .command .aclr ∧ decode 0x2FFF = .command (.axb 4095) ∧
  decode 0x3007 = .command (.csum 7) ∧ decode 0x4000 = .command .fchk ∧ decode 0x5000 = .command .dec ∧
  decode 0x6007 = .command (.wrap 7) ∧ decode 0x7000 = .command .enc

/-! ### The port -/

/-- The port takes one host operation a step, the next command word is run by the step that takes its CMD write, and
with nothing pending nothing changes. The list of pending operations is the model's own (log entries 4, 5). -/
def Obligations.StepTakesTheNextHostOperation : Prop :=
  ∀ s : State,
    (s.port = [] → step s = .next s) ∧
    (∀ o os, s.port = o :: os → step s = hostStep o { s with port := os }) ∧
    (∀ w i os, s.port = .csrWrite 0 w :: os → decode w = .command i → i.wellFormed = true →
      step s = exec i { s with port := os })

/-- 46_host_port.md R196: an illegal word written to CMD reports IllegalCommand and changes nothing else. -/
def Obligations.IllegalWordReportsAndChangesNothingElse : Prop :=
  ∀ (w : Word) (why : Illegal) (s : State), decode w = .illegal why →
    hostStep (.csrWrite 0 w) s =
      .next { s with gotv := false, htype := 0, err := 13, infoA := w, infoB := 0 }

/-- What CsrRead returns for each of the 16 numbers (46_host_port.md R191, 10_state.md R13). The returned value is
appended to `replies`, the model's own field (log entry 6). -/
def Obligations.CsrReadReturnsTheRegister : Prop :=
  ∀ (s : State) (c : BitVec 4), ∃ v : Word,
    hostStep (.csrRead c) s = .next { s with replies := s.replies ++ [.word v] } ∧
    (c = 0x0 → v = 0) ∧
    (c = 0x1 → v.toNat = 4 * s.gotv.toNat + s.htype.toNat) ∧
    (c = 0x2 → v.toNat = s.err.toNat) ∧
    (c = 0x3 → v = s.infoA) ∧
    (c = 0x4 → v = s.infoB) ∧
    (c = 0x5 → v.toNat = s.len.toNat) ∧
    (c = 0x6 → v.toNat = s.acc.toNat) ∧
    (c = 0x7 → v.toNat = s.plen.toNat) ∧
    (c = 0x8 → v.toNat = s.ttype.toNat) ∧
    (c = 0x9 → v.toNat = 32768 * s.compP.toNat + s.compVal.toNat) ∧
    (c = 0xA → v.toNat = s.cmdlen.toNat) ∧
    (c = 0xB → v.toNat = s.count.toNat) ∧
    (12 ≤ c.toNat → v = 0)

/-- What CsrWrite stores, for each number but CMD (46_host_port.md R191): the low bits of a read-write register, nothing
elsewhere. -/
def Obligations.CsrWriteStoresTheLowBits : Prop :=
  ∀ (s : State) (v : Word),
    hostStep (.csrWrite 0x5 v) s = .next { s with len := v.extractLsb' 0 12 } ∧
    hostStep (.csrWrite 0x8 v) s = .next { s with ttype := v.extractLsb' 0 2 } ∧
    hostStep (.csrWrite 0x9 v) s = .next { s with compP := v.getLsbD 15, compVal := v.extractLsb' 0 10 } ∧
    hostStep (.csrWrite 0xA v) s = .next { s with cmdlen := v.extractLsb' 0 12 } ∧
    hostStep (.csrWrite 0xB v) s = .next { s with count := v.extractLsb' 0 7 } ∧
    ∀ c : BitVec 4, 1 ≤ c.toNat ∧ c.toNat ≤ 4 ∨ 6 ≤ c.toNat ∧ c.toNat ≤ 7 ∨ 12 ≤ c.toNat →
      hostStep (.csrWrite c v) s = .next s

/-- 46_host_port.md R193: FbWrite writes one byte, every other byte reads as before, and nothing else changes. -/
def Obligations.FbWriteWritesOneByte : Prop :=
  ∀ (s : State) (k : Index) (b : Byte), ∃ m : Memory,
    hostStep (.fbWrite k b) s = .next { s with fb := m } ∧
    ({ s with fb := m } : State).fbGet k.toNat = b ∧
    ∀ j : Nat, j ≠ k.toNat → ({ s with fb := m } : State).fbGet j = s.fbGet j

/-- RtWrite keeps the low bits of the field its address selects and leaves every other field; an unassigned address
ignores it (46_host_port.md R194, 10_state.md R27, R28). -/
def Obligations.RtWriteWritesOneField : Prop :=
  ∀ (s : State) (v : Word),
    (∀ (i : Nat) (f : RtField) (a : BitVec 10), i ≤ 98 → a.toNat = 8 * i + f.id → ∃ m : Table,
      hostStep (.rtWrite a v) s = .next { s with rt := m } ∧
      (({ s with rt := m } : State).rtGet i f).toNat = v.toNat % 2 ^ f.width ∧
      ∀ (j : Nat) (g : RtField), (j, g) ≠ (i, f) → ({ s with rt := m } : State).rtGet j g = s.rtGet j g) ∧
    (∀ a : BitVec 10, 792 ≤ a.toNat → hostStep (.rtWrite a v) s = .next s)

/-- A byte or a field written is what the next read of it returns; FB reads return the byte, RT reads the field, an
unassigned RT address 0, and a read changes nothing else (46_host_port.md R192, R194, 20_memory.md R47, R48). The
returned value is appended to `replies`, the model's own field (log entry 6). -/
def Obligations.MemoryReadsReturnWhatIsThere : Prop :=
  ∀ s : State,
    (∀ k : Index, hostStep (.fbRead k) s = .next { s with replies := s.replies ++ [.byte (s.fbGet k.toNat)] }) ∧
    (∀ (i : Nat) (f : RtField) (a : BitVec 10), i ≤ 98 → a.toNat = 8 * i + f.id →
      hostStep (.rtRead a) s = .next { s with replies := s.replies ++ [.word (s.rtGet i f)] } ∧
      (s.rtGet i f).toNat < 2 ^ f.width) ∧
    (∀ a : BitVec 10, 792 ≤ a.toNat → hostStep (.rtRead a) s = .next { s with replies := s.replies ++ [.word 0] })

/-- 70_reset_and_hazards.md R240, 10_state.md R31: after the state the model starts in, and after a Reset at any point,
every CSR is 0. (What FB and RT then hold is unspecified, and nothing is said of it.) -/
def Obligations.ResetClearsEveryCsr : Prop :=
  (∀ c : BitVec 4, State.reset.csrRead c = 0) ∧
  ∀ s : State, ∃ t, hostStep .reset s = .next t ∧ ∀ c : BitVec 4, t.csrRead c = 0

/-! ### The checksum accumulator and NOP -/

/-- 46_host_port.md R195. -/
def Obligations.NopChangesNothing : Prop :=
  decode 0x0000 = .command .nop ∧ (∃ why, decode 0x0001 = .illegal why) ∧ ∀ s : State, exec .nop s = .next s

/-- 40_checksum.md R91: a nonzero argument is not ACLR but an illegal word. -/
def Obligations.AclrClearsTheAccumulator : Prop :=
  decode 0x1000 = .command .aclr ∧ (∀ k : Index, k ≠ 0 → ∃ why, decode (0x1000#16 ||| k.setWidth 16) = .illegal why) ∧
    ∀ s : State, exec .aclr s = .next { s with acc := 0 }

/-- 40_checksum.md R92: for every `k`, at or beyond LEN too. -/
def Obligations.AxbFoldsInOneByte : Prop :=
  ∀ k : Index, decode (0x2000#16 ||| k.setWidth 16) = .command (.axb k) ∧
    ∀ s : State, exec (.axb k) s = .next { s with acc := s.acc ^^^ s.fbGet k.toNat }

/-- 40_checksum.md R93: the exclusive or of the first `n` bytes, whatever ACC and LEN hold. -/
def Obligations.CsumSetsTheChecksumOfTheFirstBytes : Prop :=
  ∀ n : Index, decode (0x3000#16 ||| n.setWidth 16) = .command (.csum n) ∧
    ∀ s : State, exec (.csum n) s = .next { s with acc := (s.fbBytes 0 n.toNat).foldl (· ^^^ ·) 0 }

/-- 40_checksum.md R94 (a), (c), which the spec marks as its own inference from R90: CSUM `n` is ACLR and then AXB of the first `n` bytes in any order. -/
def Obligations.CsumIsAclrAndAxbInAnyOrder : Prop :=
  ∀ (s : State) (n : Index) (ks : List Index), (ks.map BitVec.toNat).Perm (List.range n.toNat) →
    execAll (.aclr :: ks.map Instr.axb) s = exec (.csum n) s

/-- 40_checksum.md R94 (b), (d), (e), which the spec marks as its own inference from R90: one more byte, a byte accumulated twice, one bit changed. -/
def Obligations.ChecksumFollowsEveryBit : Prop :=
  ∀ s : State,
    (∀ n : Nat, s.xorFold 0 (n + 1) = s.xorFold 0 n ^^^ s.fbGet n) ∧
    (∀ k : Index, execAll [.axb k, .axb k] s = .next s) ∧
    (∀ n k bit : Nat, k < n → bit < 8 →
      (s.flipBit k bit).xorFold 0 n = s.xorFold 0 n ^^^ (1#8 <<< bit))

/-! ### The frame envelope -/

/-- 41_frame_envelope.md R100, R101: the checks of FCHK in order, what each failure reports and leaves, and what passing
leaves. `hexUpperDigit` is the uppercase-only class with its values, stated in `TrailerDigitIsUppercase`. -/
def Obligations.FchkChecksInOrder : Prop :=
  decode 0x4000 = .command .fchk ∧
  ∀ s : State,
    let L := s.len.toNat
    let c := s.xorFold 0 (L - 2)
    let failed := { s with gotv := false, htype := 0, plen := 0 }
    (L < 4 → exec .fchk s = .next (failed.reported 1 L 0)) ∧
    (4 ≤ L → s.fbGet 0 ≠ 0x02 → exec .fchk s = .next (failed.reported 2 (s.fbGet 0).toNat 0)) ∧
    (4 ≤ L → s.fbGet 0 = 0x02 → s.fbGet (L - 3) ≠ 0x03 →
      exec .fchk s = .next (failed.reported 3 (s.fbGet (L - 3)).toNat (L - 3))) ∧
    (4 ≤ L → s.fbGet 0 = 0x02 → s.fbGet (L - 3) = 0x03 →
      (hexUpperDigit (s.fbGet (L - 2)) = none ∨ hexUpperDigit (s.fbGet (L - 1)) = none →
        exec .fchk s = .next ({ failed with acc := c }.reported 4
          (256 * (s.fbGet (L - 2)).toNat + (s.fbGet (L - 1)).toNat) c.toNat)) ∧
      ∀ h l, hexUpperDigit (s.fbGet (L - 2)) = some h → hexUpperDigit (s.fbGet (L - 1)) = some l →
        (h * 16 + l ≠ c.toNat →
          exec .fchk s = .next ({ failed with gotv := true, acc := c }.reported 4 (h * 16 + l) c.toNat)) ∧
        (h * 16 + l = c.toNat → exec .fchk s = .next (s.passed 0)))

/-- 41_frame_envelope.md R102, 00_scope.md R8: `'0'-'9'` and `'A'-'F'` with their values, and nothing else. -/
def Obligations.TrailerDigitIsUppercase : Prop :=
  ∀ c : Byte,
    (∀ v, hexUpperDigit c = some v ↔
      (0x30 ≤ c.toNat ∧ c.toNat ≤ 0x39 ∧ v = c.toNat - 0x30 ∨ 0x41 ≤ c.toNat ∧ c.toNat ≤ 0x46 ∧ v = c.toNat - 0x37)) ∧
    (hexUpperDigit c = none ↔ ¬(0x30 ≤ c.toNat ∧ c.toNat ≤ 0x39 ∨ 0x41 ≤ c.toNat ∧ c.toNat ≤ 0x46))

/-- FCHK and DEC accept the envelope of exactly the byte sequences laid out as a frame (30_encoding.md R68,
41_frame_envelope.md R102, R103): markers in place, and the trailer the two uppercase digits of the checksum. -/
def Obligations.FchkAcceptsExactlyFrames : Prop :=
  ∀ s : State, (∃ t, exec .fchk s = .next t ∧ t.err = 0) ↔ s.Framed

/-- 41_frame_envelope.md R110: WRAP refuses a payload that does not fit with nothing written, and otherwise builds the
frame around the payload bytes that stand in `FB[1 .. n+1)`, which do not change. -/
def Obligations.WrapBuildsTheFrame : Prop :=
  ∀ (s : State) (n : Index), decode (0x6000#16 ||| n.setWidth 16) = .command (.wrap n) ∧
    (n.toNat > 4091 →
      exec (.wrap n) s = .next ({ s with gotv := false, htype := 0 }.reported 12 n.toNat 4091)) ∧
    (n.toNat ≤ 4091 → ∃ t, exec (.wrap n) s = .next t ∧ BuiltFrame s t 0 (s.fbBytes 1 n.toNat))

/-- WRAP and FCHK are inverse on the envelope (41_frame_envelope.md R111, which the spec marks as its own inference from
R100 and R110). -/
def Obligations.WrapAndFchkAreInverse : Prop :=
  (∀ (s t : State) (n : Index), exec (.wrap n) s = .next t → t.err = 0 →
    exec .fchk t = .next { t with gotv := true } ∧ t.plen = n) ∧
  (∀ s t : State, exec .fchk s = .next t → t.err = 0 →
    ∃ u, exec (.wrap t.plen) t = .next u ∧ u.err = 0 ∧ u.len = s.len ∧ ∀ k, u.fbGet k = s.fbGet k)

/-- 40_checksum.md R94 (e), which the spec marks as its own inference, 95_test_vectors.md S8: flipping any single bit of a good frame's payload makes the frame
check fail with ChecksumMismatch. -/
def Obligations.PayloadBitFlipIsDetected : Prop :=
  ∀ (s : State) (k bit : Nat), s.Framed → 1 ≤ k → k < s.len.toNat - 3 → bit < 8 →
    (∃ t, exec .fchk (s.flipBit k bit) = .next t ∧ t.err = 4 ∧ t.gotv = true) ∧
    (∃ t, exec .dec (s.flipBit k bit) = .next t ∧ t.err = 4 ∧ t.gotv = true ∧ NoRecord t)

/-! ### The decode direction -/

/-- A DEC whose frame check fails leaves what FCHK leaves, with the record registers cleared (42_dispatch_da_st.md
R120, R124, 60_exceptions.md R220). -/
def Obligations.DecFailsTheFrameCheckAsFchk : Prop :=
  ∀ s t : State, exec .fchk s = .next t → t.err ≠ 0 →
    exec .dec s = .next { t with ttype := 0, compP := false, compVal := 0, cmdlen := 0, count := 0 }

/-- A framed payload with no known tag is UnknownTelegramType: shorter than two characters with INFOA 0, or any pair but
the three exact ones (42_dispatch_da_st.md R121). -/
def Obligations.DecRejectsUnknownTags : Prop :=
  ∀ s : State, s.Framed →
    let P := s.len.toNat - 4
    (P < 2 → exec .dec s = .next ((s.passed 0).decodeFailed 5 0 P)) ∧
    (2 ≤ P → ¬(s.fbGet 1 = 0x44 ∧ s.fbGet 2 = 0x41) → ¬(s.fbGet 1 = 0x53 ∧ s.fbGet 2 = 0x54) →
      ¬(s.fbGet 1 = 0x4D ∧ s.fbGet 2 = 0x44) →
      exec .dec s = .next ((s.passed 0).decodeFailed 5 (256 * (s.fbGet 1).toNat + (s.fbGet 2).toNat) P))

/-- 42_dispatch_da_st.md R122: the DA handler, for a frame that passed the check. -/
def Obligations.DecDecodesAddressing : Prop :=
  ∀ s : State, s.Framed → s.fbGet 1 = 0x44 → s.fbGet 2 = 0x41 →
    let P := s.len.toNat - 4
    (P = 2 → exec .dec s =
      .next { s.passed 1 with ttype := 1, compP := false, compVal := 0, cmdlen := 0, count := 0 }) ∧
    (P = 5 → ∀ v, s.Dec3At 3 v → exec .dec s =
      .next { s.passed 1 with ttype := 1, compP := true, compVal := BitVec.ofNat 10 v, cmdlen := 0, count := 0 }) ∧
    (P = 5 → ∀ k, 3 ≤ k → k ≤ 5 → CharClass.decimal.has (s.fbGet k) = false →
      (∀ j, 3 ≤ j → j < k → CharClass.decimal.has (s.fbGet j) = true) →
      exec .dec s = .next ((s.passed 1).decodeFailed 10 (s.fbGet k).toNat k)) ∧
    (2 ≤ P → P ≠ 2 → P ≠ 5 → exec .dec s = .next ((s.passed 1).decodeFailed 6 0 P))

/-- 42_dispatch_da_st.md R123: the ST handler, for a frame that passed the check. -/
def Obligations.DecDecodesStatus : Prop :=
  ∀ s : State, s.Framed → s.fbGet 1 = 0x53 → s.fbGet 2 = 0x54 →
    let P := s.len.toNat - 4
    (2 ≤ P → P < 6 → exec .dec s = .next ((s.passed 2).decodeFailed 6 6 P)) ∧
    (6 ≤ P → ∀ v, s.Dec3At 3 v → exec .dec s =
      .next { s.passed 2 with
              ttype := 2, compP := true, compVal := BitVec.ofNat 10 v, cmdlen := BitVec.ofNat 12 (P - 5), count := 0 }) ∧
    (6 ≤ P → ∀ k, 3 ≤ k → k ≤ 5 → CharClass.decimal.has (s.fbGet k) = false →
      (∀ j, 3 ≤ j → j < k → CharClass.decimal.has (s.fbGet j) = true) →
      exec .dec s = .next ((s.passed 2).decodeFailed 10 (s.fbGet k).toNat k))

/-- 43_md.md R141, R142, 30_encoding.md R73: an MD frame whose length is the one its count asks for and whose blocks
hold the readings `es` decodes to them, in wire order, and writes only the RT entries below the count. -/
def Obligations.DecDecodesMeasurements : Prop :=
  ∀ (s : State) (es : List Reading), s.Framed → s.fbGet 1 = 0x4D → s.fbGet 2 = 0x44 →
    s.Dec2At 3 es.length → s.len.toNat - 4 = 5 + 30 * es.length →
    (∀ i (h : i < es.length), s.BlockAt (6 + 30 * i) es[i]) →
    ∃ m : Table,
      let t := { s.passed 3 with
                 ttype := 3, compP := false, compVal := 0, cmdlen := 0, count := BitVec.ofNat 7 es.length, rt := m }
      exec .dec s = .next t ∧ (∀ i (h : i < es.length), t.rtReading i = es[i]) ∧
        ∀ i f, es.length ≤ i → t.rtGet i f = s.rtGet i f

/-- 43_md.md R141 (a) to (d), R142: the errors of the MD handler, in order; in the blocks the lowest-indexed character
that is examined and outside its class is the one reported. -/
def Obligations.DecRejectsMalformedMeasurements : Prop :=
  ∀ s : State, s.Framed → s.fbGet 1 = 0x4D → s.fbGet 2 = 0x44 →
    let P := s.len.toNat - 4
    (2 ≤ P → P < 4 → exec .dec s = .next ((s.passed 3).decodeFailed 6 5 P)) ∧
    (4 ≤ P → ∀ k, 3 ≤ k → k ≤ 4 → CharClass.decimal.has (s.fbGet k) = false →
      (∀ j, 3 ≤ j → j < k → CharClass.decimal.has (s.fbGet j) = true) →
      exec .dec s = .next ((s.passed 3).decodeFailed 10 (s.fbGet k).toNat k)) ∧
    (4 ≤ P → ∀ n, s.Dec2At 3 n → P ≠ 5 + 30 * n →
      exec .dec s = .next ((s.passed 3).decodeFailed 6 (5 + 30 * n) P)) ∧
    (∀ n, s.Dec2At 3 n → P = 5 + 30 * n → ∀ k, 6 ≤ k → k < 6 + 30 * n → s.blockCharOk k = false →
      (∀ j, 6 ≤ j → j < k → s.blockCharOk j = true) →
      exec .dec s = .next ((s.passed 3).decodeFailed 10 (s.fbGet k).toNat k))

/-- 42_dispatch_da_st.md R124: a failed DEC leaves no record and RT as it was; a successful one writes only the RT
entries below the new COUNT. Neither writes FB or LEN (10_state.md R33), nor the model's own fields (log entries 3, 4,
6). -/
def Obligations.DecLeavesNoPartialRecord : Prop :=
  ∀ s t : State, exec .dec s = .next t →
    (t.err ≠ 0 → NoRecord t ∧ t.record = none ∧ t.rt = s.rt) ∧
    (t.err = 0 → ∀ i f, t.count.toNat ≤ i → t.rtGet i f = s.rtGet i f) ∧
    t.fb = s.fb ∧ t.len = s.len ∧ SameModelFields s t

/-- 42_dispatch_da_st.md R125, which the spec marks as its own inference: DEC is total, and ends with a record or with one of the seven errors and no record. -/
def Obligations.DecIsTotal : Prop :=
  ∀ s : State, ∃ t, exec .dec s = .next t ∧
    (t.err = 0 ∧ (∃ r, t.record = some r) ∨
      (t.err = 1 ∨ t.err = 2 ∨ t.err = 3 ∨ t.err = 4 ∨ t.err = 5 ∨ t.err = 6 ∨ t.err = 10) ∧ t.record = none)

/-- 43_md.md R144, which the spec marks as its own inference from R76: every value DEC writes to RT, and COUNT, is in its
legal range. -/
def Obligations.DecodedFieldsAreLegal : Prop :=
  ∀ s t : State, exec .dec s = .next t → t.err = 0 →
    t.compVal.toNat ≤ 999 ∧ t.count.toNat ≤ 99 ∧
    ∀ i, i < t.count.toNat →
      (t.rtReading i).comp.toNat ≤ 999 ∧ (t.rtReading i).value.vm.toNat ≤ 9999 ∧ (t.rtReading i).value.ee.toNat ≤ 99 ∧
      (t.rtReading i).opsts.toNat ≤ 255 ∧ (t.rtReading i).errsts.toNat ≤ 255 ∧ (t.rtReading i).serial.toNat ≤ 999

/-- 10_state.md R30, which the spec marks as its own inference: what FCHK and DEC report and decode depends on LEN and `FB[0 .. LEN)` alone. ACC is part of it from
ChecksumMismatch on; before that it is not written (60_exceptions.md R220, log entry 9). -/
def Obligations.FrameOutcomeDependsOnTheFrameAlone : Prop :=
  ∀ s s' : State, s'.len = s.len → (∀ k, k < s.len.toNat → s'.fbGet k = s.fbGet k) →
    (∀ t t', exec .fchk s = .next t → exec .fchk s' = .next t' →
      SameReport t t' ∧ t'.plen = t.plen ∧ (t.err = 0 ∨ t.err = 4 → t'.acc = t.acc)) ∧
    (∀ t t', exec .dec s = .next t → exec .dec s' = .next t' →
      SameReport t t' ∧ t'.plen = t.plen ∧ (¬(1 ≤ t.err.toNat ∧ t.err.toNat ≤ 3) → t'.acc = t.acc) ∧
      SameRecordRegs t t' ∧ t'.record = t.record)

/-! ### The encode direction -/

/-- ENC with no record type reports UnknownTelegramType and changes nothing else (45_encode.md R170). -/
def Obligations.EncNeedsARecord : Prop :=
  ∀ s : State, s.ttype = 0 → exec .enc s = .next ({ s with gotv := false, htype := 0 }.reported 5 0 0)

/-- 45_encode.md R171: the DA encoder. -/
def Obligations.EncEncodesAddressing : Prop :=
  ∀ s : State, s.ttype = 1 →
    (s.compP = false → ∃ t, exec .enc s = .next t ∧ BuiltFrame s t 1 [0x44, 0x41]) ∧
    (s.compP = true → s.compVal.toNat ≤ 999 →
      ∃ t, exec .enc s = .next t ∧ BuiltFrame s t 1 ([0x44, 0x41] ++ decChars 3 s.compVal.toNat)) ∧
    (s.compP = true → 999 < s.compVal.toNat →
      exec .enc s = .next ({ s with gotv := false, htype := 1 }.reported 11 s.compVal.toNat 0xFFFF))

/-- 45_encode.md R172, R173: the ST encoder; COMP.P is ignored and the command text is taken where it stands. -/
def Obligations.EncEncodesStatus : Prop :=
  ∀ s : State, s.ttype = 2 →
    (999 < s.compVal.toNat →
      exec .enc s = .next ({ s with gotv := false, htype := 2 }.reported 11 s.compVal.toNat 0xFFFF)) ∧
    (s.compVal.toNat ≤ 999 → 4086 < s.cmdlen.toNat →
      exec .enc s = .next ({ s with gotv := false, htype := 2 }.reported 12 (5 + s.cmdlen.toNat) 4091)) ∧
    (s.compVal.toNat ≤ 999 → s.cmdlen.toNat ≤ 4086 →
      ∃ t, exec .enc s = .next t ∧
        BuiltFrame s t 2 ([0x53, 0x54] ++ decChars 3 s.compVal.toNat ++ s.fbBytes 6 s.cmdlen.toNat))

/-- 45_encode.md R174: the MD encoder on a record every field of which fits its digits. -/
def Obligations.EncEncodesMeasurements : Prop :=
  ∀ s : State, s.ttype = 3 → s.count.toNat ≤ 99 → (∀ i, i < s.count.toNat → (s.rtReading i).Encodable) →
    ∃ t, exec .enc s = .next t ∧
      BuiltFrame s t 3 ([0x4D, 0x44] ++ decChars 2 s.count.toNat ++ [0x20] ++
        (s.readings s.count.toNat).flatMap fun e => e.block e.value.emitted)

/-- 45_encode.md R174, R175, 60_exceptions.md R216: the errors of the MD encoder, the count first and then the lowest
entry with a field that does not fit, its fields in the order COMP, VM, EE, SERIAL; nothing else is written. -/
def Obligations.EncRejectsFieldsThatDoNotFit : Prop :=
  ∀ s : State, s.ttype = 3 →
    let s' := { s with gotv := false, htype := 3 }
    (99 < s.count.toNat → exec .enc s = .next (s'.reported 11 s.count.toNat 0xFFFE)) ∧
    (s.count.toNat ≤ 99 → ∀ i, i < s.count.toNat → (∀ j, j < i → (s.rtReading j).Encodable) →
      let e := s.rtReading i
      (999 < e.comp.toNat → exec .enc s = .next (s'.reported 11 e.comp.toNat (8 * i))) ∧
      (e.comp.toNat ≤ 999 → 9999 < e.value.vm.toNat → exec .enc s = .next (s'.reported 11 e.value.vm.toNat (8 * i + 2))) ∧
      (e.comp.toNat ≤ 999 → e.value.vm.toNat ≤ 9999 → 99 < e.value.ee.toNat → e.value.es = 0 →
        exec .enc s = .next (s'.reported 8 e.value.ee.toNat (8 * i + 4))) ∧
      (e.comp.toNat ≤ 999 → e.value.vm.toNat ≤ 9999 → (e.value.ee.toNat ≤ 99 ∨ e.value.es = 1) → 999 < e.serial.toNat →
        exec .enc s = .next (s'.reported 11 e.serial.toNat (8 * i + 7))))

/-- 30_encoding.md R73, R75, R77, 44_value_field.md R152: the 30 characters of the block ENC emits, offset by offset. -/
def Obligations.EmittedBlockLayout : Prop :=
  ∀ (e : Reading) (t : Triple),
    let d := fun (v j : Nat) => BitVec.ofNat 8 (0x30 + v / 10 ^ j % 10)
    let x := fun (v : Nat) => if v ≤ 9 then BitVec.ofNat 8 (0x30 + v) else BitVec.ofNat 8 (0x37 + v)
    let sg := fun (b : BitVec 1) => if b = 1 then 0x2D#8 else 0x2B#8
    e.block t =
      [d e.comp.toNat 2, d e.comp.toNat 1, d e.comp.toNat 0, 0x20,
       sg t.vs, d t.vm.toNat 3, d t.vm.toNat 2, d t.vm.toNat 1, d t.vm.toNat 0, sg t.es, d t.ee.toNat 1, d t.ee.toNat 0,
       0x20, x (e.opsts.toNat / 16), x (e.opsts.toNat % 16), 0x20, x (e.errsts.toNat / 16), x (e.errsts.toNat % 16), 0x20,
       d e.serial.toNat 2, d e.serial.toNat 1, d e.serial.toNat 0, 0x20, 0x30, 0x30, 0x30, 0x30, 0x30, 0x30, 0x20]

/-- 45_encode.md R170: ENC fails having changed only the report, or succeeds having changed only the frame and what
describes it; the record registers and RT are never written. -/
def Obligations.EncLeavesTheRecord : Prop :=
  ∀ s : State, ∃ t, exec .enc s = .next t ∧
    SameRecordRegs s t ∧ t.rt = s.rt ∧ SameModelFields s t ∧ t.gotv = false ∧ t.htype = s.ttype ∧
    (t.err ≠ 0 → t.fb = s.fb ∧ t.len = s.len ∧ t.plen = s.plen ∧ t.acc = s.acc) ∧
    (t.err = 0 → t.len.toNat = t.plen.toNat + 4 ∧ ∀ k, t.len.toNat ≤ k → t.fbGet k = s.fbGet k)

/-- 10_state.md R30, which the spec marks as its own inference: what WRAP and ENC do depends on their argument, the record registers, `RT[0 .. COUNT)` and the
bytes they are said to read alone. -/
def Obligations.EncodeDependsOnTheRecordAlone : Prop :=
  ∀ s s' : State,
    (∀ (n : Index) (t t' : State), (∀ k, 1 ≤ k → k < n.toNat + 1 → s'.fbGet k = s.fbGet k) →
      exec (.wrap n) s = .next t → exec (.wrap n) s' = .next t' →
      SameReport t t' ∧ (t.err = 0 → t'.len = t.len ∧ t'.plen = t.plen ∧ t'.acc = t.acc ∧
        t'.fbBytes 0 t.len.toNat = t.fbBytes 0 t.len.toNat)) ∧
    (∀ t t' : State, SameRecordRegs s s' → (∀ i f, i < s.count.toNat → s'.rtGet i f = s.rtGet i f) →
      (s.ttype = 2 → ∀ k, 6 ≤ k → k < 6 + s.cmdlen.toNat → s'.fbGet k = s.fbGet k) →
      exec .enc s = .next t → exec .enc s' = .next t' →
      SameReport t t' ∧ (t.err = 0 → t'.len = t.len ∧ t'.plen = t.plen ∧ t'.acc = t.acc ∧
        t'.fbBytes 0 t.len.toNat = t.fbBytes 0 t.len.toNat))

/-! ### Round trips -/

/-- The value field's two conversions are inverse (44_value_field.md R154, which the spec marks as its own inference from
R151 and R152). -/
def Obligations.ValueFieldRoundTrip : Prop :=
  ∀ (s : State) (k : Nat) (t : Triple),
    (t.vm.toNat ≤ 9999 → t.ee.toNat ≤ 99 → (s.storeBytes k t.chars).getValue k = .ok t) ∧
    (s.getValue k = .ok t → ∀ u : State, (u.storeBytes k t.chars).fbBytes k 8 = s.fbBytes k 8)

/-- 45_encode.md R177, first bullet, which the spec marks as its own inference: what ENC encoded, DEC decodes, but for an ST record with no command text
(InvalidLength) and an exponent that underflowed (the sentinel). -/
def Obligations.DecAfterEncReturnsTheRecord : Prop :=
  ∀ s t : State, exec .enc s = .next t → t.err = 0 →
    ∃ u, exec .dec t = .next u ∧
      (s.ttype = 2 ∧ s.cmdlen = 0 → u.err = 6 ∧ u.record = none) ∧
      (¬(s.ttype = 2 ∧ s.cmdlen = 0) → u.err = 0 ∧ ∃ r, s.record = some r ∧ u.record = some r.emitted)

/-- 45_encode.md R177, second bullet, which the spec marks as its own inference: what DEC decoded, ENC encodes with LEN unchanged; DA and ST byte for byte; MD with
every examined character kept but for the case of hexadecimal digits, and the rest of the blocks and payload offset 4
rewritten with spaces and `000000`. -/
def Obligations.EncAfterDecKeepsTheFrame : Prop :=
  ∀ s t : State, exec .dec s = .next t → t.err = 0 →
    ∃ u, exec .enc t = .next u ∧ u.err = 0 ∧ u.len = s.len ∧
      (t.ttype ≠ 3 → ∀ k, k < s.len.toNat → u.fbGet k = s.fbGet k) ∧
      (t.ttype = 3 → (∀ k, k < 5 → u.fbGet k = s.fbGet k) ∧ u.fbGet 5 = 0x20 ∧
        ∀ k, 6 ≤ k → k < s.len.toNat - 3 →
          (blockClass ((k - 6) % 30) = .decimal ∨ blockClass ((k - 6) % 30) = .sign → u.fbGet k = s.fbGet k) ∧
          (blockClass ((k - 6) % 30) = .hex → hexUpperDigit (u.fbGet k) = hexDigit (s.fbGet k)) ∧
          (blockClass ((k - 6) % 30) = .anything →
            u.fbGet k = if 23 ≤ (k - 6) % 30 ∧ (k - 6) % 30 ≤ 28 then 0x30 else 0x20))

/-! ### Rules of the whole machine -/

/-- The reset state keeps the invariant. -/
def Obligations.ResetKeepsTheInvariant : Prop := State.reset.Inv

/-- Every step from a state that meets the invariant leads to one that meets it: FB and RT stay in canonical form, PLEN a
payload length, and ERR, INFOA, INFOB and STATUS what the tables of 60_exceptions.md (R211, R213, R220) allow code by
code, locators those of 45_encode.md R175 (`State.reportOk`); in particular ERR never reads 7, 9, 14 or 15. -/
def Obligations.EveryStepKeepsTheInvariant : Prop :=
  ∀ s t : State, s.Inv → step s = .next t → t.Inv

/-- Every host operation, and so every step, has a next state: no fault, no refusal (42_dispatch_da_st.md R125,
60_exceptions.md R220, R222). That a step takes one operation is the model's own form (log entry 4). -/
def Obligations.EveryStepHasANextState : Prop :=
  (∀ (i : Instr) (s : State), ∃ t, exec i s = .next t) ∧ ∀ s : State, ∃ t, step s = .next t

/-- From reset, whatever the host sends, every state of the run keeps the invariant and has a next state. -/
def Obligations.EveryRunFromResetIsSafe : Prop :=
  ∀ ops : List HostOp, SafeRun { State.reset with port := ops }

/-- Which command can end with which code (60_exceptions.md R214, which the spec marks as its own inference). -/
def Obligations.CommandsEndWithTheirOwnCodes : Prop :=
  (∀ (i : Instr) (s t : State), exec i s = .next t →
    match i with
    | .nop | .aclr | .axb _ | .csum _ => t.err = s.err
    | .fchk => t.err.toNat ∈ [0, 1, 2, 3, 4]
    | .dec => t.err.toNat ∈ [0, 1, 2, 3, 4, 5, 6, 10]
    | .wrap _ => t.err.toNat ∈ [0, 12]
    | .enc => t.err.toNat ∈ [0, 5, 8, 11, 12]) ∧
  ∀ (w : Word) (why : Illegal) (s t : State), decode w = .illegal why → hostStep (.csrWrite 0 w) s = .next t → t.err = 13

/-- 10_state.md R33, which the spec marks as its own inference: the untouched places of the table, for the eight
commands, and the model's own fields (log entries 3, 4, 6). -/
def Obligations.CommandsWriteOnlyTheirPlaces : Prop :=
  ∀ (i : Instr) (s t : State), exec i s = .next t →
    SameModelFields s t ∧
    (i = .nop → t = s) ∧
    (i ≠ .dec → SameRecordRegs s t ∧ t.rt = s.rt) ∧
    (match i with | .wrap _ | .enc => True | _ => t.fb = s.fb ∧ t.len = s.len) ∧
    (match i with | .nop | .aclr | .axb _ | .csum _ => SameReport s t ∧ t.plen = s.plen | _ => True) ∧
    (match i with | .wrap _ | .enc => t.err ≠ 0 → t.fb = s.fb ∧ t.len = s.len ∧ t.plen = s.plen ∧ t.acc = s.acc | _ => True)

/-- 10_state.md R16, 60_exceptions.md R221, R248: only a CMD write of a checked command or an illegal word, and Reset,
change the report. -/
def Obligations.ReportStaysUntilTheNextCheckedCommand : Prop :=
  ∀ (o : HostOp) (s t : State), hostStep o s = .next t → ¬SameReport s t →
    o = .reset ∨
      ∃ w, o = .csrWrite 0 w ∧
        (decode w = .command .fchk ∨ decode w = .command .dec ∨ (∃ n, decode w = .command (.wrap n)) ∨
          decode w = .command .enc ∨ ∃ why, decode w = .illegal why)

/-- 10_state.md R31, 70_reset_and_hazards.md R241: what a location holds does not change until it is written. Only
FbWrite to it, WRAP, ENC and Reset can change a byte of FB; only RtWrite to it, DEC and Reset a field of RT. -/
def Obligations.MemoryIsStableUntilWritten : Prop :=
  ∀ (o : HostOp) (s t : State), hostStep o s = .next t → o ≠ .reset →
    (∀ k : Nat, t.fbGet k ≠ s.fbGet k →
      (∃ b, ∃ k' : Index, k'.toNat = k ∧ o = .fbWrite k' b) ∨
        ∃ w, o = .csrWrite 0 w ∧ ((∃ n, decode w = .command (.wrap n)) ∨ decode w = .command .enc)) ∧
    (∀ i f, t.rtGet i f ≠ s.rtGet i f →
      (∃ a v, a.toNat = rtAddress i f ∧ o = .rtWrite a v) ∨ ∃ w, o = .csrWrite 0 w ∧ decode w = .command .dec)

/-! ### Host-side reference -/

/-- 44_value_field.md R156, R158: `quant 0` is `+0000+00`; and for a rounding to four significant digits and a nonzero
number, whose rounding has the digits `m` and the exponent `e`, `quant` answers the sentinel exactly when `e <= -100`,
ValueTooLarge exactly when `e >= 100`, and otherwise the triple of the number's sign, `m` and `e`, within half a unit of
the number's fourth digit. The exponent `e` is the number's own, but for a round-up to 10000, where it is one more and
`m` is 1000. Host software, not the block (00_scope.md R4). -/
def Obligations.QuantIsWithinHalfAUnit : Prop :=
  ∀ r : Round4, r.Sound →
    quant r 0 = .ok { vs := 0, vm := 0, es := 0, ee := 0 } ∧
    ∀ (x : Rat) (d : Int), (10 : Rat) ^ d ≤ |x| → |x| < (10 : Rat) ^ (d + 1) →
      let m := (r |x|).1
      let e := (r |x|).2
      (2 * |x| < 19999 * (10 : Rat) ^ (d - 3) → e = d) ∧
      (19999 * (10 : Rat) ^ (d - 3) < 2 * |x| → m = 1000 ∧ e = d + 1) ∧
      (quant r x = .ok { vs := 0, vm := 0, es := 1, ee := 99 } ↔ e ≤ -100) ∧
      (quant r x = .error .valueTooLarge ↔ 100 ≤ e) ∧
      (-100 < e → e < 100 →
        ∃ t, quant r x = .ok t ∧ t.vs = (if x < 0 then 1 else 0) ∧ t.vm.toNat = m ∧ 1000 ≤ m ∧ m ≤ 9999 ∧
          t.es = (if e < 0 then 1 else 0) ∧ t.ee.toNat = e.natAbs ∧ |t.val - x| ≤ (10 : Rat) ^ (d - 3) / 2)
end

