-- ==== Sys2Proof/Laws/State.lean ====
section
/-! SUPPORT. Each field after each named update of the state, true by definition. -/

namespace Sys2Proof.Machine.State

variable (s : State)

@[simp] theorem setStatus_gotv (g : Bool) (h : BitVec 2) : (s.setStatus g h).gotv = g := rfl
@[simp] theorem setStatus_htype (g : Bool) (h : BitVec 2) : (s.setStatus g h).htype = h := rfl
@[simp] theorem setStatus_err (g : Bool) (h : BitVec 2) : (s.setStatus g h).err = s.err := rfl
@[simp] theorem setStatus_infoA (g : Bool) (h : BitVec 2) : (s.setStatus g h).infoA = s.infoA := rfl
@[simp] theorem setStatus_infoB (g : Bool) (h : BitVec 2) : (s.setStatus g h).infoB = s.infoB := rfl
@[simp] theorem setStatus_len (g : Bool) (h : BitVec 2) : (s.setStatus g h).len = s.len := rfl
@[simp] theorem setStatus_acc (g : Bool) (h : BitVec 2) : (s.setStatus g h).acc = s.acc := rfl
@[simp] theorem setStatus_plen (g : Bool) (h : BitVec 2) : (s.setStatus g h).plen = s.plen := rfl
@[simp] theorem setStatus_ttype (g : Bool) (h : BitVec 2) : (s.setStatus g h).ttype = s.ttype := rfl
@[simp] theorem setStatus_compP (g : Bool) (h : BitVec 2) : (s.setStatus g h).compP = s.compP := rfl
@[simp] theorem setStatus_compVal (g : Bool) (h : BitVec 2) : (s.setStatus g h).compVal = s.compVal := rfl
@[simp] theorem setStatus_cmdlen (g : Bool) (h : BitVec 2) : (s.setStatus g h).cmdlen = s.cmdlen := rfl
@[simp] theorem setStatus_count (g : Bool) (h : BitVec 2) : (s.setStatus g h).count = s.count := rfl
@[simp] theorem setStatus_fb (g : Bool) (h : BitVec 2) : (s.setStatus g h).fb = s.fb := rfl
@[simp] theorem setStatus_rt (g : Bool) (h : BitVec 2) : (s.setStatus g h).rt = s.rt := rfl
@[simp] theorem setStatus_resets (g : Bool) (h : BitVec 2) : (s.setStatus g h).resets = s.resets := rfl
@[simp] theorem setStatus_port (g : Bool) (h : BitVec 2) : (s.setStatus g h).port = s.port := rfl
@[simp] theorem setStatus_replies (g : Bool) (h : BitVec 2) : (s.setStatus g h).replies = s.replies := rfl

@[simp] theorem setGotv_gotv (g : Bool) : (s.setGotv g).gotv = g := rfl
@[simp] theorem setGotv_htype (g : Bool) : (s.setGotv g).htype = s.htype := rfl
@[simp] theorem setGotv_err (g : Bool) : (s.setGotv g).err = s.err := rfl
@[simp] theorem setGotv_infoA (g : Bool) : (s.setGotv g).infoA = s.infoA := rfl
@[simp] theorem setGotv_infoB (g : Bool) : (s.setGotv g).infoB = s.infoB := rfl
@[simp] theorem setGotv_len (g : Bool) : (s.setGotv g).len = s.len := rfl
@[simp] theorem setGotv_acc (g : Bool) : (s.setGotv g).acc = s.acc := rfl
@[simp] theorem setGotv_plen (g : Bool) : (s.setGotv g).plen = s.plen := rfl
@[simp] theorem setGotv_ttype (g : Bool) : (s.setGotv g).ttype = s.ttype := rfl
@[simp] theorem setGotv_compP (g : Bool) : (s.setGotv g).compP = s.compP := rfl
@[simp] theorem setGotv_compVal (g : Bool) : (s.setGotv g).compVal = s.compVal := rfl
@[simp] theorem setGotv_cmdlen (g : Bool) : (s.setGotv g).cmdlen = s.cmdlen := rfl
@[simp] theorem setGotv_count (g : Bool) : (s.setGotv g).count = s.count := rfl
@[simp] theorem setGotv_fb (g : Bool) : (s.setGotv g).fb = s.fb := rfl
@[simp] theorem setGotv_rt (g : Bool) : (s.setGotv g).rt = s.rt := rfl
@[simp] theorem setGotv_resets (g : Bool) : (s.setGotv g).resets = s.resets := rfl
@[simp] theorem setGotv_port (g : Bool) : (s.setGotv g).port = s.port := rfl
@[simp] theorem setGotv_replies (g : Bool) : (s.setGotv g).replies = s.replies := rfl

@[simp] theorem setHtype_gotv (h : BitVec 2) : (s.setHtype h).gotv = s.gotv := rfl
@[simp] theorem setHtype_htype (h : BitVec 2) : (s.setHtype h).htype = h := rfl
@[simp] theorem setHtype_err (h : BitVec 2) : (s.setHtype h).err = s.err := rfl
@[simp] theorem setHtype_infoA (h : BitVec 2) : (s.setHtype h).infoA = s.infoA := rfl
@[simp] theorem setHtype_infoB (h : BitVec 2) : (s.setHtype h).infoB = s.infoB := rfl
@[simp] theorem setHtype_len (h : BitVec 2) : (s.setHtype h).len = s.len := rfl
@[simp] theorem setHtype_acc (h : BitVec 2) : (s.setHtype h).acc = s.acc := rfl
@[simp] theorem setHtype_plen (h : BitVec 2) : (s.setHtype h).plen = s.plen := rfl
@[simp] theorem setHtype_ttype (h : BitVec 2) : (s.setHtype h).ttype = s.ttype := rfl
@[simp] theorem setHtype_compP (h : BitVec 2) : (s.setHtype h).compP = s.compP := rfl
@[simp] theorem setHtype_compVal (h : BitVec 2) : (s.setHtype h).compVal = s.compVal := rfl
@[simp] theorem setHtype_cmdlen (h : BitVec 2) : (s.setHtype h).cmdlen = s.cmdlen := rfl
@[simp] theorem setHtype_count (h : BitVec 2) : (s.setHtype h).count = s.count := rfl
@[simp] theorem setHtype_fb (h : BitVec 2) : (s.setHtype h).fb = s.fb := rfl
@[simp] theorem setHtype_rt (h : BitVec 2) : (s.setHtype h).rt = s.rt := rfl
@[simp] theorem setHtype_resets (h : BitVec 2) : (s.setHtype h).resets = s.resets := rfl
@[simp] theorem setHtype_port (h : BitVec 2) : (s.setHtype h).port = s.port := rfl
@[simp] theorem setHtype_replies (h : BitVec 2) : (s.setHtype h).replies = s.replies := rfl

@[simp] theorem setReport_gotv (e : BitVec 4) (a b : Word) : (s.setReport e a b).gotv = s.gotv := rfl
@[simp] theorem setReport_htype (e : BitVec 4) (a b : Word) : (s.setReport e a b).htype = s.htype := rfl
@[simp] theorem setReport_err (e : BitVec 4) (a b : Word) : (s.setReport e a b).err = e := rfl
@[simp] theorem setReport_infoA (e : BitVec 4) (a b : Word) : (s.setReport e a b).infoA = a := rfl
@[simp] theorem setReport_infoB (e : BitVec 4) (a b : Word) : (s.setReport e a b).infoB = b := rfl
@[simp] theorem setReport_len (e : BitVec 4) (a b : Word) : (s.setReport e a b).len = s.len := rfl
@[simp] theorem setReport_acc (e : BitVec 4) (a b : Word) : (s.setReport e a b).acc = s.acc := rfl
@[simp] theorem setReport_plen (e : BitVec 4) (a b : Word) : (s.setReport e a b).plen = s.plen := rfl
@[simp] theorem setReport_ttype (e : BitVec 4) (a b : Word) : (s.setReport e a b).ttype = s.ttype := rfl
@[simp] theorem setReport_compP (e : BitVec 4) (a b : Word) : (s.setReport e a b).compP = s.compP := rfl
@[simp] theorem setReport_compVal (e : BitVec 4) (a b : Word) : (s.setReport e a b).compVal = s.compVal := rfl
@[simp] theorem setReport_cmdlen (e : BitVec 4) (a b : Word) : (s.setReport e a b).cmdlen = s.cmdlen := rfl
@[simp] theorem setReport_count (e : BitVec 4) (a b : Word) : (s.setReport e a b).count = s.count := rfl
@[simp] theorem setReport_fb (e : BitVec 4) (a b : Word) : (s.setReport e a b).fb = s.fb := rfl
@[simp] theorem setReport_rt (e : BitVec 4) (a b : Word) : (s.setReport e a b).rt = s.rt := rfl
@[simp] theorem setReport_resets (e : BitVec 4) (a b : Word) : (s.setReport e a b).resets = s.resets := rfl
@[simp] theorem setReport_port (e : BitVec 4) (a b : Word) : (s.setReport e a b).port = s.port := rfl
@[simp] theorem setReport_replies (e : BitVec 4) (a b : Word) : (s.setReport e a b).replies = s.replies := rfl

@[simp] theorem setLen_gotv (n : Index) : (s.setLen n).gotv = s.gotv := rfl
@[simp] theorem setLen_htype (n : Index) : (s.setLen n).htype = s.htype := rfl
@[simp] theorem setLen_err (n : Index) : (s.setLen n).err = s.err := rfl
@[simp] theorem setLen_infoA (n : Index) : (s.setLen n).infoA = s.infoA := rfl
@[simp] theorem setLen_infoB (n : Index) : (s.setLen n).infoB = s.infoB := rfl
@[simp] theorem setLen_len (n : Index) : (s.setLen n).len = n := rfl
@[simp] theorem setLen_acc (n : Index) : (s.setLen n).acc = s.acc := rfl
@[simp] theorem setLen_plen (n : Index) : (s.setLen n).plen = s.plen := rfl
@[simp] theorem setLen_ttype (n : Index) : (s.setLen n).ttype = s.ttype := rfl
@[simp] theorem setLen_compP (n : Index) : (s.setLen n).compP = s.compP := rfl
@[simp] theorem setLen_compVal (n : Index) : (s.setLen n).compVal = s.compVal := rfl
@[simp] theorem setLen_cmdlen (n : Index) : (s.setLen n).cmdlen = s.cmdlen := rfl
@[simp] theorem setLen_count (n : Index) : (s.setLen n).count = s.count := rfl
@[simp] theorem setLen_fb (n : Index) : (s.setLen n).fb = s.fb := rfl
@[simp] theorem setLen_rt (n : Index) : (s.setLen n).rt = s.rt := rfl
@[simp] theorem setLen_resets (n : Index) : (s.setLen n).resets = s.resets := rfl
@[simp] theorem setLen_port (n : Index) : (s.setLen n).port = s.port := rfl
@[simp] theorem setLen_replies (n : Index) : (s.setLen n).replies = s.replies := rfl

@[simp] theorem setAcc_gotv (c : Byte) : (s.setAcc c).gotv = s.gotv := rfl
@[simp] theorem setAcc_htype (c : Byte) : (s.setAcc c).htype = s.htype := rfl
@[simp] theorem setAcc_err (c : Byte) : (s.setAcc c).err = s.err := rfl
@[simp] theorem setAcc_infoA (c : Byte) : (s.setAcc c).infoA = s.infoA := rfl
@[simp] theorem setAcc_infoB (c : Byte) : (s.setAcc c).infoB = s.infoB := rfl
@[simp] theorem setAcc_len (c : Byte) : (s.setAcc c).len = s.len := rfl
@[simp] theorem setAcc_acc (c : Byte) : (s.setAcc c).acc = c := rfl
@[simp] theorem setAcc_plen (c : Byte) : (s.setAcc c).plen = s.plen := rfl
@[simp] theorem setAcc_ttype (c : Byte) : (s.setAcc c).ttype = s.ttype := rfl
@[simp] theorem setAcc_compP (c : Byte) : (s.setAcc c).compP = s.compP := rfl
@[simp] theorem setAcc_compVal (c : Byte) : (s.setAcc c).compVal = s.compVal := rfl
@[simp] theorem setAcc_cmdlen (c : Byte) : (s.setAcc c).cmdlen = s.cmdlen := rfl
@[simp] theorem setAcc_count (c : Byte) : (s.setAcc c).count = s.count := rfl
@[simp] theorem setAcc_fb (c : Byte) : (s.setAcc c).fb = s.fb := rfl
@[simp] theorem setAcc_rt (c : Byte) : (s.setAcc c).rt = s.rt := rfl
@[simp] theorem setAcc_resets (c : Byte) : (s.setAcc c).resets = s.resets := rfl
@[simp] theorem setAcc_port (c : Byte) : (s.setAcc c).port = s.port := rfl
@[simp] theorem setAcc_replies (c : Byte) : (s.setAcc c).replies = s.replies := rfl

@[simp] theorem setPlen_gotv (n : Index) : (s.setPlen n).gotv = s.gotv := rfl
@[simp] theorem setPlen_htype (n : Index) : (s.setPlen n).htype = s.htype := rfl
@[simp] theorem setPlen_err (n : Index) : (s.setPlen n).err = s.err := rfl
@[simp] theorem setPlen_infoA (n : Index) : (s.setPlen n).infoA = s.infoA := rfl
@[simp] theorem setPlen_infoB (n : Index) : (s.setPlen n).infoB = s.infoB := rfl
@[simp] theorem setPlen_len (n : Index) : (s.setPlen n).len = s.len := rfl
@[simp] theorem setPlen_acc (n : Index) : (s.setPlen n).acc = s.acc := rfl
@[simp] theorem setPlen_plen (n : Index) : (s.setPlen n).plen = n := rfl
@[simp] theorem setPlen_ttype (n : Index) : (s.setPlen n).ttype = s.ttype := rfl
@[simp] theorem setPlen_compP (n : Index) : (s.setPlen n).compP = s.compP := rfl
@[simp] theorem setPlen_compVal (n : Index) : (s.setPlen n).compVal = s.compVal := rfl
@[simp] theorem setPlen_cmdlen (n : Index) : (s.setPlen n).cmdlen = s.cmdlen := rfl
@[simp] theorem setPlen_count (n : Index) : (s.setPlen n).count = s.count := rfl
@[simp] theorem setPlen_fb (n : Index) : (s.setPlen n).fb = s.fb := rfl
@[simp] theorem setPlen_rt (n : Index) : (s.setPlen n).rt = s.rt := rfl
@[simp] theorem setPlen_resets (n : Index) : (s.setPlen n).resets = s.resets := rfl
@[simp] theorem setPlen_port (n : Index) : (s.setPlen n).port = s.port := rfl
@[simp] theorem setPlen_replies (n : Index) : (s.setPlen n).replies = s.replies := rfl

@[simp] theorem setTtype_gotv (t : BitVec 2) : (s.setTtype t).gotv = s.gotv := rfl
@[simp] theorem setTtype_htype (t : BitVec 2) : (s.setTtype t).htype = s.htype := rfl
@[simp] theorem setTtype_err (t : BitVec 2) : (s.setTtype t).err = s.err := rfl
@[simp] theorem setTtype_infoA (t : BitVec 2) : (s.setTtype t).infoA = s.infoA := rfl
@[simp] theorem setTtype_infoB (t : BitVec 2) : (s.setTtype t).infoB = s.infoB := rfl
@[simp] theorem setTtype_len (t : BitVec 2) : (s.setTtype t).len = s.len := rfl
@[simp] theorem setTtype_acc (t : BitVec 2) : (s.setTtype t).acc = s.acc := rfl
@[simp] theorem setTtype_plen (t : BitVec 2) : (s.setTtype t).plen = s.plen := rfl
@[simp] theorem setTtype_ttype (t : BitVec 2) : (s.setTtype t).ttype = t := rfl
@[simp] theorem setTtype_compP (t : BitVec 2) : (s.setTtype t).compP = s.compP := rfl
@[simp] theorem setTtype_compVal (t : BitVec 2) : (s.setTtype t).compVal = s.compVal := rfl
@[simp] theorem setTtype_cmdlen (t : BitVec 2) : (s.setTtype t).cmdlen = s.cmdlen := rfl
@[simp] theorem setTtype_count (t : BitVec 2) : (s.setTtype t).count = s.count := rfl
@[simp] theorem setTtype_fb (t : BitVec 2) : (s.setTtype t).fb = s.fb := rfl
@[simp] theorem setTtype_rt (t : BitVec 2) : (s.setTtype t).rt = s.rt := rfl
@[simp] theorem setTtype_resets (t : BitVec 2) : (s.setTtype t).resets = s.resets := rfl
@[simp] theorem setTtype_port (t : BitVec 2) : (s.setTtype t).port = s.port := rfl
@[simp] theorem setTtype_replies (t : BitVec 2) : (s.setTtype t).replies = s.replies := rfl

@[simp] theorem setComp_gotv (p : Bool) (v : BitVec 10) : (s.setComp p v).gotv = s.gotv := rfl
@[simp] theorem setComp_htype (p : Bool) (v : BitVec 10) : (s.setComp p v).htype = s.htype := rfl
@[simp] theorem setComp_err (p : Bool) (v : BitVec 10) : (s.setComp p v).err = s.err := rfl
@[simp] theorem setComp_infoA (p : Bool) (v : BitVec 10) : (s.setComp p v).infoA = s.infoA := rfl
@[simp] theorem setComp_infoB (p : Bool) (v : BitVec 10) : (s.setComp p v).infoB = s.infoB := rfl
@[simp] theorem setComp_len (p : Bool) (v : BitVec 10) : (s.setComp p v).len = s.len := rfl
@[simp] theorem setComp_acc (p : Bool) (v : BitVec 10) : (s.setComp p v).acc = s.acc := rfl
@[simp] theorem setComp_plen (p : Bool) (v : BitVec 10) : (s.setComp p v).plen = s.plen := rfl
@[simp] theorem setComp_ttype (p : Bool) (v : BitVec 10) : (s.setComp p v).ttype = s.ttype := rfl
@[simp] theorem setComp_compP (p : Bool) (v : BitVec 10) : (s.setComp p v).compP = p := rfl
@[simp] theorem setComp_compVal (p : Bool) (v : BitVec 10) : (s.setComp p v).compVal = v := rfl
@[simp] theorem setComp_cmdlen (p : Bool) (v : BitVec 10) : (s.setComp p v).cmdlen = s.cmdlen := rfl
@[simp] theorem setComp_count (p : Bool) (v : BitVec 10) : (s.setComp p v).count = s.count := rfl
@[simp] theorem setComp_fb (p : Bool) (v : BitVec 10) : (s.setComp p v).fb = s.fb := rfl
@[simp] theorem setComp_rt (p : Bool) (v : BitVec 10) : (s.setComp p v).rt = s.rt := rfl
@[simp] theorem setComp_resets (p : Bool) (v : BitVec 10) : (s.setComp p v).resets = s.resets := rfl
@[simp] theorem setComp_port (p : Bool) (v : BitVec 10) : (s.setComp p v).port = s.port := rfl
@[simp] theorem setComp_replies (p : Bool) (v : BitVec 10) : (s.setComp p v).replies = s.replies := rfl

@[simp] theorem setCmdlen_gotv (n : Index) : (s.setCmdlen n).gotv = s.gotv := rfl
@[simp] theorem setCmdlen_htype (n : Index) : (s.setCmdlen n).htype = s.htype := rfl
@[simp] theorem setCmdlen_err (n : Index) : (s.setCmdlen n).err = s.err := rfl
@[simp] theorem setCmdlen_infoA (n : Index) : (s.setCmdlen n).infoA = s.infoA := rfl
@[simp] theorem setCmdlen_infoB (n : Index) : (s.setCmdlen n).infoB = s.infoB := rfl
@[simp] theorem setCmdlen_len (n : Index) : (s.setCmdlen n).len = s.len := rfl
@[simp] theorem setCmdlen_acc (n : Index) : (s.setCmdlen n).acc = s.acc := rfl
@[simp] theorem setCmdlen_plen (n : Index) : (s.setCmdlen n).plen = s.plen := rfl
@[simp] theorem setCmdlen_ttype (n : Index) : (s.setCmdlen n).ttype = s.ttype := rfl
@[simp] theorem setCmdlen_compP (n : Index) : (s.setCmdlen n).compP = s.compP := rfl
@[simp] theorem setCmdlen_compVal (n : Index) : (s.setCmdlen n).compVal = s.compVal := rfl
@[simp] theorem setCmdlen_cmdlen (n : Index) : (s.setCmdlen n).cmdlen = n := rfl
@[simp] theorem setCmdlen_count (n : Index) : (s.setCmdlen n).count = s.count := rfl
@[simp] theorem setCmdlen_fb (n : Index) : (s.setCmdlen n).fb = s.fb := rfl
@[simp] theorem setCmdlen_rt (n : Index) : (s.setCmdlen n).rt = s.rt := rfl
@[simp] theorem setCmdlen_resets (n : Index) : (s.setCmdlen n).resets = s.resets := rfl
@[simp] theorem setCmdlen_port (n : Index) : (s.setCmdlen n).port = s.port := rfl
@[simp] theorem setCmdlen_replies (n : Index) : (s.setCmdlen n).replies = s.replies := rfl

@[simp] theorem setCount_gotv (n : BitVec 7) : (s.setCount n).gotv = s.gotv := rfl
@[simp] theorem setCount_htype (n : BitVec 7) : (s.setCount n).htype = s.htype := rfl
@[simp] theorem setCount_err (n : BitVec 7) : (s.setCount n).err = s.err := rfl
@[simp] theorem setCount_infoA (n : BitVec 7) : (s.setCount n).infoA = s.infoA := rfl
@[simp] theorem setCount_infoB (n : BitVec 7) : (s.setCount n).infoB = s.infoB := rfl
@[simp] theorem setCount_len (n : BitVec 7) : (s.setCount n).len = s.len := rfl
@[simp] theorem setCount_acc (n : BitVec 7) : (s.setCount n).acc = s.acc := rfl
@[simp] theorem setCount_plen (n : BitVec 7) : (s.setCount n).plen = s.plen := rfl
@[simp] theorem setCount_ttype (n : BitVec 7) : (s.setCount n).ttype = s.ttype := rfl
@[simp] theorem setCount_compP (n : BitVec 7) : (s.setCount n).compP = s.compP := rfl
@[simp] theorem setCount_compVal (n : BitVec 7) : (s.setCount n).compVal = s.compVal := rfl
@[simp] theorem setCount_cmdlen (n : BitVec 7) : (s.setCount n).cmdlen = s.cmdlen := rfl
@[simp] theorem setCount_count (n : BitVec 7) : (s.setCount n).count = n := rfl
@[simp] theorem setCount_fb (n : BitVec 7) : (s.setCount n).fb = s.fb := rfl
@[simp] theorem setCount_rt (n : BitVec 7) : (s.setCount n).rt = s.rt := rfl
@[simp] theorem setCount_resets (n : BitVec 7) : (s.setCount n).resets = s.resets := rfl
@[simp] theorem setCount_port (n : BitVec 7) : (s.setCount n).port = s.port := rfl
@[simp] theorem setCount_replies (n : BitVec 7) : (s.setCount n).replies = s.replies := rfl

@[simp] theorem setFb_gotv (m : Memory) : (s.setFb m).gotv = s.gotv := rfl
@[simp] theorem setFb_htype (m : Memory) : (s.setFb m).htype = s.htype := rfl
@[simp] theorem setFb_err (m : Memory) : (s.setFb m).err = s.err := rfl
@[simp] theorem setFb_infoA (m : Memory) : (s.setFb m).infoA = s.infoA := rfl
@[simp] theorem setFb_infoB (m : Memory) : (s.setFb m).infoB = s.infoB := rfl
@[simp] theorem setFb_len (m : Memory) : (s.setFb m).len = s.len := rfl
@[simp] theorem setFb_acc (m : Memory) : (s.setFb m).acc = s.acc := rfl
@[simp] theorem setFb_plen (m : Memory) : (s.setFb m).plen = s.plen := rfl
@[simp] theorem setFb_ttype (m : Memory) : (s.setFb m).ttype = s.ttype := rfl
@[simp] theorem setFb_compP (m : Memory) : (s.setFb m).compP = s.compP := rfl
@[simp] theorem setFb_compVal (m : Memory) : (s.setFb m).compVal = s.compVal := rfl
@[simp] theorem setFb_cmdlen (m : Memory) : (s.setFb m).cmdlen = s.cmdlen := rfl
@[simp] theorem setFb_count (m : Memory) : (s.setFb m).count = s.count := rfl
@[simp] theorem setFb_fb (m : Memory) : (s.setFb m).fb = m := rfl
@[simp] theorem setFb_rt (m : Memory) : (s.setFb m).rt = s.rt := rfl
@[simp] theorem setFb_resets (m : Memory) : (s.setFb m).resets = s.resets := rfl
@[simp] theorem setFb_port (m : Memory) : (s.setFb m).port = s.port := rfl
@[simp] theorem setFb_replies (m : Memory) : (s.setFb m).replies = s.replies := rfl

@[simp] theorem setRt_gotv (m : Table) : (s.setRt m).gotv = s.gotv := rfl
@[simp] theorem setRt_htype (m : Table) : (s.setRt m).htype = s.htype := rfl
@[simp] theorem setRt_err (m : Table) : (s.setRt m).err = s.err := rfl
@[simp] theorem setRt_infoA (m : Table) : (s.setRt m).infoA = s.infoA := rfl
@[simp] theorem setRt_infoB (m : Table) : (s.setRt m).infoB = s.infoB := rfl
@[simp] theorem setRt_len (m : Table) : (s.setRt m).len = s.len := rfl
@[simp] theorem setRt_acc (m : Table) : (s.setRt m).acc = s.acc := rfl
@[simp] theorem setRt_plen (m : Table) : (s.setRt m).plen = s.plen := rfl
@[simp] theorem setRt_ttype (m : Table) : (s.setRt m).ttype = s.ttype := rfl
@[simp] theorem setRt_compP (m : Table) : (s.setRt m).compP = s.compP := rfl
@[simp] theorem setRt_compVal (m : Table) : (s.setRt m).compVal = s.compVal := rfl
@[simp] theorem setRt_cmdlen (m : Table) : (s.setRt m).cmdlen = s.cmdlen := rfl
@[simp] theorem setRt_count (m : Table) : (s.setRt m).count = s.count := rfl
@[simp] theorem setRt_fb (m : Table) : (s.setRt m).fb = s.fb := rfl
@[simp] theorem setRt_rt (m : Table) : (s.setRt m).rt = m := rfl
@[simp] theorem setRt_resets (m : Table) : (s.setRt m).resets = s.resets := rfl
@[simp] theorem setRt_port (m : Table) : (s.setRt m).port = s.port := rfl
@[simp] theorem setRt_replies (m : Table) : (s.setRt m).replies = s.replies := rfl

@[simp] theorem setPort_gotv (p : List HostOp) : (s.setPort p).gotv = s.gotv := rfl
@[simp] theorem setPort_htype (p : List HostOp) : (s.setPort p).htype = s.htype := rfl
@[simp] theorem setPort_err (p : List HostOp) : (s.setPort p).err = s.err := rfl
@[simp] theorem setPort_infoA (p : List HostOp) : (s.setPort p).infoA = s.infoA := rfl
@[simp] theorem setPort_infoB (p : List HostOp) : (s.setPort p).infoB = s.infoB := rfl
@[simp] theorem setPort_len (p : List HostOp) : (s.setPort p).len = s.len := rfl
@[simp] theorem setPort_acc (p : List HostOp) : (s.setPort p).acc = s.acc := rfl
@[simp] theorem setPort_plen (p : List HostOp) : (s.setPort p).plen = s.plen := rfl
@[simp] theorem setPort_ttype (p : List HostOp) : (s.setPort p).ttype = s.ttype := rfl
@[simp] theorem setPort_compP (p : List HostOp) : (s.setPort p).compP = s.compP := rfl
@[simp] theorem setPort_compVal (p : List HostOp) : (s.setPort p).compVal = s.compVal := rfl
@[simp] theorem setPort_cmdlen (p : List HostOp) : (s.setPort p).cmdlen = s.cmdlen := rfl
@[simp] theorem setPort_count (p : List HostOp) : (s.setPort p).count = s.count := rfl
@[simp] theorem setPort_fb (p : List HostOp) : (s.setPort p).fb = s.fb := rfl
@[simp] theorem setPort_rt (p : List HostOp) : (s.setPort p).rt = s.rt := rfl
@[simp] theorem setPort_resets (p : List HostOp) : (s.setPort p).resets = s.resets := rfl
@[simp] theorem setPort_port (p : List HostOp) : (s.setPort p).port = p := rfl
@[simp] theorem setPort_replies (p : List HostOp) : (s.setPort p).replies = s.replies := rfl

@[simp] theorem reply_gotv (v : HostValue) : (s.reply v).gotv = s.gotv := rfl
@[simp] theorem reply_htype (v : HostValue) : (s.reply v).htype = s.htype := rfl
@[simp] theorem reply_err (v : HostValue) : (s.reply v).err = s.err := rfl
@[simp] theorem reply_infoA (v : HostValue) : (s.reply v).infoA = s.infoA := rfl
@[simp] theorem reply_infoB (v : HostValue) : (s.reply v).infoB = s.infoB := rfl
@[simp] theorem reply_len (v : HostValue) : (s.reply v).len = s.len := rfl
@[simp] theorem reply_acc (v : HostValue) : (s.reply v).acc = s.acc := rfl
@[simp] theorem reply_plen (v : HostValue) : (s.reply v).plen = s.plen := rfl
@[simp] theorem reply_ttype (v : HostValue) : (s.reply v).ttype = s.ttype := rfl
@[simp] theorem reply_compP (v : HostValue) : (s.reply v).compP = s.compP := rfl
@[simp] theorem reply_compVal (v : HostValue) : (s.reply v).compVal = s.compVal := rfl
@[simp] theorem reply_cmdlen (v : HostValue) : (s.reply v).cmdlen = s.cmdlen := rfl
@[simp] theorem reply_count (v : HostValue) : (s.reply v).count = s.count := rfl
@[simp] theorem reply_fb (v : HostValue) : (s.reply v).fb = s.fb := rfl
@[simp] theorem reply_rt (v : HostValue) : (s.reply v).rt = s.rt := rfl
@[simp] theorem reply_resets (v : HostValue) : (s.reply v).resets = s.resets := rfl
@[simp] theorem reply_port (v : HostValue) : (s.reply v).port = s.port := rfl
@[simp] theorem reply_replies (v : HostValue) : (s.reply v).replies = s.replies ++ [v] := rfl

@[simp] theorem clearRecord_gotv : (s.clearRecord).gotv = s.gotv := rfl
@[simp] theorem clearRecord_htype : (s.clearRecord).htype = s.htype := rfl
@[simp] theorem clearRecord_err : (s.clearRecord).err = s.err := rfl
@[simp] theorem clearRecord_infoA : (s.clearRecord).infoA = s.infoA := rfl
@[simp] theorem clearRecord_infoB : (s.clearRecord).infoB = s.infoB := rfl
@[simp] theorem clearRecord_len : (s.clearRecord).len = s.len := rfl
@[simp] theorem clearRecord_acc : (s.clearRecord).acc = s.acc := rfl
@[simp] theorem clearRecord_plen : (s.clearRecord).plen = s.plen := rfl
@[simp] theorem clearRecord_ttype : (s.clearRecord).ttype = 0 := rfl
@[simp] theorem clearRecord_compP : (s.clearRecord).compP = false := rfl
@[simp] theorem clearRecord_compVal : (s.clearRecord).compVal = 0 := rfl
@[simp] theorem clearRecord_cmdlen : (s.clearRecord).cmdlen = 0 := rfl
@[simp] theorem clearRecord_count : (s.clearRecord).count = 0 := rfl
@[simp] theorem clearRecord_fb : (s.clearRecord).fb = s.fb := rfl
@[simp] theorem clearRecord_rt : (s.clearRecord).rt = s.rt := rfl
@[simp] theorem clearRecord_resets : (s.clearRecord).resets = s.resets := rfl
@[simp] theorem clearRecord_port : (s.clearRecord).port = s.port := rfl
@[simp] theorem clearRecord_replies : (s.clearRecord).replies = s.replies := rfl

@[simp] theorem fbSet_gotv (k : Nat) (b : Byte) : (s.fbSet k b).gotv = s.gotv := rfl
@[simp] theorem fbSet_htype (k : Nat) (b : Byte) : (s.fbSet k b).htype = s.htype := rfl
@[simp] theorem fbSet_err (k : Nat) (b : Byte) : (s.fbSet k b).err = s.err := rfl
@[simp] theorem fbSet_infoA (k : Nat) (b : Byte) : (s.fbSet k b).infoA = s.infoA := rfl
@[simp] theorem fbSet_infoB (k : Nat) (b : Byte) : (s.fbSet k b).infoB = s.infoB := rfl
@[simp] theorem fbSet_len (k : Nat) (b : Byte) : (s.fbSet k b).len = s.len := rfl
@[simp] theorem fbSet_acc (k : Nat) (b : Byte) : (s.fbSet k b).acc = s.acc := rfl
@[simp] theorem fbSet_plen (k : Nat) (b : Byte) : (s.fbSet k b).plen = s.plen := rfl
@[simp] theorem fbSet_ttype (k : Nat) (b : Byte) : (s.fbSet k b).ttype = s.ttype := rfl
@[simp] theorem fbSet_compP (k : Nat) (b : Byte) : (s.fbSet k b).compP = s.compP := rfl
@[simp] theorem fbSet_compVal (k : Nat) (b : Byte) : (s.fbSet k b).compVal = s.compVal := rfl
@[simp] theorem fbSet_cmdlen (k : Nat) (b : Byte) : (s.fbSet k b).cmdlen = s.cmdlen := rfl
@[simp] theorem fbSet_count (k : Nat) (b : Byte) : (s.fbSet k b).count = s.count := rfl
@[simp] theorem fbSet_fb (k : Nat) (b : Byte) : (s.fbSet k b).fb = Store.put s.fb k b := rfl
@[simp] theorem fbSet_rt (k : Nat) (b : Byte) : (s.fbSet k b).rt = s.rt := rfl
@[simp] theorem fbSet_resets (k : Nat) (b : Byte) : (s.fbSet k b).resets = s.resets := rfl
@[simp] theorem fbSet_port (k : Nat) (b : Byte) : (s.fbSet k b).port = s.port := rfl
@[simp] theorem fbSet_replies (k : Nat) (b : Byte) : (s.fbSet k b).replies = s.replies := rfl

@[simp] theorem rtSet_gotv (i : Nat) (f : RtField) (v : Word) : (s.rtSet i f v).gotv = s.gotv := rfl
@[simp] theorem rtSet_htype (i : Nat) (f : RtField) (v : Word) : (s.rtSet i f v).htype = s.htype := rfl
@[simp] theorem rtSet_err (i : Nat) (f : RtField) (v : Word) : (s.rtSet i f v).err = s.err := rfl
@[simp] theorem rtSet_infoA (i : Nat) (f : RtField) (v : Word) : (s.rtSet i f v).infoA = s.infoA := rfl
@[simp] theorem rtSet_infoB (i : Nat) (f : RtField) (v : Word) : (s.rtSet i f v).infoB = s.infoB := rfl
@[simp] theorem rtSet_len (i : Nat) (f : RtField) (v : Word) : (s.rtSet i f v).len = s.len := rfl
@[simp] theorem rtSet_acc (i : Nat) (f : RtField) (v : Word) : (s.rtSet i f v).acc = s.acc := rfl
@[simp] theorem rtSet_plen (i : Nat) (f : RtField) (v : Word) : (s.rtSet i f v).plen = s.plen := rfl
@[simp] theorem rtSet_ttype (i : Nat) (f : RtField) (v : Word) : (s.rtSet i f v).ttype = s.ttype := rfl
@[simp] theorem rtSet_compP (i : Nat) (f : RtField) (v : Word) : (s.rtSet i f v).compP = s.compP := rfl
@[simp] theorem rtSet_compVal (i : Nat) (f : RtField) (v : Word) : (s.rtSet i f v).compVal = s.compVal := rfl
@[simp] theorem rtSet_cmdlen (i : Nat) (f : RtField) (v : Word) : (s.rtSet i f v).cmdlen = s.cmdlen := rfl
@[simp] theorem rtSet_count (i : Nat) (f : RtField) (v : Word) : (s.rtSet i f v).count = s.count := rfl
@[simp] theorem rtSet_fb (i : Nat) (f : RtField) (v : Word) : (s.rtSet i f v).fb = s.fb := rfl
@[simp] theorem rtSet_rt (i : Nat) (f : RtField) (v : Word) : (s.rtSet i f v).rt = s.rt.putField i f v := rfl
@[simp] theorem rtSet_resets (i : Nat) (f : RtField) (v : Word) : (s.rtSet i f v).resets = s.resets := rfl
@[simp] theorem rtSet_port (i : Nat) (f : RtField) (v : Word) : (s.rtSet i f v).port = s.port := rfl
@[simp] theorem rtSet_replies (i : Nat) (f : RtField) (v : Word) : (s.rtSet i f v).replies = s.replies := rfl

@[simp] theorem storeBytes_gotv (k : Nat) (bs : List Byte) : (s.storeBytes k bs).gotv = s.gotv := rfl
@[simp] theorem storeBytes_htype (k : Nat) (bs : List Byte) : (s.storeBytes k bs).htype = s.htype := rfl
@[simp] theorem storeBytes_err (k : Nat) (bs : List Byte) : (s.storeBytes k bs).err = s.err := rfl
@[simp] theorem storeBytes_infoA (k : Nat) (bs : List Byte) : (s.storeBytes k bs).infoA = s.infoA := rfl
@[simp] theorem storeBytes_infoB (k : Nat) (bs : List Byte) : (s.storeBytes k bs).infoB = s.infoB := rfl
@[simp] theorem storeBytes_len (k : Nat) (bs : List Byte) : (s.storeBytes k bs).len = s.len := rfl
@[simp] theorem storeBytes_acc (k : Nat) (bs : List Byte) : (s.storeBytes k bs).acc = s.acc := rfl
@[simp] theorem storeBytes_plen (k : Nat) (bs : List Byte) : (s.storeBytes k bs).plen = s.plen := rfl
@[simp] theorem storeBytes_ttype (k : Nat) (bs : List Byte) : (s.storeBytes k bs).ttype = s.ttype := rfl
@[simp] theorem storeBytes_compP (k : Nat) (bs : List Byte) : (s.storeBytes k bs).compP = s.compP := rfl
@[simp] theorem storeBytes_compVal (k : Nat) (bs : List Byte) : (s.storeBytes k bs).compVal = s.compVal := rfl
@[simp] theorem storeBytes_cmdlen (k : Nat) (bs : List Byte) : (s.storeBytes k bs).cmdlen = s.cmdlen := rfl
@[simp] theorem storeBytes_count (k : Nat) (bs : List Byte) : (s.storeBytes k bs).count = s.count := rfl
@[simp] theorem storeBytes_fb (k : Nat) (bs : List Byte) : (s.storeBytes k bs).fb = s.fb.putBytes k bs := rfl
@[simp] theorem storeBytes_rt (k : Nat) (bs : List Byte) : (s.storeBytes k bs).rt = s.rt := rfl
@[simp] theorem storeBytes_resets (k : Nat) (bs : List Byte) : (s.storeBytes k bs).resets = s.resets := rfl
@[simp] theorem storeBytes_port (k : Nat) (bs : List Byte) : (s.storeBytes k bs).port = s.port := rfl
@[simp] theorem storeBytes_replies (k : Nat) (bs : List Byte) : (s.storeBytes k bs).replies = s.replies := rfl

@[simp] theorem rtStore_gotv (i : Nat) (es : List Reading) : (s.rtStore i es).gotv = s.gotv := rfl
@[simp] theorem rtStore_htype (i : Nat) (es : List Reading) : (s.rtStore i es).htype = s.htype := rfl
@[simp] theorem rtStore_err (i : Nat) (es : List Reading) : (s.rtStore i es).err = s.err := rfl
@[simp] theorem rtStore_infoA (i : Nat) (es : List Reading) : (s.rtStore i es).infoA = s.infoA := rfl
@[simp] theorem rtStore_infoB (i : Nat) (es : List Reading) : (s.rtStore i es).infoB = s.infoB := rfl
@[simp] theorem rtStore_len (i : Nat) (es : List Reading) : (s.rtStore i es).len = s.len := rfl
@[simp] theorem rtStore_acc (i : Nat) (es : List Reading) : (s.rtStore i es).acc = s.acc := rfl
@[simp] theorem rtStore_plen (i : Nat) (es : List Reading) : (s.rtStore i es).plen = s.plen := rfl
@[simp] theorem rtStore_ttype (i : Nat) (es : List Reading) : (s.rtStore i es).ttype = s.ttype := rfl
@[simp] theorem rtStore_compP (i : Nat) (es : List Reading) : (s.rtStore i es).compP = s.compP := rfl
@[simp] theorem rtStore_compVal (i : Nat) (es : List Reading) : (s.rtStore i es).compVal = s.compVal := rfl
@[simp] theorem rtStore_cmdlen (i : Nat) (es : List Reading) : (s.rtStore i es).cmdlen = s.cmdlen := rfl
@[simp] theorem rtStore_count (i : Nat) (es : List Reading) : (s.rtStore i es).count = s.count := rfl
@[simp] theorem rtStore_fb (i : Nat) (es : List Reading) : (s.rtStore i es).fb = s.fb := rfl
@[simp] theorem rtStore_rt (i : Nat) (es : List Reading) : (s.rtStore i es).rt = s.rt.putReadings i es := rfl
@[simp] theorem rtStore_resets (i : Nat) (es : List Reading) : (s.rtStore i es).resets = s.resets := rfl
@[simp] theorem rtStore_port (i : Nat) (es : List Reading) : (s.rtStore i es).port = s.port := rfl
@[simp] theorem rtStore_replies (i : Nat) (es : List Reading) : (s.rtStore i es).replies = s.replies := rfl

@[simp] theorem fail_gotv (f : Failure) : (s.fail f).gotv = s.gotv := rfl
@[simp] theorem fail_htype (f : Failure) : (s.fail f).htype = s.htype := rfl
@[simp] theorem fail_err (f : Failure) : (s.fail f).err = f.code.number := rfl
@[simp] theorem fail_infoA (f : Failure) : (s.fail f).infoA = f.infoA := rfl
@[simp] theorem fail_infoB (f : Failure) : (s.fail f).infoB = f.infoB := rfl
@[simp] theorem fail_len (f : Failure) : (s.fail f).len = s.len := rfl
@[simp] theorem fail_acc (f : Failure) : (s.fail f).acc = s.acc := rfl
@[simp] theorem fail_plen (f : Failure) : (s.fail f).plen = s.plen := rfl
@[simp] theorem fail_ttype (f : Failure) : (s.fail f).ttype = s.ttype := rfl
@[simp] theorem fail_compP (f : Failure) : (s.fail f).compP = s.compP := rfl
@[simp] theorem fail_compVal (f : Failure) : (s.fail f).compVal = s.compVal := rfl
@[simp] theorem fail_cmdlen (f : Failure) : (s.fail f).cmdlen = s.cmdlen := rfl
@[simp] theorem fail_count (f : Failure) : (s.fail f).count = s.count := rfl
@[simp] theorem fail_fb (f : Failure) : (s.fail f).fb = s.fb := rfl
@[simp] theorem fail_rt (f : Failure) : (s.fail f).rt = s.rt := rfl
@[simp] theorem fail_resets (f : Failure) : (s.fail f).resets = s.resets := rfl
@[simp] theorem fail_port (f : Failure) : (s.fail f).port = s.port := rfl
@[simp] theorem fail_replies (f : Failure) : (s.fail f).replies = s.replies := rfl

@[simp] theorem succeed_gotv : (s.succeed).gotv = s.gotv := rfl
@[simp] theorem succeed_htype : (s.succeed).htype = s.htype := rfl
@[simp] theorem succeed_err : (s.succeed).err = 0 := rfl
@[simp] theorem succeed_infoA : (s.succeed).infoA = 0 := rfl
@[simp] theorem succeed_infoB : (s.succeed).infoB = 0 := rfl
@[simp] theorem succeed_len : (s.succeed).len = s.len := rfl
@[simp] theorem succeed_acc : (s.succeed).acc = s.acc := rfl
@[simp] theorem succeed_plen : (s.succeed).plen = s.plen := rfl
@[simp] theorem succeed_ttype : (s.succeed).ttype = s.ttype := rfl
@[simp] theorem succeed_compP : (s.succeed).compP = s.compP := rfl
@[simp] theorem succeed_compVal : (s.succeed).compVal = s.compVal := rfl
@[simp] theorem succeed_cmdlen : (s.succeed).cmdlen = s.cmdlen := rfl
@[simp] theorem succeed_count : (s.succeed).count = s.count := rfl
@[simp] theorem succeed_fb : (s.succeed).fb = s.fb := rfl
@[simp] theorem succeed_rt : (s.succeed).rt = s.rt := rfl
@[simp] theorem succeed_resets : (s.succeed).resets = s.resets := rfl
@[simp] theorem succeed_port : (s.succeed).port = s.port := rfl
@[simp] theorem succeed_replies : (s.succeed).replies = s.replies := rfl

@[simp] theorem setStatus_fbGet (g : Bool) (h : BitVec 2) (k' : Nat) :
    (s.setStatus g h).fbGet k' = s.fbGet k' := rfl
@[simp] theorem setGotv_fbGet (g : Bool) (k' : Nat) :
    (s.setGotv g).fbGet k' = s.fbGet k' := rfl
@[simp] theorem setHtype_fbGet (h : BitVec 2) (k' : Nat) :
    (s.setHtype h).fbGet k' = s.fbGet k' := rfl
@[simp] theorem setReport_fbGet (e : BitVec 4) (a b : Word) (k' : Nat) :
    (s.setReport e a b).fbGet k' = s.fbGet k' := rfl
@[simp] theorem setLen_fbGet (n : Index) (k' : Nat) :
    (s.setLen n).fbGet k' = s.fbGet k' := rfl
@[simp] theorem setAcc_fbGet (c : Byte) (k' : Nat) :
    (s.setAcc c).fbGet k' = s.fbGet k' := rfl
@[simp] theorem setPlen_fbGet (n : Index) (k' : Nat) :
    (s.setPlen n).fbGet k' = s.fbGet k' := rfl
@[simp] theorem setTtype_fbGet (t : BitVec 2) (k' : Nat) :
    (s.setTtype t).fbGet k' = s.fbGet k' := rfl
@[simp] theorem setComp_fbGet (p : Bool) (v : BitVec 10) (k' : Nat) :
    (s.setComp p v).fbGet k' = s.fbGet k' := rfl
@[simp] theorem setCmdlen_fbGet (n : Index) (k' : Nat) :
    (s.setCmdlen n).fbGet k' = s.fbGet k' := rfl
@[simp] theorem setCount_fbGet (n : BitVec 7) (k' : Nat) :
    (s.setCount n).fbGet k' = s.fbGet k' := rfl
@[simp] theorem setRt_fbGet (m : Table) (k' : Nat) :
    (s.setRt m).fbGet k' = s.fbGet k' := rfl
@[simp] theorem setPort_fbGet (p : List HostOp) (k' : Nat) :
    (s.setPort p).fbGet k' = s.fbGet k' := rfl
@[simp] theorem reply_fbGet (v : HostValue) (k' : Nat) :
    (s.reply v).fbGet k' = s.fbGet k' := rfl
@[simp] theorem clearRecord_fbGet (k' : Nat) :
    (s.clearRecord).fbGet k' = s.fbGet k' := rfl
@[simp] theorem rtSet_fbGet (i : Nat) (f : RtField) (v : Word) (k' : Nat) :
    (s.rtSet i f v).fbGet k' = s.fbGet k' := rfl
@[simp] theorem rtStore_fbGet (i : Nat) (es : List Reading) (k' : Nat) :
    (s.rtStore i es).fbGet k' = s.fbGet k' := rfl
@[simp] theorem fail_fbGet (f : Failure) (k' : Nat) :
    (s.fail f).fbGet k' = s.fbGet k' := rfl
@[simp] theorem succeed_fbGet (k' : Nat) :
    (s.succeed).fbGet k' = s.fbGet k' := rfl

@[simp] theorem setStatus_rtGet (g : Bool) (h : BitVec 2) (i' : Nat) (f' : RtField) :
    (s.setStatus g h).rtGet i' f' = s.rtGet i' f' := rfl
@[simp] theorem setGotv_rtGet (g : Bool) (i' : Nat) (f' : RtField) :
    (s.setGotv g).rtGet i' f' = s.rtGet i' f' := rfl
@[simp] theorem setHtype_rtGet (h : BitVec 2) (i' : Nat) (f' : RtField) :
    (s.setHtype h).rtGet i' f' = s.rtGet i' f' := rfl
@[simp] theorem setReport_rtGet (e : BitVec 4) (a b : Word) (i' : Nat) (f' : RtField) :
    (s.setReport e a b).rtGet i' f' = s.rtGet i' f' := rfl
@[simp] theorem setLen_rtGet (n : Index) (i' : Nat) (f' : RtField) :
    (s.setLen n).rtGet i' f' = s.rtGet i' f' := rfl
@[simp] theorem setAcc_rtGet (c : Byte) (i' : Nat) (f' : RtField) :
    (s.setAcc c).rtGet i' f' = s.rtGet i' f' := rfl
@[simp] theorem setPlen_rtGet (n : Index) (i' : Nat) (f' : RtField) :
    (s.setPlen n).rtGet i' f' = s.rtGet i' f' := rfl
@[simp] theorem setTtype_rtGet (t : BitVec 2) (i' : Nat) (f' : RtField) :
    (s.setTtype t).rtGet i' f' = s.rtGet i' f' := rfl
@[simp] theorem setComp_rtGet (p : Bool) (v : BitVec 10) (i' : Nat) (f' : RtField) :
    (s.setComp p v).rtGet i' f' = s.rtGet i' f' := rfl
@[simp] theorem setCmdlen_rtGet (n : Index) (i' : Nat) (f' : RtField) :
    (s.setCmdlen n).rtGet i' f' = s.rtGet i' f' := rfl
@[simp] theorem setCount_rtGet (n : BitVec 7) (i' : Nat) (f' : RtField) :
    (s.setCount n).rtGet i' f' = s.rtGet i' f' := rfl
@[simp] theorem setFb_rtGet (m : Memory) (i' : Nat) (f' : RtField) :
    (s.setFb m).rtGet i' f' = s.rtGet i' f' := rfl
@[simp] theorem setPort_rtGet (p : List HostOp) (i' : Nat) (f' : RtField) :
    (s.setPort p).rtGet i' f' = s.rtGet i' f' := rfl
@[simp] theorem reply_rtGet (v : HostValue) (i' : Nat) (f' : RtField) :
    (s.reply v).rtGet i' f' = s.rtGet i' f' := rfl
@[simp] theorem clearRecord_rtGet (i' : Nat) (f' : RtField) :
    (s.clearRecord).rtGet i' f' = s.rtGet i' f' := rfl
@[simp] theorem fbSet_rtGet (k : Nat) (b : Byte) (i' : Nat) (f' : RtField) :
    (s.fbSet k b).rtGet i' f' = s.rtGet i' f' := rfl
@[simp] theorem storeBytes_rtGet (k : Nat) (bs : List Byte) (i' : Nat) (f' : RtField) :
    (s.storeBytes k bs).rtGet i' f' = s.rtGet i' f' := rfl
@[simp] theorem fail_rtGet (f : Failure) (i' : Nat) (f' : RtField) :
    (s.fail f).rtGet i' f' = s.rtGet i' f' := rfl
@[simp] theorem succeed_rtGet (i' : Nat) (f' : RtField) :
    (s.succeed).rtGet i' f' = s.rtGet i' f' := rfl

@[simp] theorem setStatus_rtReading (g : Bool) (h : BitVec 2) (i' : Nat) :
    (s.setStatus g h).rtReading i' = s.rtReading i' := rfl
@[simp] theorem setGotv_rtReading (g : Bool) (i' : Nat) :
    (s.setGotv g).rtReading i' = s.rtReading i' := rfl
@[simp] theorem setHtype_rtReading (h : BitVec 2) (i' : Nat) :
    (s.setHtype h).rtReading i' = s.rtReading i' := rfl
@[simp] theorem setReport_rtReading (e : BitVec 4) (a b : Word) (i' : Nat) :
    (s.setReport e a b).rtReading i' = s.rtReading i' := rfl
@[simp] theorem setLen_rtReading (n : Index) (i' : Nat) :
    (s.setLen n).rtReading i' = s.rtReading i' := rfl
@[simp] theorem setAcc_rtReading (c : Byte) (i' : Nat) :
    (s.setAcc c).rtReading i' = s.rtReading i' := rfl
@[simp] theorem setPlen_rtReading (n : Index) (i' : Nat) :
    (s.setPlen n).rtReading i' = s.rtReading i' := rfl
@[simp] theorem setTtype_rtReading (t : BitVec 2) (i' : Nat) :
    (s.setTtype t).rtReading i' = s.rtReading i' := rfl
@[simp] theorem setComp_rtReading (p : Bool) (v : BitVec 10) (i' : Nat) :
    (s.setComp p v).rtReading i' = s.rtReading i' := rfl
@[simp] theorem setCmdlen_rtReading (n : Index) (i' : Nat) :
    (s.setCmdlen n).rtReading i' = s.rtReading i' := rfl
@[simp] theorem setCount_rtReading (n : BitVec 7) (i' : Nat) :
    (s.setCount n).rtReading i' = s.rtReading i' := rfl
@[simp] theorem setFb_rtReading (m : Memory) (i' : Nat) :
    (s.setFb m).rtReading i' = s.rtReading i' := rfl
@[simp] theorem setPort_rtReading (p : List HostOp) (i' : Nat) :
    (s.setPort p).rtReading i' = s.rtReading i' := rfl
@[simp] theorem reply_rtReading (v : HostValue) (i' : Nat) :
    (s.reply v).rtReading i' = s.rtReading i' := rfl
@[simp] theorem clearRecord_rtReading (i' : Nat) :
    (s.clearRecord).rtReading i' = s.rtReading i' := rfl
@[simp] theorem fbSet_rtReading (k : Nat) (b : Byte) (i' : Nat) :
    (s.fbSet k b).rtReading i' = s.rtReading i' := rfl
@[simp] theorem storeBytes_rtReading (k : Nat) (bs : List Byte) (i' : Nat) :
    (s.storeBytes k bs).rtReading i' = s.rtReading i' := rfl
@[simp] theorem fail_rtReading (f : Failure) (i' : Nat) :
    (s.fail f).rtReading i' = s.rtReading i' := rfl
@[simp] theorem succeed_rtReading (i' : Nat) :
    (s.succeed).rtReading i' = s.rtReading i' := rfl

end Sys2Proof.Machine.State
end

