-- ==== Sys2Proof/Laws/Store.lean ====
section
/-! SUPPORT. Lists of (address, value) pairs: reading after writing, and the canonical form. -/

namespace Sys2Proof.Machine

variable {α : Type}

/-- Reading an address after a write: the value written there, what was there before elsewhere. -/
theorem Store.find_put (m : List (Nat × α)) (k j : Nat) (v : α) :
    Store.find (Store.put m k v) j = if j = k then some v else Store.find m j := by
  induction m with
  | nil => simp [Store.put, Store.find]
  | cons c m ih =>
    obtain ⟨a, x⟩ := c
    unfold Store.put
    split
    · simp [Store.find]
    · split
      · next h => subst h; by_cases hj : j = k <;> simp [Store.find, hj]
      · next h =>
        by_cases hj : j = a
        · subst hj; simp [Store.find, Ne.symm h]
        · simp [Store.find, hj, ih]

theorem Store.risingFrom_mono {a b : Nat} (h : b ≤ a) {m : List (Nat × α)} (hm : Store.risingFrom a m = true) :
    Store.risingFrom b m = true := by
  cases m with
  | nil => rfl
  | cons c m =>
    simp only [Store.risingFrom, Bool.and_eq_true, decide_eq_true_eq] at hm ⊢
    exact ⟨by omega, hm.2⟩

/-- A write keeps the addresses rising. -/
theorem Store.risingFrom_put {a : Nat} {m : List (Nat × α)} (hm : Store.risingFrom a m = true) {k : Nat} (hk : a ≤ k)
    (v : α) : Store.risingFrom a (Store.put m k v) = true := by
  induction m generalizing a with
  | nil => simp [Store.put, Store.risingFrom, hk]
  | cons c m ih =>
    obtain ⟨b, x⟩ := c
    simp only [Store.risingFrom, Bool.and_eq_true, decide_eq_true_eq] at hm
    unfold Store.put
    split
    · simp only [Store.risingFrom, Bool.and_eq_true, decide_eq_true_eq]
      exact ⟨hk, by omega, hm.2⟩
    · split
      · next h => subst h; simp [Store.risingFrom, hk, hm.2]
      · simp only [Store.risingFrom, Bool.and_eq_true, decide_eq_true_eq]
        exact ⟨hm.1, ih hm.2 (by omega)⟩

/-- What holds of every listed entry still does after a write that satisfies it. -/
theorem Store.all_put {p : Nat × α → Bool} {m : List (Nat × α)} (hm : m.all p = true) {k : Nat} {v : α}
    (hv : p (k, v) = true) : (Store.put m k v).all p = true := by
  induction m with
  | nil => simp [Store.put, hv]
  | cons c m ih =>
    obtain ⟨a, x⟩ := c
    simp only [List.all_cons, Bool.and_eq_true] at hm
    unfold Store.put
    split
    · simp [hv, hm.1, hm.2]
    · split
      · simp [hv, hm.2]
      · simp [hm.1, ih hm.2]

/-- A value found is listed. -/
theorem Store.mem_of_find {m : List (Nat × α)} {k : Nat} {v : α} (h : Store.find m k = some v) : (k, v) ∈ m := by
  induction m with
  | nil => simp [Store.find] at h
  | cons c m ih =>
    obtain ⟨a, x⟩ := c
    unfold Store.find at h
    split at h
    · next hk => subst hk; simp_all
    · exact List.mem_cons_of_mem _ (ih h)

/-- A byte written in the buffer keeps the frame buffer's form. -/
theorem Memory.wf_put {m : Memory} (hm : m.wf = true) {k : Nat} (hk : k < Config.fbSize) (b : Byte) :
    Memory.wf (Store.put m k b) = true := by
  simp only [Memory.wf, Bool.and_eq_true] at hm ⊢
  exact ⟨Store.risingFrom_put hm.1 (Nat.zero_le _) b, Store.all_put hm.2 (by simpa using hk)⟩

/-- Bytes written inside the buffer keep the frame buffer's form. -/
theorem Memory.wf_putBytes {m : Memory} (hm : m.wf = true) {k : Nat} {bs : List Byte}
    (hk : k + bs.length ≤ Config.fbSize) : (m.putBytes k bs).wf = true := by
  induction bs generalizing m k with
  | nil => exact hm
  | cons b bs ih =>
    simp only [List.length_cons] at hk
    exact ih (Memory.wf_put hm (by omega) b) (by omega)

/-- Clipping to a field's width twice is clipping once. -/
@[simp] theorem RtField.clip_clip (f : RtField) (v : Word) : f.clip (f.clip v) = f.clip v := by
  cases f <;> simp [RtField.clip, RtField.width]

/-- The field of an address `8·i + f` is `f`. -/
@[simp] theorem rtFieldOf_rtAddress (i : Nat) (f : RtField) : rtFieldOf (rtAddress i f) = f := by
  cases f <;> simp [rtFieldOf, rtAddress, RtField.id, Nat.add_mod]

/-- RT addresses are distinct: one location per field of an entry (10_state.md R28). -/
theorem rtAddress_inj {i j : Nat} {f g : RtField} : rtAddress i f = rtAddress j g ↔ i = j ∧ f = g := by
  constructor
  · intro h
    have hf : f = g := by have := congrArg rtFieldOf h; simpa using this
    subst hf
    exact ⟨by simp only [rtAddress] at h; omega, rfl⟩
  · rintro ⟨rfl, rfl⟩; rfl

theorem RtField.id_lt (f : RtField) : f.id < 8 := by cases f <;> decide

/-- An RT address is its entry's number times 8, plus its field's number. -/
theorem rtAddress_div_mod (a : Nat) : rtAddress (a / 8) (rtFieldOf a) = a := by
  have h8 : a % 8 < 8 := Nat.mod_lt _ (by decide)
  have : (rtFieldOf a).id = a % 8 := by
    unfold rtFieldOf
    split <;> rename_i h <;> simp [RtField.id] at * <;> omega
  simp only [rtAddress, this]; omega

/-- A field written to an assigned entry keeps the reading table's form. -/
theorem Table.wf_putField {m : Table} (hm : m.wf = true) {i : Nat} (hi : i < Config.rtEntries) (f : RtField) (v : Word) :
    (m.putField i f v).wf = true := by
  simp only [Table.wf, Bool.and_eq_true] at hm ⊢
  refine ⟨Store.risingFrom_put hm.1 (Nat.zero_le _) _, Store.all_put hm.2 ?_⟩
  have hf := f.id_lt
  have ha : rtAddress i f < Config.rtSize := by simp only [Config.rtEntries, rtAddress, Config.rtSize] at *; omega
  simp [ha]

theorem Table.wf_foldl {fs : List RtField} {m : Table} (hm : m.wf = true) {i : Nat} (hi : i < Config.rtEntries)
    (d : RtField → Word) : Table.wf (fs.foldl (fun m f => Table.putField m i f (d f)) m) = true := by
  induction fs generalizing m with
  | nil => exact hm
  | cons f fs ih => exact ih (Table.wf_putField hm hi f _)

/-- Readings written to assigned entries keep the reading table's form. -/
theorem Table.wf_putReadings {m : Table} (hm : m.wf = true) {i : Nat} {es : List Reading}
    (hi : i + es.length ≤ Config.rtEntries) : (m.putReadings i es).wf = true := by
  induction es generalizing m i with
  | nil => exact hm
  | cons e es ih =>
    simp only [List.length_cons] at hi
    exact ih (Table.wf_foldl hm (by omega) _) (by omega)

/-- A field after another is written: the data written, clipped, or what was there. -/
theorem Table.find_putField (m : Table) (i j : Nat) (f g : RtField) (v : Word) :
    Store.find (m.putField i f v) (rtAddress j g) =
      if j = i ∧ g = f then some (f.clip v) else Store.find m (rtAddress j g) := by
  simp only [Table.putField, Store.find_put, rtAddress_inj]

theorem Table.find_foldl (fs : List RtField) (m : Table) (i j : Nat) (g : RtField) (d : RtField → Word) :
    Store.find (fs.foldl (fun m f => Table.putField m i f (d f)) m) (rtAddress j g) =
      if j = i ∧ g ∈ fs then some (g.clip (d g)) else Store.find m (rtAddress j g) := by
  induction fs generalizing m with
  | nil => simp
  | cons f fs ih =>
    simp only [List.foldl_cons, ih, Table.find_putField, List.mem_cons]
    by_cases hj : j = i
    · by_cases hg : g = f
      · subst hg; by_cases hm : g ∈ fs <;> simp [hj, hm]
      · simp [hj, hg]
    · simp [hj]

theorem mem_rtFields (f : RtField) : f ∈ rtFields := by cases f <;> decide

/-- A field after consecutive entries are written: the reading's own field, or what was there. -/
theorem Table.find_putReadings (m : Table) (i j : Nat) (es : List Reading) (g : RtField) :
    Store.find (m.putReadings i es) (rtAddress j g) =
      if h : i ≤ j ∧ j - i < es.length then some (g.clip ((es[j - i]'h.2).field g)) else Store.find m (rtAddress j g) := by
  induction es generalizing m i with
  | nil => simp [Table.putReadings]
  | cons e es ih =>
    simp only [Table.putReadings, ih, Table.putReading, Table.find_foldl, mem_rtFields, and_true]
    by_cases h1 : i + 1 ≤ j ∧ j - (i + 1) < es.length
    · have h2 : i ≤ j ∧ j - i < (e :: es).length := by simp only [List.length_cons]; omega
      have h3 : j - i = (j - (i + 1)) + 1 := by omega
      simp only [h1, h2, and_self, dite_true]
      simp [h3]
    · rw [dif_neg h1]
      by_cases h3 : j = i
      · subst h3; simp
      · rw [if_neg h3, dif_neg (by simp only [List.length_cons]; omega)]

end Sys2Proof.Machine
end

