-- ==== Sys2Proof/Laws/Ops.lean ====
section
/-! SUPPORT. The shared operations over the frame buffer, the checksum and the reading table: what each reads and what
each leaves. -/

namespace Sys2Proof.Machine

/-! ### The frame buffer -/

/-- A byte of the buffer after one is written. -/
@[simp] theorem State.fbGet_fbSet (s : State) (k j : Nat) (b : Byte) :
    (s.fbSet k b).fbGet j = if j = k then b else s.fbGet j := by
  simp only [State.fbGet, State.fbUnlisted, State.fbSet_fb, State.fbSet_resets, Store.find_put]
  split <;> rfl

theorem Memory.find_putBytes (m : Memory) (k j : Nat) (bs : List Byte) :
    Store.find (m.putBytes k bs) j = if h : k ≤ j ∧ j - k < bs.length then some (bs[j - k]'h.2) else Store.find m j := by
  induction bs generalizing m k with
  | nil => simp [Memory.putBytes]
  | cons b bs ih =>
    simp only [Memory.putBytes, ih, Store.find_put]
    by_cases h1 : k + 1 ≤ j ∧ j - (k + 1) < bs.length
    · have h2 : k ≤ j ∧ j - k < (b :: bs).length := by simp only [List.length_cons]; omega
      have h3 : j - k = (j - (k + 1)) + 1 := by omega
      simp only [h1, h2, and_self, dite_true]
      simp [h3]
    · rw [dif_neg h1]
      by_cases h3 : j = k
      · subst h3; simp
      · rw [if_neg h3, dif_neg (by simp only [List.length_cons]; omega)]

/-- A byte of the buffer after consecutive bytes are stored: one of them, or what was there. -/
theorem State.fbGet_storeBytes (s : State) (k j : Nat) (bs : List Byte) :
    (s.storeBytes k bs).fbGet j = if h : k ≤ j ∧ j - k < bs.length then bs[j - k]'h.2 else s.fbGet j := by
  simp only [State.fbGet, State.fbUnlisted, State.storeBytes_fb, State.storeBytes_resets, Memory.find_putBytes]
  split <;> rfl

/-- A byte outside the stored ones is unchanged. -/
theorem State.fbGet_storeBytes_outside (s : State) {k j : Nat} {bs : List Byte} (h : j < k ∨ k + bs.length ≤ j) :
    (s.storeBytes k bs).fbGet j = s.fbGet j := by
  rw [State.fbGet_storeBytes, dif_neg (by omega)]

/-- A stored byte is the one stored. -/
theorem State.fbGet_storeBytes_inside (s : State) (k i : Nat) {bs : List Byte} (h : i < bs.length) :
    (s.storeBytes k bs).fbGet (k + i) = bs[i] := by
  rw [State.fbGet_storeBytes, dif_pos (by omega)]; simp

@[simp] theorem State.fbBytes_length (s : State) (k n : Nat) : (s.fbBytes k n).length = n := by simp [State.fbBytes]

@[simp] theorem State.fbBytes_getElem (s : State) (k n i : Nat) (h : i < (s.fbBytes k n).length) :
    (s.fbBytes k n)[i] = s.fbGet (k + i) := by simp [State.fbBytes]

/-- The bytes just stored, read back. -/
theorem State.fbBytes_storeBytes (s : State) (k : Nat) (bs : List Byte) :
    (s.storeBytes k bs).fbBytes k bs.length = bs := by
  apply List.ext_getElem (by simp)
  intro i h1 h2
  rw [State.fbBytes_getElem, State.fbGet_storeBytes_inside _ _ _ h2]

/-- Two states with the same bytes in a range read the same list of bytes there. -/
theorem State.fbBytes_congr {s t : State} {k n : Nat} (h : ∀ j, k ≤ j → j < k + n → t.fbGet j = s.fbGet j) :
    t.fbBytes k n = s.fbBytes k n := by
  apply List.ext_getElem (by simp)
  intro i h1 h2
  simp only [State.fbBytes_length] at h1
  simpa using h (k + i) (by omega) (by omega)

/-! ### The checksum -/

/-- The exclusive or of a list of bytes. -/
def xorList (bs : List Byte) : Byte := bs.foldl (· ^^^ ·) 0

theorem foldl_xor_eq (bs : List Byte) (c : Byte) : bs.foldl (· ^^^ ·) c = c ^^^ xorList bs := by
  induction bs generalizing c with
  | nil => simp [xorList]
  | cons b bs ih => simp only [xorList, List.foldl_cons]; rw [ih, ih (0 ^^^ b)]; simp [BitVec.xor_assoc]

@[simp] theorem xorList_nil : xorList [] = 0 := rfl

@[simp] theorem xorList_cons (b : Byte) (bs : List Byte) : xorList (b :: bs) = b ^^^ xorList bs := by
  simp only [xorList, List.foldl_cons]; rw [foldl_xor_eq]; simp [xorList]

@[simp] theorem xorList_append (as bs : List Byte) : xorList (as ++ bs) = xorList as ^^^ xorList bs := by
  induction as with
  | nil => simp
  | cons a as ih => simp [ih, BitVec.xor_assoc]

/-- The order of the bytes does not matter (40_checksum.md R94 (a)). -/
theorem xorList_perm {as bs : List Byte} (h : as.Perm bs) : xorList as = xorList bs := by
  induction h with
  | nil => rfl
  | cons a _ ih => simp [ih]
  | swap a b l => simp only [xorList_cons, ← BitVec.xor_assoc, BitVec.xor_comm a b]
  | trans _ _ h1 h2 => exact h1.trans h2

/-- The fold of R90 is the exclusive or of the bytes of the range. -/
theorem State.xorFold_eq (s : State) (a b : Nat) : s.xorFold a b = xorList (s.fbBytes a (b - a)) := by
  simp only [State.xorFold, State.fbBytes, xorList, List.foldl_map]
  rw [List.range'_eq_map_range, List.foldl_map]

/-- Two states with the same bytes in a range have the same fold of it. -/
theorem State.xorFold_congr {s t : State} {a b : Nat} (h : ∀ j, a ≤ j → j < b → t.fbGet j = s.fbGet j) :
    t.xorFold a b = s.xorFold a b := by
  rw [State.xorFold_eq, State.xorFold_eq, State.fbBytes_congr]
  intro j h1 h2; exact h j h1 (by omega)

/-- One more byte folded in (40_checksum.md R94 (b)). -/
theorem State.xorFold_succ (s : State) (n : Nat) : s.xorFold 0 (n + 1) = s.xorFold 0 n ^^^ s.fbGet n := by
  simp only [State.xorFold_eq, State.fbBytes, Nat.sub_zero, List.range_succ, List.map_append, xorList_append]
  simp

/-! ### The reading table -/

/-- A field of the reading table after a field is written. -/
theorem State.rtGet_rtSet (s : State) (i j : Nat) (f g : RtField) (v : Word) :
    (s.rtSet i f v).rtGet j g = if j = i ∧ g = f then f.clip v else s.rtGet j g := by
  simp only [State.rtGet, State.rtData, State.rtUnlisted, State.rtSet_rt, State.rtSet_resets, Table.find_putField]
  split
  · next h => obtain ⟨rfl, rfl⟩ := h; simp
  · rfl

/-- A field of the reading table after readings are stored. -/
theorem State.rtGet_rtStore (s : State) (i j : Nat) (es : List Reading) (g : RtField) :
    (s.rtStore i es).rtGet j g =
      if h : i ≤ j ∧ j - i < es.length then g.clip ((es[j - i]'h.2).field g) else s.rtGet j g := by
  simp only [State.rtGet, State.rtData, State.rtUnlisted, State.rtStore_rt, State.rtStore_resets, Table.find_putReadings]
  split <;> simp

/-- A reading of the table after readings are stored: one of them, or what was there. -/
theorem State.rtReading_rtStore (s : State) (i j : Nat) (es : List Reading) :
    (s.rtStore i es).rtReading j = if h : i ≤ j ∧ j - i < es.length then es[j - i]'h.2 else s.rtReading j := by
  by_cases h : i ≤ j ∧ j - i < es.length
  · simp only [State.rtReading, State.rtGet_rtStore, h, and_self, dite_true]
    simp [RtField.clip, RtField.width, Reading.field]
  · simp only [State.rtReading, State.rtGet_rtStore, h, dite_false]

/-- Two states whose fields of an entry read the same hold the same reading there. -/
theorem State.rtReading_congr {s t : State} {i : Nat} (h : ∀ f, t.rtGet i f = s.rtGet i f) :
    t.rtReading i = s.rtReading i := by
  simp only [State.rtReading, h]

end Sys2Proof.Machine
end

