-- ==== Sys2Proof/Laws/Fields.lean ====
section
/-! SUPPORT. Characters and field conversions: each reader, said once as "it answers this exactly when these characters
stand there", and what each writer's characters read back as. -/

namespace Sys2Proof.Machine

/-! ### Characters -/

theorem decDigit_eq_some {c : Byte} {d : Nat} : decDigit c = some d ↔ d ≤ 9 ∧ c = decChar d := by
  unfold decDigit decChar
  constructor
  · intro h
    split at h
    · next hc =>
      simp only [Option.some.injEq] at h
      refine ⟨by omega, ?_⟩
      apply BitVec.eq_of_toNat_eq
      simp only [BitVec.toNat_ofNat]; omega
    · exact absurd h (by simp)
  · rintro ⟨h, rfl⟩
    have : (BitVec.ofNat 8 (48 + d)).toNat = 48 + d := by simp only [BitVec.toNat_ofNat]; omega
    rw [this, if_pos (by omega)]; simp

theorem hexUpperDigit_eq_some {c : Byte} {d : Nat} : hexUpperDigit c = some d ↔ d ≤ 15 ∧ c = hexUpperChar d := by
  unfold hexUpperDigit hexUpperChar
  constructor
  · intro h
    split at h
    · next hc =>
      simp only [Option.some.injEq] at h
      refine ⟨by omega, ?_⟩
      rw [if_pos (by omega)]
      apply BitVec.eq_of_toNat_eq
      simp only [BitVec.toNat_ofNat]; omega
    · split at h
      · next hc =>
        simp only [Option.some.injEq] at h
        refine ⟨by omega, ?_⟩
        rw [if_neg (by omega)]
        apply BitVec.eq_of_toNat_eq
        simp only [BitVec.toNat_ofNat]; omega
      · exact absurd h (by simp)
  · rintro ⟨h, rfl⟩
    by_cases h9 : d ≤ 9
    · have : (BitVec.ofNat 8 (48 + d)).toNat = 48 + d := by simp only [BitVec.toNat_ofNat]; omega
      rw [if_pos h9, this, if_pos (by omega)]; simp
    · have : (BitVec.ofNat 8 (55 + d)).toNat = 55 + d := by simp only [BitVec.toNat_ofNat]; omega
      rw [if_neg h9, this, if_neg (by omega), if_pos (by omega)]; simp

/-- An uppercase digit is a digit of either case, with the same value. -/
theorem hexDigit_of_hexUpperDigit {c : Byte} {d : Nat} (h : hexUpperDigit c = some d) : hexDigit c = some d := by
  unfold hexUpperDigit at h
  unfold hexDigit
  split at h
  · next hc => rw [if_pos hc]; exact h
  · next hc =>
    split at h
    · next hc2 => rw [if_neg hc, if_pos hc2]; exact h
    · exact absurd h (by simp)

theorem hexDigit_le {c : Byte} {d : Nat} (h : hexDigit c = some d) : d ≤ 15 := by
  unfold hexDigit at h
  split at h
  · simp only [Option.some.injEq] at h; omega
  · split at h
    · simp only [Option.some.injEq] at h; omega
    · split at h
      · simp only [Option.some.injEq] at h; omega
      · exact absurd h (by simp)

theorem signBit_eq_some {c : Byte} {b : BitVec 1} : signBit c = some b ↔ c = signChar b := by
  have hb : b = 0 ∨ b = 1 := by
    have := b.isLt; rcases Nat.lt_or_ge b.toNat 1 with h | h
    · left; apply BitVec.eq_of_toNat_eq; simp; omega
    · right; apply BitVec.eq_of_toNat_eq; simp; omega
  unfold signBit signChar
  rcases hb with rfl | rfl
  · constructor
    · intro h; split at h
      · simpa
      · split at h <;> simp at h
    · intro h; simp at h; simp [h]
  · constructor
    · intro h; split at h
      · simp at h
      · split at h
        · simpa
        · simp at h
    · intro h; simp at h; simp [h]

theorem decDigit_decChar {d : Nat} (h : d ≤ 9) : decDigit (decChar d) = some d := decDigit_eq_some.2 ⟨h, rfl⟩

theorem hexUpperDigit_hexUpperChar {d : Nat} (h : d ≤ 15) : hexUpperDigit (hexUpperChar d) = some d :=
  hexUpperDigit_eq_some.2 ⟨h, rfl⟩

@[simp] theorem signBit_signChar (b : BitVec 1) : signBit (signChar b) = some b := signBit_eq_some.2 rfl

/-! ### Characters standing at a place -/

/-- The characters `bs` stand at frame indices `k`, `k+1`, and so on. -/
def State.HasBytes (s : State) (k : Nat) : List Byte → Prop
  | [] => True
  | b :: bs => s.fbGet k = b ∧ State.HasBytes s (k + 1) bs

@[simp] theorem State.hasBytes_nil (s : State) (k : Nat) : s.HasBytes k [] ↔ True := Iff.rfl

@[simp] theorem State.hasBytes_cons (s : State) (k : Nat) (b : Byte) (bs : List Byte) :
    s.HasBytes k (b :: bs) ↔ s.fbGet k = b ∧ s.HasBytes (k + 1) bs := Iff.rfl

@[simp] theorem State.hasBytes_append (s : State) (k : Nat) (as bs : List Byte) :
    s.HasBytes k (as ++ bs) ↔ s.HasBytes k as ∧ s.HasBytes (k + as.length) bs := by
  induction as generalizing k with
  | nil => simp
  | cons a as ih => simp [ih, and_assoc, Nat.add_assoc, Nat.add_comm 1]

theorem State.hasBytes_iff_getElem (s : State) (k : Nat) (bs : List Byte) :
    s.HasBytes k bs ↔ ∀ i (h : i < bs.length), s.fbGet (k + i) = bs[i] := by
  induction bs generalizing k with
  | nil => simp
  | cons b bs ih =>
    rw [State.hasBytes_cons, ih]
    constructor
    · rintro ⟨h0, h⟩ i hi
      cases i with
      | zero => simpa using h0
      | succ i => have := h i (by simpa using hi); simpa [Nat.add_assoc, Nat.add_comm 1] using this
    · intro h
      refine ⟨h 0 (by simp), fun i hi => ?_⟩
      have := h (i + 1) (by simpa using hi)
      simpa [Nat.add_assoc, Nat.add_comm 1] using this

theorem State.hasBytes_iff_fbBytes (s : State) (k : Nat) (bs : List Byte) :
    s.HasBytes k bs ↔ s.fbBytes k bs.length = bs := by
  rw [State.hasBytes_iff_getElem]
  constructor
  · intro h; apply List.ext_getElem (by simp); intro i h1 h2; simpa using h i h2
  · intro h i hi
    have := s.fbBytes_getElem k bs.length i (by simpa using hi)
    rw [← this]; simp only [h]

theorem State.hasBytes_congr {s t : State} {k : Nat} {bs : List Byte}
    (h : ∀ j, k ≤ j → j < k + bs.length → t.fbGet j = s.fbGet j) : t.HasBytes k bs ↔ s.HasBytes k bs := by
  rw [State.hasBytes_iff_getElem, State.hasBytes_iff_getElem]
  constructor
  · intro g i hi; rw [← h _ (by omega) (by omega)]; exact g i hi
  · intro g i hi; rw [h _ (by omega) (by omega)]; exact g i hi

theorem State.hasBytes_storeBytes (s : State) (k : Nat) (bs : List Byte) : (s.storeBytes k bs).HasBytes k bs := by
  rw [State.hasBytes_iff_getElem]; intro i hi; exact State.fbGet_storeBytes_inside _ _ _ hi

/-! ### Decimal fields -/

@[simp] theorem decChars_length (w v : Nat) : (decChars w v).length = w := by simp [decChars]

theorem decChars_succ (w v : Nat) : decChars (w + 1) v = decChar (v / 10 ^ w % 10) :: decChars w v := by
  simp only [decChars, List.range_succ_eq_map, List.map_cons, List.map_map]
  congr 1
  apply List.map_congr_left
  intro j hj
  simp only [Function.comp, List.mem_range] at *
  congr 4; omega

theorem decChars_add_mul (w d v : Nat) : decChars w (d * 10 ^ w + v) = decChars w v := by
  simp only [decChars]
  apply List.map_congr_left
  intro j hj
  simp only [List.mem_range] at hj
  obtain ⟨e, he⟩ : ∃ e, w = e + 1 + (w - 1 - j) := ⟨j, by omega⟩
  generalize w - 1 - j = x at *
  subst he
  have hp : 0 < 10 ^ x := Nat.pos_of_ne_zero (by simp)
  have : d * 10 ^ (e + 1 + x) + v = d * 10 ^ e * 10 * 10 ^ x + v := by rw [Nat.pow_add, Nat.pow_succ]; ring
  rw [this, Nat.mul_comm (d * 10 ^ e * 10), Nat.mul_add_div hp]
  congr 1; omega

theorem State.getDecFrom_ok_iff (s : State) (acc w k n : Nat) :
    s.getDecFrom acc w k = .ok n ↔ ∃ v, v < 10 ^ w ∧ n = acc * 10 ^ w + v ∧ s.HasBytes k (decChars w v) := by
  induction w generalizing acc k with
  | zero =>
    simp only [State.getDecFrom, Except.ok.injEq, Nat.pow_zero, Nat.lt_one_iff, Nat.mul_one]
    constructor
    · rintro rfl; exact ⟨0, rfl, rfl, by simp [decChars]⟩
    · rintro ⟨v, rfl, h, -⟩; simpa using h.symm
  | succ w ih =>
    have hp : 0 < 10 ^ w := Nat.pos_of_ne_zero (by simp)
    simp only [State.getDecFrom, decChars_succ, State.hasBytes_cons]
    constructor
    · intro h
      split at h
      · next d hd =>
        obtain ⟨v, hv, rfl, hb⟩ := (ih _ _).1 h
        obtain ⟨hd9, hc⟩ := decDigit_eq_some.1 hd
        refine ⟨d * 10 ^ w + v, ?_, ?_, ?_, ?_⟩
        · calc d * 10 ^ w + v < d * 10 ^ w + 10 ^ w := by omega
            _ = (d + 1) * 10 ^ w := by ring
            _ ≤ 10 * 10 ^ w := Nat.mul_le_mul_right _ (by omega)
            _ = 10 ^ (w + 1) := by ring
        · ring
        · rw [hc, Nat.mul_comm d, Nat.mul_add_div hp, Nat.div_eq_of_lt hv, Nat.add_zero, Nat.mod_eq_of_lt (by omega)]
        · rw [decChars_add_mul]; exact hb
      · simp at h
    · rintro ⟨v, hv, rfl, hc, hb⟩
      have hlt : v / 10 ^ w < 10 := by rw [Nat.div_lt_iff_lt_mul hp]; rw [Nat.pow_succ] at hv; omega
      rw [Nat.mod_eq_of_lt hlt] at hc
      rw [hc, decDigit_decChar (by omega)]
      refine (ih _ _).2 ⟨v % 10 ^ w, Nat.mod_lt _ hp, ?_, ?_⟩
      · have := Nat.div_add_mod v (10 ^ w)
        calc acc * 10 ^ (w + 1) + v = acc * 10 ^ (w + 1) + (10 ^ w * (v / 10 ^ w) + v % 10 ^ w) := by rw [this]
          _ = _ := by ring
      · have := Nat.div_add_mod v (10 ^ w)
        rw [← this, Nat.mul_comm, decChars_add_mul] at hb
        exact hb

/-- `getdec` answers `v` exactly when the `w` digit characters of `v` stand at the field (30_encoding.md R76, R77). -/
theorem State.getDec_ok_iff (s : State) (k w v : Nat) :
    s.getDec k w = .ok v ↔ v < 10 ^ w ∧ s.HasBytes k (decChars w v) := by
  simp only [State.getDec, State.getDecFrom_ok_iff, Nat.zero_mul, Nat.zero_add]
  constructor
  · rintro ⟨_, h, rfl, hb⟩; exact ⟨h, hb⟩
  · rintro ⟨h, hb⟩; exact ⟨v, h, rfl, hb⟩

theorem State.getDecFrom_error (s : State) (acc w k : Nat) (f : Failure) (h : s.getDecFrom acc w k = .error f) :
    ∃ j, j < w ∧ (∀ i, i < j → decDigit (s.fbGet (k + i)) ≠ none) ∧ decDigit (s.fbGet (k + j)) = none ∧
      f = s.malformed (k + j) := by
  induction w generalizing acc k with
  | zero => simp [State.getDecFrom] at h
  | succ w ih =>
    simp only [State.getDecFrom] at h
    split at h
    · next d hd =>
      obtain ⟨j, hj, hi, hn, hf⟩ := ih _ _ h
      refine ⟨j + 1, by omega, ?_, by rwa [Nat.add_assoc, Nat.add_comm 1] at hn,
        by rwa [Nat.add_assoc, Nat.add_comm 1] at hf⟩
      intro i hlt
      cases i with
      | zero => simp [hd]
      | succ i => have := hi i (by omega); rwa [Nat.add_assoc, Nat.add_comm 1] at this
    · next hd =>
      simp only [Except.error.injEq] at h
      exact ⟨0, by omega, by omega, by simpa using hd, by simpa using h.symm⟩

/-- When `getdec` fails, it names the lowest-indexed character that is no digit (30_encoding.md R76). -/
theorem State.getDec_error (s : State) (k w : Nat) (f : Failure) (h : s.getDec k w = .error f) :
    ∃ j, j < w ∧ (∀ i, i < j → decDigit (s.fbGet (k + i)) ≠ none) ∧ decDigit (s.fbGet (k + j)) = none ∧
      f = s.malformed (k + j) := s.getDecFrom_error 0 w k f h

theorem State.getDecFrom_congr {s t : State} (acc w k : Nat) (h : ∀ j, k ≤ j → j < k + w → t.fbGet j = s.fbGet j) :
    t.getDecFrom acc w k = s.getDecFrom acc w k := by
  induction w generalizing acc k with
  | zero => rfl
  | succ w ih =>
    have h0 := h k (by omega) (by omega)
    have ih' := fun a => ih a (k + 1) (fun j h1 h2 => h j (by omega) (by omega))
    simp only [State.getDecFrom, State.malformed, h0, ih']

theorem State.getDec_congr {s t : State} (k w : Nat) (h : ∀ j, k ≤ j → j < k + w → t.fbGet j = s.fbGet j) :
    t.getDec k w = s.getDec k w := State.getDecFrom_congr 0 w k h

/-! ### Hexadecimal fields, signs, the value field -/

@[simp] theorem hexChars_length (v : Byte) : (hexChars v).length = 2 := rfl

/-- The two characters of `puthex2` read back as the byte written (30_encoding.md R76, R77). -/
theorem State.getHex2_of_hexChars {s : State} {k : Nat} {v : Byte} (h : s.HasBytes k (hexChars v)) :
    s.getHex2 k = .ok v := by
  simp only [hexChars, State.hasBytes_cons, State.hasBytes_nil, and_true] at h
  have h1 := hexDigit_of_hexUpperDigit (hexUpperDigit_hexUpperChar (d := v.toNat / 16) (by have := v.isLt; omega))
  have h2 := hexDigit_of_hexUpperDigit (hexUpperDigit_hexUpperChar (d := v.toNat % 16) (by omega))
  simp only [State.getHex2, h.1, h.2, h1, h2]
  congr 1
  apply BitVec.eq_of_toNat_eq
  simp only [BitVec.toNat_ofNat]
  have := v.isLt; omega

/-- `gethex2` answers `v` exactly when two hexadecimal digit characters of that value stand there. -/
theorem State.getHex2_ok_iff (s : State) (k : Nat) (v : Byte) :
    s.getHex2 k = .ok v ↔
      ∃ h l, hexDigit (s.fbGet k) = some h ∧ hexDigit (s.fbGet (k + 1)) = some l ∧ v.toNat = h * 16 + l := by
  unfold State.getHex2
  split
  · next hn => simp [hn]
  · next h hh =>
    split
    · next hn => simp [hn]
    · next l hl =>
      have h1 := hexDigit_le hh
      have h2 := hexDigit_le hl
      simp only [Except.ok.injEq, hh, hl, Option.some.injEq]
      constructor
      · rintro rfl; exact ⟨h, l, rfl, rfl, by simp only [BitVec.toNat_ofNat]; omega⟩
      · rintro ⟨_, _, rfl, rfl, hv⟩
        apply BitVec.eq_of_toNat_eq; simp only [BitVec.toNat_ofNat]; omega

/-- When `gethex2` fails, it names the lower-indexed character that is no hexadecimal digit (30_encoding.md R76). -/
theorem State.getHex2_error (s : State) (k : Nat) (f : Failure) (h : s.getHex2 k = .error f) :
    ∃ j, j < 2 ∧ (∀ i, i < j → hexDigit (s.fbGet (k + i)) ≠ none) ∧ hexDigit (s.fbGet (k + j)) = none ∧
      f = s.malformed (k + j) := by
  unfold State.getHex2 at h
  split at h
  · next hn =>
    simp only [Except.error.injEq] at h
    exact ⟨0, by omega, by omega, by simpa using hn, by simpa using h.symm⟩
  · next a ha =>
    split at h
    · next hn =>
      simp only [Except.error.injEq] at h
      refine ⟨1, by omega, fun i hi => ?_, hn, h.symm⟩
      have : i = 0 := by omega
      subst this; simp [ha]
    · simp at h

theorem State.getHex2_congr {s t : State} (k : Nat) (h : ∀ j, k ≤ j → j < k + 2 → t.fbGet j = s.fbGet j) :
    t.getHex2 k = s.getHex2 k := by
  simp only [State.getHex2, State.malformed, h k (by omega) (by omega), h (k + 1) (by omega) (by omega)]

/-- `getsign` answers a bit exactly when its sign character stands there (30_encoding.md R76). -/
theorem State.getSign_ok_iff (s : State) (k : Nat) (b : BitVec 1) :
    s.getSign k = .ok b ↔ s.fbGet k = signChar b := by
  rw [← signBit_eq_some]
  unfold State.getSign
  split
  · next c hc => simp [hc]
  · next hc => simp [hc]

theorem State.getSign_error (s : State) (k : Nat) (f : Failure) (h : s.getSign k = .error f) :
    signBit (s.fbGet k) = none ∧ f = s.malformed k := by
  unfold State.getSign at h
  split at h
  · simp at h
  · next hn => simp only [Except.error.injEq] at h; exact ⟨hn, h.symm⟩

theorem State.getSign_congr {s t : State} (k : Nat) (h : t.fbGet k = s.fbGet k) : t.getSign k = s.getSign k := by
  simp only [State.getSign, State.malformed, h]

@[simp] theorem except_bind_ok_iff {ε α β : Type} {x : Except ε α} {f : α → Except ε β} {b : β} :
    (x >>= f) = .ok b ↔ ∃ a, x = .ok a ∧ f a = .ok b := by
  cases x <;> simp [bind, Except.bind]

theorem except_bind_error_iff {ε α β : Type} {x : Except ε α} {f : α → Except ε β} {e : ε} :
    (x >>= f) = .error e ↔ x = .error e ∨ ∃ a, x = .ok a ∧ f a = .error e := by
  cases x <;> simp [bind, Except.bind]

@[simp] theorem Triple.chars_length (t : Triple) : t.chars.length = 8 := by simp [Triple.chars]

/-- `getvalue` answers a triple exactly when its 8 characters stand there (44_value_field.md R151, R152, R154). -/
theorem State.getValue_ok_iff (s : State) (k : Nat) (t : Triple) :
    s.getValue k = .ok t ↔ t.vm.toNat ≤ 9999 ∧ t.ee.toNat ≤ 99 ∧ s.HasBytes k t.chars := by
  simp only [State.getValue, except_bind_ok_iff, State.getSign_ok_iff, State.getDec_ok_iff, pure, Except.pure,
    Except.ok.injEq, Triple.chars, State.hasBytes_append, State.hasBytes_cons, State.hasBytes_nil, and_true,
    List.length_append, List.length_cons, List.length_nil, decChars_length]
  constructor
  · rintro ⟨vs, h1, vm, ⟨hv, h2⟩, es, h3, ee, ⟨he, h4⟩, rfl⟩
    have e1 : (BitVec.ofNat 14 vm).toNat = vm := by simp only [BitVec.toNat_ofNat]; omega
    have e2 : (BitVec.ofNat 7 ee).toNat = ee := by simp only [BitVec.toNat_ofNat]; omega
    rw [e1, e2]
    exact ⟨by omega, by omega, ⟨⟨h1, h2⟩, h3⟩, h4⟩
  · rintro ⟨hv, he, ⟨⟨h1, h2⟩, h3⟩, h4⟩
    exact ⟨t.vs, h1, t.vm.toNat, ⟨by omega, h2⟩, t.es, h3, t.ee.toNat, ⟨by omega, h4⟩, by simp⟩

theorem State.getValue_congr {s t : State} (k : Nat) (h : ∀ j, k ≤ j → j < k + 8 → t.fbGet j = s.fbGet j) :
    t.getValue k = s.getValue k := by
  simp only [State.getValue]
  rw [State.getSign_congr k (h k (by omega) (by omega)), State.getSign_congr (k + 5) (h (k + 5) (by omega) (by omega)),
    State.getDec_congr (k + 1) 4 (fun j h1 h2 => h j (by omega) (by omega)),
    State.getDec_congr (k + 6) 2 (fun j h1 h2 => h j (by omega) (by omega))]

/-- What `normvalue` answers (44_value_field.md R152). -/
theorem Triple.norm_cases (t : Triple) :
    (t.ee.toNat ≤ 99 ∧ t.norm = some t) ∨ (99 < t.ee.toNat ∧ t.es = 1 ∧ t.norm = some sentinel) ∨
      (99 < t.ee.toNat ∧ t.es ≠ 1 ∧ t.norm = none) := by
  unfold Triple.norm
  by_cases h : t.ee.toNat ≤ 99
  · exact .inl ⟨h, if_pos h⟩
  · by_cases he : t.es = 1
    · exact .inr (.inl ⟨by omega, he, by rw [if_neg h, if_pos he]⟩)
    · exact .inr (.inr ⟨by omega, he, by rw [if_neg h, if_neg he]⟩)

end Sys2Proof.Machine
end

