-- ==== Sys2Proof/Laws/Frame.lean ====
section
/-! SUPPORT. The frame check and the wrap: each said once. -/

namespace Sys2Proof.Machine

/-- A trailer has the value of a byte exactly when it is that byte's two uppercase digits, high nibble first. -/
theorem trailerValue_eq_byte {h l : Byte} {c : Byte} :
    trailerValue h l = some c.toNat ↔ h = hexUpperChar (c.toNat / 16) ∧ l = hexUpperChar (c.toNat % 16) := by
  have hc := c.isLt
  unfold trailerValue
  constructor
  · intro hv
    split at hv
    · next a b ha hb =>
      obtain ⟨ha9, rfl⟩ := hexUpperDigit_eq_some.1 ha
      obtain ⟨hb9, rfl⟩ := hexUpperDigit_eq_some.1 hb
      simp only [Option.some.injEq] at hv
      have h1 : c.toNat / 16 = a := by omega
      have h2 : c.toNat % 16 = b := by omega
      rw [h1, h2]; exact ⟨rfl, rfl⟩
    · simp at hv
  · rintro ⟨rfl, rfl⟩
    rw [hexUpperDigit_hexUpperChar (by omega), hexUpperDigit_hexUpperChar (by omega)]
    simp only [Option.some.injEq]; omega

/-- A trailer has no value exactly when a character of it is outside the class (41_frame_envelope.md R103). -/
theorem trailerValue_eq_none {h l : Byte} :
    trailerValue h l = none ↔ hexUpperDigit h = none ∨ hexUpperDigit l = none := by
  unfold trailerValue
  cases hexUpperDigit h <;> cases hexUpperDigit l <;> simp

theorem trailerValue_eq_some {h l : Byte} {g : Nat} :
    trailerValue h l = some g ↔ ∃ a b, hexUpperDigit h = some a ∧ hexUpperDigit l = some b ∧ g = a * 16 + b := by
  unfold trailerValue
  cases hexUpperDigit h <;> cases hexUpperDigit l <;> simp [eq_comm]

theorem trailerValue_lt {h l : Byte} {g : Nat} (hg : trailerValue h l = some g) : g < 256 := by
  obtain ⟨a, b, ha, hb, rfl⟩ := trailerValue_eq_some.1 hg
  have := (hexUpperDigit_eq_some.1 ha).1
  have := (hexUpperDigit_eq_some.1 hb).1
  omega

/-- A frame is a buffer whose markers stand in place and whose trailer has the checksum's value. -/
theorem State.framed_iff (s : State) :
    s.Framed ↔ 4 ≤ s.len.toNat ∧ s.fbGet 0 = Config.stx ∧ s.fbGet (s.len.toNat - 3) = Config.etx ∧
      trailerValue (s.fbGet (s.len.toNat - 2)) (s.fbGet (s.len.toNat - 1)) =
        some (s.xorFold 0 (s.len.toNat - 2)).toNat := by
  rw [trailerValue_eq_byte]; rfl

@[simp] theorem State.xorFold_setHtype (s : State) (h : BitVec 2) (a b : Nat) :
    (s.setHtype h).xorFold a b = s.xorFold a b := State.xorFold_congr (by simp)

@[simp] theorem State.xorFold_setGotv (s : State) (g : Bool) (a b : Nat) :
    (s.setGotv g).xorFold a b = s.xorFold a b := State.xorFold_congr (by simp)

/-! The outcomes of `framecheck`, in the order of its checks (41_frame_envelope.md R100). -/

theorem State.frameCheck_short {s : State} (h : s.len.toNat < 4) :
    s.frameCheck = (s.setGotv false,
      some { code := .frameTooShort, infoA := BitVec.ofNat 16 s.len.toNat, infoB := 0 }) := by
  simp [State.frameCheck, Config.frameMin, h]

theorem State.frameCheck_start {s : State} (h4 : 4 ≤ s.len.toNat) (h : s.fbGet 0 ≠ Config.stx) :
    s.frameCheck = (s.setGotv false,
      some { code := .missingStartMarker, infoA := (s.fbGet 0).setWidth 16, infoB := 0 }) := by
  simp [State.frameCheck, Config.frameMin, Nat.not_lt.2 h4, h]

theorem State.frameCheck_end {s : State} (h4 : 4 ≤ s.len.toNat) (h0 : s.fbGet 0 = Config.stx)
    (h : s.fbGet (s.len.toNat - 3) ≠ Config.etx) :
    s.frameCheck = (s.setGotv false,
      some { code := .missingEndMarker, infoA := (s.fbGet (s.len.toNat - 3)).setWidth 16
             infoB := BitVec.ofNat 16 (s.len.toNat - 3) }) := by
  simp [State.frameCheck, Config.frameMin, Nat.not_lt.2 h4, h0, h]

theorem State.frameCheck_trailer {s : State} (h4 : 4 ≤ s.len.toNat) (h0 : s.fbGet 0 = Config.stx)
    (h3 : s.fbGet (s.len.toNat - 3) = Config.etx) :
    s.frameCheck = (s.setGotv false).checkTrailer s.len.toNat := by
  simp [State.frameCheck, Config.frameMin, Nat.not_lt.2 h4, h0, h3]

theorem State.frameCheck_unreadable {s : State} (h4 : 4 ≤ s.len.toNat) (h0 : s.fbGet 0 = Config.stx)
    (h3 : s.fbGet (s.len.toNat - 3) = Config.etx)
    (h : trailerValue (s.fbGet (s.len.toNat - 2)) (s.fbGet (s.len.toNat - 1)) = none) :
    s.frameCheck = ((s.setGotv false).setAcc (s.xorFold 0 (s.len.toNat - 2)),
      some { code := .checksumMismatch, infoA := s.fbGet (s.len.toNat - 2) ++ s.fbGet (s.len.toNat - 1)
             infoB := (s.xorFold 0 (s.len.toNat - 2)).setWidth 16 }) := by
  rw [State.frameCheck_trailer h4 h0 h3]
  simp [State.checkTrailer, h]

theorem State.frameCheck_mismatch {s : State} (h4 : 4 ≤ s.len.toNat) (h0 : s.fbGet 0 = Config.stx)
    (h3 : s.fbGet (s.len.toNat - 3) = Config.etx) {g : Nat}
    (h : trailerValue (s.fbGet (s.len.toNat - 2)) (s.fbGet (s.len.toNat - 1)) = some g)
    (hg : g ≠ (s.xorFold 0 (s.len.toNat - 2)).toNat) :
    s.frameCheck = ((s.setAcc (s.xorFold 0 (s.len.toNat - 2))).setGotv true,
      some { code := .checksumMismatch, infoA := BitVec.ofNat 16 g
             infoB := (s.xorFold 0 (s.len.toNat - 2)).setWidth 16 }) := by
  rw [State.frameCheck_trailer h4 h0 h3]
  simp [State.checkTrailer, h, hg]; rfl

theorem State.frameCheck_pass {s : State} (h : s.Framed) :
    s.frameCheck = (((s.setAcc (s.xorFold 0 (s.len.toNat - 2))).setGotv true).setPlen
      (BitVec.ofNat 12 (s.len.toNat - 4)), none) := by
  obtain ⟨h4, h0, h3, ht⟩ := s.framed_iff.1 h
  rw [State.frameCheck_trailer h4 h0 h3]
  simp [State.checkTrailer, ht]; rfl

/-- Every outcome of `framecheck`: one of the five failures of R100 with what was written until then, or a frame. -/
theorem State.frameCheck_cases (s : State) :
    (s.len.toNat < 4 ∧ s.frameCheck = (s.setGotv false,
      some { code := .frameTooShort, infoA := BitVec.ofNat 16 s.len.toNat, infoB := 0 })) ∨
    (4 ≤ s.len.toNat ∧ s.fbGet 0 ≠ Config.stx ∧ s.frameCheck = (s.setGotv false,
      some { code := .missingStartMarker, infoA := (s.fbGet 0).setWidth 16, infoB := 0 })) ∨
    (4 ≤ s.len.toNat ∧ s.fbGet 0 = Config.stx ∧ s.fbGet (s.len.toNat - 3) ≠ Config.etx ∧
      s.frameCheck = (s.setGotv false,
        some { code := .missingEndMarker, infoA := (s.fbGet (s.len.toNat - 3)).setWidth 16
               infoB := BitVec.ofNat 16 (s.len.toNat - 3) })) ∨
    (4 ≤ s.len.toNat ∧ s.fbGet 0 = Config.stx ∧ s.fbGet (s.len.toNat - 3) = Config.etx ∧
      trailerValue (s.fbGet (s.len.toNat - 2)) (s.fbGet (s.len.toNat - 1)) = none ∧
      s.frameCheck = ((s.setGotv false).setAcc (s.xorFold 0 (s.len.toNat - 2)),
        some { code := .checksumMismatch, infoA := s.fbGet (s.len.toNat - 2) ++ s.fbGet (s.len.toNat - 1)
               infoB := (s.xorFold 0 (s.len.toNat - 2)).setWidth 16 })) ∨
    (4 ≤ s.len.toNat ∧ s.fbGet 0 = Config.stx ∧ s.fbGet (s.len.toNat - 3) = Config.etx ∧
      ∃ g, trailerValue (s.fbGet (s.len.toNat - 2)) (s.fbGet (s.len.toNat - 1)) = some g ∧
        g ≠ (s.xorFold 0 (s.len.toNat - 2)).toNat ∧
        s.frameCheck = ((s.setAcc (s.xorFold 0 (s.len.toNat - 2))).setGotv true,
          some { code := .checksumMismatch, infoA := BitVec.ofNat 16 g
                 infoB := (s.xorFold 0 (s.len.toNat - 2)).setWidth 16 })) ∨
    (s.Framed ∧ s.frameCheck = (((s.setAcc (s.xorFold 0 (s.len.toNat - 2))).setGotv true).setPlen
      (BitVec.ofNat 12 (s.len.toNat - 4)), none)) := by
  by_cases h4 : 4 ≤ s.len.toNat
  · by_cases h0 : s.fbGet 0 = Config.stx
    · by_cases h3 : s.fbGet (s.len.toNat - 3) = Config.etx
      · cases ht : trailerValue (s.fbGet (s.len.toNat - 2)) (s.fbGet (s.len.toNat - 1)) with
        | none => exact .inr (.inr (.inr (.inl ⟨h4, h0, h3, rfl, State.frameCheck_unreadable h4 h0 h3 ht⟩)))
        | some g =>
          by_cases hg : g = (s.xorFold 0 (s.len.toNat - 2)).toNat
          · have hf : s.Framed := s.framed_iff.2 ⟨h4, h0, h3, hg ▸ ht⟩
            exact .inr (.inr (.inr (.inr (.inr ⟨hf, State.frameCheck_pass hf⟩))))
          · exact .inr (.inr (.inr (.inr (.inl
              ⟨h4, h0, h3, g, rfl, hg, State.frameCheck_mismatch h4 h0 h3 ht hg⟩))))
      · exact .inr (.inr (.inl ⟨h4, h0, h3, State.frameCheck_end h4 h0 h3⟩))
    · exact .inr (.inl ⟨h4, h0, State.frameCheck_start h4 h0⟩)
  · exact .inl ⟨by omega, State.frameCheck_short (by omega)⟩

/-- The frame check is not affected by HTYPE. -/
@[simp] theorem State.framed_setHtype (s : State) (h : BitVec 2) : (s.setHtype h).Framed ↔ s.Framed := by
  simp only [State.Framed, State.setHtype_len, State.setHtype_fbGet, State.xorFold_setHtype]

/-! ### The wrap -/

theorem frameChecksum_eq (p : List Byte) : frameChecksum p = xorList (Config.stx :: p ++ [Config.etx]) := rfl

@[simp] theorem frameBytes_length (p : List Byte) : (frameBytes p).length = p.length + 4 := by
  simp [frameBytes]

/-- The buffer after `wrapframe(n)`: the frame of the payload that stands in `FB[1 .. n+1)`, and every byte beyond it as
it was (41_frame_envelope.md R110). -/
theorem State.wrapFrame_spec (s : State) {n : Nat} {p : List Byte} (hp : p = s.fbBytes 1 n) :
    s.wrapFrame n = { s with
      fb := (s.wrapFrame n).fb, acc := frameChecksum p, len := BitVec.ofNat 12 (n + 4), plen := BitVec.ofNat 12 n } ∧
    (s.wrapFrame n).HasBytes 0 (frameBytes p) ∧ ∀ k, n + 4 ≤ k → (s.wrapFrame n).fbGet k = s.fbGet k := by
  have hlen : p.length = n := by simp [hp]
  have hc : ((s.fbSet 0 Config.stx).fbSet (n + 1) Config.etx).xorFold 0 (n + 2) = frameChecksum p := by
    rw [State.xorFold_eq, frameChecksum_eq]
    congr 1
    have h2 : ((s.fbSet 0 Config.stx).fbSet (n + 1) Config.etx).HasBytes 0 (Config.stx :: p ++ [Config.etx]) := by
      simp only [State.hasBytes_append, State.hasBytes_cons, State.hasBytes_nil, and_true, List.length_cons, hlen]
      refine ⟨⟨by simp, ?_⟩, by simp⟩
      rw [State.hasBytes_iff_getElem]
      intro i hi
      rw [State.fbGet_fbSet, State.fbGet_fbSet, if_neg (by omega), if_neg (by omega)]
      subst hp; simp [Nat.add_comm]
    have := (State.hasBytes_iff_fbBytes _ _ _).1 h2
    simpa [hlen] using this
  refine ⟨?_, ?_, ?_⟩
  · simp only [State.wrapFrame, hc]; rfl
  · have hp2 : ∀ i (h : i < p.length), s.fbGet (i + 1) = p[i] := by intro i h; subst hp; simp [Nat.add_comm]
    rw [State.hasBytes_iff_getElem]
    intro i hi
    simp only [frameBytes_length, hlen] at hi
    simp only [State.wrapFrame, hc, State.setPlen_fbGet, State.setLen_fbGet, State.fbGet_storeBytes, State.setAcc_fbGet,
      State.fbGet_fbSet, hexChars_length, Nat.zero_add]
    have hsplit : i = 0 ∨ (1 ≤ i ∧ i ≤ n) ∨ i = n + 1 ∨ i = n + 2 ∨ i = n + 3 := by omega
    rcases hsplit with rfl | ⟨h1, h2⟩ | rfl | rfl | rfl
    · simp [frameBytes]
    · obtain ⟨j, rfl⟩ : ∃ j, i = j + 1 := ⟨i - 1, by omega⟩
      rw [dif_neg (by omega), if_neg (by omega), if_neg (by omega), hp2 j (by omega)]
      simp only [frameBytes, List.cons_append, List.getElem_cons_succ]
      rw [List.getElem_append_left (by simp; omega), List.getElem_append_left (by omega)]
    · simp only [frameBytes]
      rw [dif_neg (by omega), if_true, List.getElem_append_left (by simp [hlen]), List.getElem_append_right (by simp [hlen])]
      simp [hlen]
    · rw [dif_pos (by omega)]
      simp only [frameBytes]
      rw [List.getElem_append_right (by simp [hlen])]
      simp [hlen]
    · rw [dif_pos (by omega)]
      simp only [frameBytes]
      rw [List.getElem_append_right (by simp [hlen])]
      simp [hlen]
  · intro k hk
    simp only [State.wrapFrame, State.setPlen_fbGet, State.setLen_fbGet, State.fbGet_storeBytes, State.setAcc_fbGet,
      State.fbGet_fbSet, hexChars_length]
    rw [dif_neg (by omega), if_neg (by omega), if_neg (by omega)]

/-- A wrap that fits keeps the frame buffer's form. -/
theorem State.wrapFrame_wf {s : State} (h : s.fb.wf = true) {n : Nat} (hn : n ≤ Config.payloadMax) :
    (s.wrapFrame n).fb.wf = true := by
  simp only [Config.payloadMax] at hn
  simp only [State.wrapFrame, State.setPlen_fb, State.setLen_fb, State.storeBytes_fb, State.setAcc_fb, State.fbSet_fb]
  exact Memory.wf_putBytes (Memory.wf_put (Memory.wf_put h (by decide) _) (by simp only [Config.fbSize]; omega) _)
    (by simp only [hexChars_length, Config.fbSize]; omega)

end Sys2Proof.Machine
end

