-- ==== Sys2Proof/Laws/Telegram.lean ====
section
/-! SUPPORT. The decode direction: what a block and a list of blocks decode to, which error a malformed one gives, and
that nothing outside the frame is read. -/

namespace Sys2Proof.Machine

/-! ### Character classes -/

theorem decimal_has_iff (c : Byte) : CharClass.decimal.has c = (decDigit c).isSome := by
  simp only [CharClass.has, decDigit]
  by_cases h : 0x30 ≤ c.toNat ∧ c.toNat ≤ 0x39 <;> simp [h]

theorem hex_has_iff (c : Byte) : CharClass.hex.has c = (hexDigit c).isSome := by
  unfold CharClass.has hexDigit
  by_cases h1 : 0x30 ≤ c.toNat ∧ c.toNat ≤ 0x39
  · simp [h1]
  · by_cases h2 : 0x41 ≤ c.toNat ∧ c.toNat ≤ 0x46
    · simp [h1, h2]
    · by_cases h3 : 0x61 ≤ c.toNat ∧ c.toNat ≤ 0x66
      · simp [h1, h2, h3]
      · simp [h1, h2, h3]

theorem sign_has_iff (c : Byte) : CharClass.sign.has c = (signBit c).isSome := by
  simp only [CharClass.has, signBit]
  by_cases h1 : c = 0x2B#8
  · simp [h1]
  · by_cases h2 : c = 0x2D#8
    · simp [h2]
    · simp [h1, h2]

theorem State.digitAt_iff (s : State) (k d : Nat) : s.DigitAt k d ↔ d ≤ 9 ∧ s.fbGet k = decChar d := by
  unfold State.DigitAt decChar
  constructor
  · rintro ⟨h, hc⟩
    refine ⟨h, ?_⟩
    apply BitVec.eq_of_toNat_eq; simp only [BitVec.toNat_ofNat]; omega
  · rintro ⟨h, hc⟩
    refine ⟨h, ?_⟩
    rw [hc]; simp only [BitVec.toNat_ofNat]; omega

/-- A field of three digits reads as its value. -/
theorem State.getDec_of_dec3At {s : State} {k v : Nat} (h : s.Dec3At k v) : s.getDec k 3 = .ok v ∧ v ≤ 999 := by
  obtain ⟨a, b, c, ha, hb, hc, rfl⟩ := h
  obtain ⟨ha9, ha⟩ := (s.digitAt_iff _ _).1 ha
  obtain ⟨hb9, hb⟩ := (s.digitAt_iff _ _).1 hb
  obtain ⟨hc9, hc⟩ := (s.digitAt_iff _ _).1 hc
  refine ⟨?_, by omega⟩
  simp only [State.getDec, State.getDecFrom, ha, hb, hc, decDigit_decChar ha9, decDigit_decChar hb9,
    decDigit_decChar hc9]
  congr 1; omega

/-- A field of two digits reads as its value. -/
theorem State.getDec_of_dec2At {s : State} {k v : Nat} (h : s.Dec2At k v) : s.getDec k 2 = .ok v ∧ v ≤ 99 := by
  obtain ⟨a, b, ha, hb, rfl⟩ := h
  obtain ⟨ha9, ha⟩ := (s.digitAt_iff _ _).1 ha
  obtain ⟨hb9, hb⟩ := (s.digitAt_iff _ _).1 hb
  refine ⟨?_, by omega⟩
  simp only [State.getDec, State.getDecFrom, ha, hb, decDigit_decChar ha9, decDigit_decChar hb9]
  congr 1; omega

theorem State.getSign_of_signAt {s : State} {k : Nat} {b : BitVec 1} (h : s.SignAt k b) : s.getSign k = .ok b := by
  rw [State.getSign_ok_iff]
  rcases h with ⟨rfl, h⟩ | ⟨rfl, h⟩ <;> rw [h] <;> rfl

/-- A value field reads as its triple. -/
theorem State.getValue_of_valueAt {s : State} {k : Nat} {t : Triple} (h : s.ValueAt k t) : s.getValue k = .ok t := by
  obtain ⟨h1, ⟨a, v, ha, hv, hm⟩, h3, h4⟩ := h
  have hvm : s.getDec (k + 1) 4 = .ok t.vm.toNat := by
    obtain ⟨x, y, z, hx, hy, hz, rfl⟩ := hv
    obtain ⟨ha9, ha⟩ := (s.digitAt_iff _ _).1 ha
    obtain ⟨hx9, hx⟩ := (s.digitAt_iff _ _).1 hx
    obtain ⟨hy9, hy⟩ := (s.digitAt_iff _ _).1 hy
    obtain ⟨hz9, hz⟩ := (s.digitAt_iff _ _).1 hz
    simp only [State.getDec, State.getDecFrom, Nat.add_assoc, Nat.reduceAdd] at *
    simp only [ha, hx, hy, hz, decDigit_decChar ha9, decDigit_decChar hx9, decDigit_decChar hy9, decDigit_decChar hz9]
    congr 1; omega
  simp only [State.getValue, State.getSign_of_signAt h1, State.getSign_of_signAt h3, hvm, (State.getDec_of_dec2At h4).1,
    bind, Except.bind, pure, Except.pure]
  simp

/-! ### One block -/

/-- A block decodes to a reading exactly when each of its fields does (43_md.md R142). -/
theorem State.decodeBlock_ok_iff (s : State) (b : Nat) (e : Reading) :
    s.decodeBlock b = .ok e ↔
      e.comp.toNat < 1000 ∧ s.HasBytes b (decChars 3 e.comp.toNat) ∧ s.getValue (b + 4) = .ok e.value ∧
        s.getHex2 (b + 13) = .ok e.opsts ∧ s.getHex2 (b + 16) = .ok e.errsts ∧ e.serial.toNat < 1000 ∧
        s.HasBytes (b + 19) (decChars 3 e.serial.toNat) := by
  simp only [State.decodeBlock, except_bind_ok_iff, State.getDec_ok_iff, Nat.add_zero, Except.ok.injEq]
  constructor
  · rintro ⟨c, ⟨hc, h1⟩, v, h2, o, h3, x, h4, sr, ⟨hs, h5⟩, rfl⟩
    have e1 : (BitVec.ofNat 10 c).toNat = c := by simp only [BitVec.toNat_ofNat]; omega
    have e2 : (BitVec.ofNat 10 sr).toNat = sr := by simp only [BitVec.toNat_ofNat]; omega
    simp only [e1, e2]
    exact ⟨by omega, h1, h2, h3, h4, by omega, h5⟩
  · rintro ⟨hc, h1, h2, h3, h4, hs, h5⟩
    exact ⟨_, ⟨by omega, h1⟩, _, h2, _, h3, _, h4, _, ⟨by omega, h5⟩, by simp⟩

/-- A block that holds a reading field by field decodes to it. -/
theorem State.decodeBlock_of_blockAt {s : State} {b : Nat} {e : Reading} (h : s.BlockAt b e) :
    s.decodeBlock b = .ok e := by
  obtain ⟨h1, h2, ⟨x1, y1, hx1, hy1, hv1⟩, ⟨x2, y2, hx2, hy2, hv2⟩, h5⟩ := h
  obtain ⟨g1, l1⟩ := State.getDec_of_dec3At h1
  obtain ⟨g5, l5⟩ := State.getDec_of_dec3At h5
  rw [State.decodeBlock_ok_iff]
  exact ⟨by omega, ((s.getDec_ok_iff _ _ _).1 g1).2, State.getValue_of_valueAt h2,
    (s.getHex2_ok_iff _ _).2 ⟨_, _, hx1, hy1, hv1⟩, (s.getHex2_ok_iff _ _).2 ⟨_, _, hx2, hy2, hv2⟩, by omega,
    ((s.getDec_ok_iff _ _ _).1 g5).2⟩

/-- Nothing outside a block's 30 characters is read. -/
theorem State.decodeBlock_congr {s t : State} (b : Nat) (h : ∀ j, b ≤ j → j < b + 30 → t.fbGet j = s.fbGet j) :
    t.decodeBlock b = s.decodeBlock b := by
  simp only [State.decodeBlock]
  rw [State.getDec_congr (b + 0) 3 (fun j h1 h2 => h j (by omega) (by omega)),
    State.getValue_congr (b + 4) (fun j h1 h2 => h j (by omega) (by omega)),
    State.getHex2_congr (b + 13) (fun j h1 h2 => h j (by omega) (by omega)),
    State.getHex2_congr (b + 16) (fun j h1 h2 => h j (by omega) (by omega)),
    State.getDec_congr (b + 19) 3 (fun j h1 h2 => h j (by omega) (by omega))]

/-- The character at offset `o` of the block at `b` is in its class. -/
def State.offsetOk (s : State) (b o : Nat) : Prop := (blockClass o).has (s.fbGet (b + o)) = true

theorem blockClass_decimal {o : Nat} (h : o < 3 ∨ 5 ≤ o ∧ o < 9 ∨ 10 ≤ o ∧ o < 12 ∨ 19 ≤ o ∧ o < 22) :
    blockClass o = .decimal := by
  unfold blockClass; split_ifs <;> first | rfl | omega

theorem blockClass_hex {o : Nat} (h : 13 ≤ o ∧ o < 15 ∨ 16 ≤ o ∧ o < 18) : blockClass o = .hex := by
  unfold blockClass; split_ifs <;> first | rfl | omega

theorem blockClass_sign {o : Nat} (h : o = 4 ∨ o = 9) : blockClass o = .sign := by
  unfold blockClass; split_ifs <;> first | rfl | omega

theorem blockClass_anything {o : Nat} (h : o = 3 ∨ o = 12 ∨ o = 15 ∨ o = 18 ∨ 22 ≤ o) : blockClass o = .anything := by
  unfold blockClass; split_ifs <;> first | rfl | omega

theorem State.offsetOk_anything (s : State) (b : Nat) {o : Nat} (h : o = 3 ∨ o = 12 ∨ o = 15 ∨ o = 18 ∨ 22 ≤ o) :
    s.offsetOk b o := by unfold State.offsetOk; rw [blockClass_anything h]; rfl

/-- A field decodes only if its characters are in their class. -/
theorem State.offsetOk_of_getDec {s : State} {b o w v : Nat} (h : s.getDec (b + o) w = .ok v)
    (hc : ∀ j, j < w → blockClass (o + j) = .decimal) : ∀ j, j < w → s.offsetOk b (o + j) := by
  intro j hj
  obtain ⟨-, hb⟩ := (s.getDec_ok_iff _ _ _).1 h
  have := (State.hasBytes_iff_getElem _ _ _).1 hb j (by simpa)
  unfold State.offsetOk
  rw [hc j hj, decimal_has_iff, ← Nat.add_assoc, this]
  simp only [decChars, List.getElem_map, List.getElem_range]
  rw [decDigit_decChar (by omega)]; rfl

theorem State.offsetOk_of_getHex2 {s : State} {b o : Nat} {v : Byte} (h : s.getHex2 (b + o) = .ok v)
    (hc : ∀ j, j < 2 → blockClass (o + j) = .hex) : ∀ j, j < 2 → s.offsetOk b (o + j) := by
  intro j hj
  obtain ⟨x, y, hx, hy, -⟩ := (s.getHex2_ok_iff _ _).1 h
  unfold State.offsetOk
  rw [hc j hj, hex_has_iff]
  have : j = 0 ∨ j = 1 := by omega
  rcases this with rfl | rfl
  · simp [hx]
  · rw [← Nat.add_assoc, hy]; rfl

theorem State.offsetOk_of_getSign {s : State} {b o : Nat} {v : BitVec 1} (h : s.getSign (b + o) = .ok v)
    (hc : blockClass o = .sign) : s.offsetOk b o := by
  unfold State.offsetOk
  rw [hc, sign_has_iff, (s.getSign_ok_iff _ _).1 h]; simp

/-- The error of a field is for its lowest-indexed character outside its class. -/
theorem State.getDec_error_offset {s : State} {b o w : Nat} {f : Failure} (h : s.getDec (b + o) w = .error f)
    (hc : ∀ j, j < w → blockClass (o + j) = .decimal) :
    ∃ j, j < w ∧ (∀ i, i < j → s.offsetOk b (o + i)) ∧ ¬s.offsetOk b (o + j) ∧ f = s.malformed (b + (o + j)) := by
  obtain ⟨j, hj, hi, hn, hf⟩ := s.getDec_error _ _ _ h
  refine ⟨j, hj, fun i hij => ?_, ?_, by rw [hf, Nat.add_assoc]⟩
  · have := hi i hij
    unfold State.offsetOk
    rw [hc i (by omega), decimal_has_iff, ← Nat.add_assoc]
    exact Option.isSome_iff_ne_none.2 this
  · unfold State.offsetOk
    rw [hc j hj, decimal_has_iff, ← Nat.add_assoc, hn]; simp

theorem State.getHex2_error_offset {s : State} {b o : Nat} {f : Failure} (h : s.getHex2 (b + o) = .error f)
    (hc : ∀ j, j < 2 → blockClass (o + j) = .hex) :
    ∃ j, j < 2 ∧ (∀ i, i < j → s.offsetOk b (o + i)) ∧ ¬s.offsetOk b (o + j) ∧ f = s.malformed (b + (o + j)) := by
  obtain ⟨j, hj, hi, hn, hf⟩ := s.getHex2_error _ _ h
  refine ⟨j, hj, fun i hij => ?_, ?_, by rw [hf, Nat.add_assoc]⟩
  · have := hi i hij
    unfold State.offsetOk
    rw [hc i (by omega), hex_has_iff, ← Nat.add_assoc]
    exact Option.isSome_iff_ne_none.2 this
  · unfold State.offsetOk
    rw [hc j hj, hex_has_iff, ← Nat.add_assoc, hn]; simp

theorem State.getSign_error_offset {s : State} {b o : Nat} {f : Failure} (h : s.getSign (b + o) = .error f)
    (hc : blockClass o = .sign) : ¬s.offsetOk b o ∧ f = s.malformed (b + o) := by
  obtain ⟨hn, hf⟩ := s.getSign_error _ _ h
  refine ⟨?_, hf⟩
  unfold State.offsetOk
  rw [hc, sign_has_iff, hn]; simp

/-- The error of a block is for its lowest-indexed examined character outside its class (43_md.md R142). -/
theorem State.decodeBlock_error {s : State} {b : Nat} {f : Failure} (h : s.decodeBlock b = .error f) :
    ∃ o, o < 30 ∧ (∀ i, i < o → s.offsetOk b i) ∧ ¬s.offsetOk b o ∧ f = s.malformed (b + o) := by
  simp only [State.decodeBlock, State.getValue, except_bind_error_iff, except_bind_ok_iff, Nat.add_assoc, Nat.reduceAdd,
    pure, Except.pure] at h
  have dd : ∀ {o w : Nat}, (∀ j, j < w → o + j < 3 ∨ 5 ≤ o + j ∧ o + j < 9 ∨ 10 ≤ o + j ∧ o + j < 12 ∨ 19 ≤ o + j ∧ o + j < 22) →
      ∀ j, j < w → blockClass (o + j) = .decimal := fun hw j hj => blockClass_decimal (hw j hj)
  have c0 : ∀ j, j < 3 → blockClass (0 + j) = .decimal := dd (by omega)
  have c5 : ∀ j, j < 4 → blockClass (5 + j) = .decimal := dd (by omega)
  have c10 : ∀ j, j < 2 → blockClass (10 + j) = .decimal := dd (by omega)
  have c19 : ∀ j, j < 3 → blockClass (19 + j) = .decimal := dd (by omega)
  have c13 : ∀ j, j < 2 → blockClass (13 + j) = .hex := fun j hj => blockClass_hex (by omega)
  have c16 : ∀ j, j < 2 → blockClass (16 + j) = .hex := fun j hj => blockClass_hex (by omega)
  have c4 : blockClass 4 = .sign := blockClass_sign (by omega)
  have c9 : blockClass 9 = .sign := blockClass_sign (by omega)
  rcases h with h | ⟨_, h0, h⟩
  · obtain ⟨j, hj, hi, hn, hf⟩ := State.getDec_error_offset h c0
    exact ⟨0 + j, by omega, fun i h' => by simpa using hi i (by omega), hn, hf⟩
  have k0 : ∀ i, i < 4 → s.offsetOk b i := fun i h' => by
    by_cases h3 : i = 3
    · exact s.offsetOk_anything b (by omega)
    · simpa using State.offsetOk_of_getDec h0 c0 i (by omega)
  rcases h with h | ⟨_, hval, h⟩
  · rcases h with h | ⟨_, h4, h⟩
    · obtain ⟨hn, hf⟩ := State.getSign_error_offset h c4
      exact ⟨4, by omega, fun i h' => k0 i (by omega), hn, hf⟩
    have k4 : ∀ i, i < 5 → s.offsetOk b i := fun i h' => by
      by_cases h4' : i = 4
      · subst h4'; exact State.offsetOk_of_getSign h4 c4
      · exact k0 i (by omega)
    rcases h with h | ⟨_, h5, h⟩
    · obtain ⟨j, hj, hi, hn, hf⟩ := State.getDec_error_offset h c5
      refine ⟨5 + j, by omega, fun i h' => ?_, hn, hf⟩
      by_cases h5' : i < 5
      · exact k4 i h5'
      · obtain ⟨d, rfl⟩ : ∃ d, i = 5 + d := ⟨i - 5, by omega⟩
        exact hi d (by omega)
    have k5 : ∀ i, i < 9 → s.offsetOk b i := fun i h' => by
      by_cases h5' : i < 5
      · exact k4 i h5'
      · obtain ⟨d, rfl⟩ : ∃ d, i = 5 + d := ⟨i - 5, by omega⟩
        exact State.offsetOk_of_getDec h5 c5 d (by omega)
    rcases h with h | ⟨_, h9, h⟩
    · obtain ⟨hn, hf⟩ := State.getSign_error_offset h c9
      exact ⟨9, by omega, fun i h' => k5 i (by omega), hn, hf⟩
    have k9 : ∀ i, i < 10 → s.offsetOk b i := fun i h' => by
      by_cases h9' : i = 9
      · subst h9'; exact State.offsetOk_of_getSign h9 c9
      · exact k5 i (by omega)
    rcases h with h | ⟨_, h10, h⟩
    · obtain ⟨j, hj, hi, hn, hf⟩ := State.getDec_error_offset h c10
      refine ⟨10 + j, by omega, fun i h' => ?_, hn, hf⟩
      by_cases h5' : i < 10
      · exact k9 i h5'
      · obtain ⟨d, rfl⟩ : ∃ d, i = 10 + d := ⟨i - 10, by omega⟩
        exact hi d (by omega)
    · simp at h
  obtain ⟨_, h4, _, h5, _, h9, _, h10, -⟩ := hval
  have k12 : ∀ i, i < 13 → s.offsetOk b i := fun i h' => by
    have : i < 4 ∨ i = 4 ∨ (5 ≤ i ∧ i < 9) ∨ i = 9 ∨ (10 ≤ i ∧ i < 12) ∨ i = 12 := by omega
    rcases this with g | rfl | g | rfl | g | rfl
    · exact k0 i g
    · exact State.offsetOk_of_getSign h4 c4
    · obtain ⟨d, rfl⟩ : ∃ d, i = 5 + d := ⟨i - 5, by omega⟩
      exact State.offsetOk_of_getDec h5 c5 d (by omega)
    · exact State.offsetOk_of_getSign h9 c9
    · obtain ⟨d, rfl⟩ : ∃ d, i = 10 + d := ⟨i - 10, by omega⟩
      exact State.offsetOk_of_getDec h10 c10 d (by omega)
    · exact s.offsetOk_anything b (by omega)
  rcases h with h | ⟨_, h13, h⟩
  · obtain ⟨j, hj, hi, hn, hf⟩ := State.getHex2_error_offset h c13
    refine ⟨13 + j, by omega, fun i h' => ?_, hn, hf⟩
    by_cases g : i < 13
    · exact k12 i g
    · obtain ⟨d, rfl⟩ : ∃ d, i = 13 + d := ⟨i - 13, by omega⟩
      exact hi d (by omega)
  have k13 : ∀ i, i < 16 → s.offsetOk b i := fun i h' => by
    have : i < 13 ∨ (13 ≤ i ∧ i < 15) ∨ i = 15 := by omega
    rcases this with g | g | rfl
    · exact k12 i g
    · obtain ⟨d, rfl⟩ : ∃ d, i = 13 + d := ⟨i - 13, by omega⟩
      exact State.offsetOk_of_getHex2 h13 c13 d (by omega)
    · exact s.offsetOk_anything b (by omega)
  rcases h with h | ⟨_, h16, h⟩
  · obtain ⟨j, hj, hi, hn, hf⟩ := State.getHex2_error_offset h c16
    refine ⟨16 + j, by omega, fun i h' => ?_, hn, hf⟩
    by_cases g : i < 16
    · exact k13 i g
    · obtain ⟨d, rfl⟩ : ∃ d, i = 16 + d := ⟨i - 16, by omega⟩
      exact hi d (by omega)
  have k16 : ∀ i, i < 19 → s.offsetOk b i := fun i h' => by
    have : i < 16 ∨ (16 ≤ i ∧ i < 18) ∨ i = 18 := by omega
    rcases this with g | g | rfl
    · exact k13 i g
    · obtain ⟨d, rfl⟩ : ∃ d, i = 16 + d := ⟨i - 16, by omega⟩
      exact State.offsetOk_of_getHex2 h16 c16 d (by omega)
    · exact s.offsetOk_anything b (by omega)
  rcases h with h | ⟨_, h19, h⟩
  · obtain ⟨j, hj, hi, hn, hf⟩ := State.getDec_error_offset h c19
    refine ⟨19 + j, by omega, fun i h' => ?_, hn, hf⟩
    by_cases g : i < 19
    · exact k16 i g
    · obtain ⟨d, rfl⟩ : ∃ d, i = 19 + d := ⟨i - 19, by omega⟩
      exact hi d (by omega)
  · simp at h

/-- A block that decodes has every examined character in its class. -/
theorem State.decodeBlock_ok_offset {s : State} {b : Nat} {e : Reading} (h : s.decodeBlock b = .ok e) :
    ∀ o, o < 30 → s.offsetOk b o := by
  simp only [State.decodeBlock, State.getValue, except_bind_ok_iff, Nat.add_assoc, Nat.reduceAdd] at h
  obtain ⟨_, h0, _, ⟨_, h4, _, h5, _, h9, _, h10, -⟩, _, h13, _, h16, _, h19, -⟩ := h
  intro i hi
  have : i < 3 ∨ i = 4 ∨ (5 ≤ i ∧ i < 9) ∨ i = 9 ∨ (10 ≤ i ∧ i < 12) ∨ (13 ≤ i ∧ i < 15) ∨ (16 ≤ i ∧ i < 18) ∨
      (19 ≤ i ∧ i < 22) ∨ (i = 3 ∨ i = 12 ∨ i = 15 ∨ i = 18 ∨ 22 ≤ i) := by omega
  rcases this with g | rfl | g | rfl | g | g | g | g | g
  · simpa using State.offsetOk_of_getDec (o := 0) h0 (fun j hj => blockClass_decimal (by omega)) i g
  · exact State.offsetOk_of_getSign h4 (blockClass_sign (by omega))
  · obtain ⟨d, rfl⟩ : ∃ d, i = 5 + d := ⟨i - 5, by omega⟩
    exact State.offsetOk_of_getDec h5 (fun j hj => blockClass_decimal (by omega)) d (by omega)
  · exact State.offsetOk_of_getSign h9 (blockClass_sign (by omega))
  · obtain ⟨d, rfl⟩ : ∃ d, i = 10 + d := ⟨i - 10, by omega⟩
    exact State.offsetOk_of_getDec h10 (fun j hj => blockClass_decimal (by omega)) d (by omega)
  · obtain ⟨d, rfl⟩ : ∃ d, i = 13 + d := ⟨i - 13, by omega⟩
    exact State.offsetOk_of_getHex2 h13 (fun j hj => blockClass_hex (by omega)) d (by omega)
  · obtain ⟨d, rfl⟩ : ∃ d, i = 16 + d := ⟨i - 16, by omega⟩
    exact State.offsetOk_of_getHex2 h16 (fun j hj => blockClass_hex (by omega)) d (by omega)
  · obtain ⟨d, rfl⟩ : ∃ d, i = 19 + d := ⟨i - 19, by omega⟩
    exact State.offsetOk_of_getDec h19 (fun j hj => blockClass_decimal (by omega)) d (by omega)
  · exact s.offsetOk_anything b g

/-! ### The blocks of a payload -/

/-- Blocks decode to readings exactly when each does, in wire order (43_md.md R140). -/
theorem State.decodeBlocks_ok_iff (s : State) (b n : Nat) (es : List Reading) :
    s.decodeBlocks b n = .ok es ↔
      es.length = n ∧ ∀ i (h : i < es.length), s.decodeBlock (b + 30 * i) = .ok es[i] := by
  induction n generalizing b es with
  | zero =>
    simp only [State.decodeBlocks, Except.ok.injEq]
    constructor
    · rintro rfl; simp
    · rintro ⟨h, -⟩; exact (List.length_eq_zero_iff.1 h).symm
  | succ n ih =>
    simp only [State.decodeBlocks, except_bind_ok_iff, pure, Except.pure, Except.ok.injEq]
    constructor
    · rintro ⟨e, he, es', hes, rfl⟩
      obtain ⟨hl, hi⟩ := (ih _ _).1 hes
      refine ⟨by simp [hl], fun i h => ?_⟩
      cases i with
      | zero => simpa using he
      | succ i =>
        have := hi i (by simpa using h)
        rw [List.getElem_cons_succ, ← this]; congr 1; omega
    · rintro ⟨hl, hi⟩
      cases es with
      | nil => simp at hl
      | cons e es =>
        refine ⟨e, hi 0 (by simp), es, (ih _ _).2 ⟨by simpa using hl, fun i h => ?_⟩, rfl⟩
        have := hi (i + 1) (by simpa using h)
        rw [List.getElem_cons_succ] at this
        rw [← this]; congr 1; omega

/-- The error of the blocks is that of the first one, in wire order, that has a malformed field. -/
theorem State.decodeBlocks_error {s : State} {b n : Nat} {f : Failure} (h : s.decodeBlocks b n = .error f) :
    ∃ i, i < n ∧ (∀ j, j < i → ∃ e, s.decodeBlock (b + 30 * j) = .ok e) ∧ s.decodeBlock (b + 30 * i) = .error f := by
  induction n generalizing b with
  | zero => simp [State.decodeBlocks] at h
  | succ n ih =>
    simp only [State.decodeBlocks, except_bind_error_iff] at h
    rcases h with h | ⟨e, he, h⟩
    · exact ⟨0, by omega, by omega, by simpa using h⟩
    · rcases h with h | ⟨_, _, h⟩
      · obtain ⟨i, hi, hj, hf⟩ := ih h
        refine ⟨i + 1, by omega, fun j hj' => ?_, by rw [← hf]; congr 1; omega⟩
        cases j with
        | zero => exact ⟨e, by simpa using he⟩
        | succ j =>
          obtain ⟨e', he'⟩ := hj j (by omega)
          exact ⟨e', by rw [← he']; congr 1; omega⟩
      · simp [pure, Except.pure] at h

theorem State.decodeBlocks_congr {s t : State} (b n : Nat) (h : ∀ j, b ≤ j → j < b + 30 * n → t.fbGet j = s.fbGet j) :
    t.decodeBlocks b n = s.decodeBlocks b n := by
  induction n generalizing b with
  | zero => rfl
  | succ n ih =>
    simp only [State.decodeBlocks]
    rw [State.decodeBlock_congr b (fun j h1 h2 => h j h1 (by omega)),
      ih (b + 30) (fun j h1 h2 => h j (by omega) (by omega))]

/-- Nothing outside the payload is read by the dispatcher and its handlers (10_state.md R30). -/
theorem State.dispatch_congr {s t : State} {P : Nat} (h : ∀ j, 1 ≤ j → j < P + 1 → t.fbGet j = s.fbGet j) :
    t.dispatch P = s.dispatch P := by
  unfold State.dispatch
  by_cases hP : P < 2
  · rw [if_pos hP, if_pos hP]
  · have h1 := h 1 (by omega) (by omega)
    have h2 := h 2 (by omega) (by omega)
    have htag : t.tagType = s.tagType := by simp only [State.tagType, h1, h2]
    have hda : t.decodeDa P = s.decodeDa P := by
      unfold State.decodeDa
      by_cases h5 : P = 5
      · rw [State.getDec_congr 3 3 (fun j a b => h j (by omega) (by omega))]
      · simp [h5]
    have hst : t.decodeSt P = s.decodeSt P := by
      unfold State.decodeSt
      by_cases h6 : P < 6
      · simp [h6]
      · rw [State.getDec_congr 3 3 (fun j a b => h j (by omega) (by omega))]
    have hmd : t.decodeMd P = s.decodeMd P := by
      unfold State.decodeMd
      by_cases h4 : P < 4
      · simp [h4]
      · rw [State.getDec_congr 3 2 (fun j a b => h j (by omega) (by omega))]
        rw [if_neg h4, if_neg h4]
        cases hn : s.getDec 3 2 with
        | error f => rfl
        | ok n =>
          simp only [bind, Except.bind]
          by_cases hE : P = 5 + 30 * n
          · rw [State.decodeBlocks_congr 6 n (fun j a b => h j (by omega) (by omega))]
          · simp [hE]
    rw [htag, hda, hst, hmd, h1, h2]

end Sys2Proof.Machine
end

