-- ==== Sys2Proof/Laws/Encoder.lean ====
section
/-! SUPPORT. The encode direction: what each type encoder answers, and that a block it emits decodes to its reading. -/

namespace Sys2Proof.Machine

@[simp] theorem Reading.block_length (e : Reading) (t : Triple) : (e.block t).length = 30 := by simp [Reading.block]

/-- The emitted triple is what `normvalue` answers, when it answers (44_value_field.md R152). -/
theorem Triple.norm_eq_some {t u : Triple} : t.norm = some u ↔ (t.ee.toNat ≤ 99 ∨ t.es = 1) ∧ u = t.emitted := by
  unfold Triple.norm Triple.emitted
  by_cases h : t.ee.toNat ≤ 99
  · simp [h, eq_comm]
  · by_cases he : t.es = 1#1
    · simp [h, he, sentinel, eq_comm]
    · simp [h, he]

theorem Triple.emitted_legal {t : Triple} (h : t.vm.toNat ≤ 9999) : t.emitted.vm.toNat ≤ 9999 ∧ t.emitted.ee.toNat ≤ 99 := by
  unfold Triple.emitted
  split
  · exact ⟨h, by assumption⟩
  · simp

/-- An entry encodes exactly when every field fits, and its block carries the emitted triple (45_encode.md R174). -/
theorem encodeReading_ok_iff (i : Nat) (e : Reading) (bs : List Byte) :
    encodeReading i e = .ok bs ↔ e.Encodable ∧ bs = e.block e.value.emitted := by
  unfold encodeReading Reading.Encodable
  by_cases h1 : e.comp.toNat > 999
  · simp only [h1, if_true, reduceCtorEq, false_iff]; omega
  · by_cases h2 : e.value.vm.toNat > 9999
    · simp only [h1, h2, if_true, if_false, reduceCtorEq, false_iff]; omega
    · rcases e.value.norm_cases with ⟨h3, hn⟩ | ⟨h3, h4, hn⟩ | ⟨h3, h4, hn⟩
      · have hu := (Triple.norm_eq_some.1 hn).2
        by_cases h5 : e.serial.toNat > 999
        · simp only [h1, h2, hn, h5, if_true, if_false, reduceCtorEq, false_iff]; omega
        · simp only [h1, h2, hn, h5, if_false, Except.ok.injEq, ← hu]
          constructor
          · rintro rfl; exact ⟨⟨by omega, by omega, .inl h3, by omega⟩, rfl⟩
          · rintro ⟨-, rfl⟩; rfl
      · have hu := (Triple.norm_eq_some.1 hn).2
        by_cases h5 : e.serial.toNat > 999
        · simp only [h1, h2, hn, h5, if_true, if_false, reduceCtorEq, false_iff]; omega
        · simp only [h1, h2, hn, h5, if_false, Except.ok.injEq, ← hu]
          constructor
          · rintro rfl; exact ⟨⟨by omega, by omega, .inr h4, by omega⟩, rfl⟩
          · rintro ⟨-, rfl⟩; rfl
      · simp only [h1, h2, hn, if_false, reduceCtorEq, false_iff]
        rintro ⟨⟨-, -, h | h, -⟩, -⟩
        · omega
        · exact h4 h

/-- Entries encode exactly when each does, their blocks one after another (45_encode.md R174). -/
theorem State.encodeReadings_ok_iff (s : State) (i n : Nat) (bs : List Byte) :
    s.encodeReadings i n = .ok bs ↔
      (∀ j, j < n → (s.rtReading (i + j)).Encodable) ∧
        bs = (List.range n).flatMap fun j => (s.rtReading (i + j)).block (s.rtReading (i + j)).value.emitted := by
  induction n generalizing i bs with
  | zero => simp [State.encodeReadings, eq_comm]
  | succ n ih =>
    simp only [State.encodeReadings, except_bind_ok_iff, encodeReading_ok_iff, ih, pure, Except.pure, Except.ok.injEq,
      List.range_succ_eq_map, List.flatMap_cons, List.flatMap_map, Nat.add_zero]
    constructor
    · rintro ⟨b, ⟨hb, rfl⟩, bs', ⟨hbs, rfl⟩, rfl⟩
      refine ⟨fun j hj => ?_, ?_⟩
      · cases j with
        | zero => exact hb
        | succ j => have := hbs j (by omega); rwa [Nat.add_assoc, Nat.add_comm 1] at this
      · simp only [Nat.add_assoc, Nat.add_comm 1, Nat.succ_eq_add_one]
    · rintro ⟨h, rfl⟩
      refine ⟨_, ⟨h 0 (by omega), rfl⟩, _, ⟨fun j hj => ?_, rfl⟩, ?_⟩
      · have := h (j + 1) (by omega); rwa [Nat.add_assoc, Nat.add_comm 1]
      · simp only [Nat.add_assoc, Nat.add_comm 1, Nat.succ_eq_add_one]

/-- The error of the entries is that of the lowest one that fails a check (60_exceptions.md R216). -/
theorem State.encodeReadings_error (s : State) (i n : Nat) (f : Failure) (h : s.encodeReadings i n = .error f) :
    ∃ j, j < n ∧ (∀ l, l < j → (s.rtReading (i + l)).Encodable) ∧ encodeReading (i + j) (s.rtReading (i + j)) = .error f := by
  induction n generalizing i with
  | zero => simp [State.encodeReadings] at h
  | succ n ih =>
    simp only [State.encodeReadings, except_bind_error_iff] at h
    rcases h with h | ⟨b, hb, h⟩
    · exact ⟨0, by omega, by omega, h⟩
    · rcases h with h | ⟨_, _, h⟩
      · obtain ⟨j, hj, hl, hf⟩ := ih _ h
        refine ⟨j + 1, by omega, fun l hl' => ?_, by rwa [Nat.add_assoc, Nat.add_comm 1] at hf⟩
        cases l with
        | zero => exact ((encodeReading_ok_iff _ _ _).1 hb).1
        | succ l => have := hl l (by omega); rwa [Nat.add_assoc, Nat.add_comm 1] at this
      · simp [pure, Except.pure] at h

/-- The entry at which encoding fails is the lowest that is not encodable. -/
theorem State.encodeReadings_error_of {s : State} {i n j : Nat} {f : Failure} (hj : j < n)
    (hl : ∀ l, l < j → (s.rtReading (i + l)).Encodable) (hf : encodeReading (i + j) (s.rtReading (i + j)) = .error f) :
    s.encodeReadings i n = .error f := by
  cases h : s.encodeReadings i n with
  | ok bs =>
    have he := ((State.encodeReadings_ok_iff _ _ _ _).1 h).1 j hj
    have := (encodeReading_ok_iff (i + j) _ _).2 ⟨he, rfl⟩
    rw [hf] at this; exact absurd this (by simp)
  | error g =>
    obtain ⟨j', hj', hl', hg⟩ := s.encodeReadings_error _ _ _ h
    rcases Nat.lt_trichotomy j j' with h' | h' | h'
    · have := (encodeReading_ok_iff (i + j) _ _).2 ⟨hl' j h', rfl⟩
      rw [hf] at this; exact absurd this (by simp)
    · subst h'; rw [hf] at hg; exact hg.symm
    · have := (encodeReading_ok_iff (i + j') _ _).2 ⟨hl j' h', rfl⟩
      rw [hg] at this; exact absurd this (by simp)

theorem State.encodeReadings_congr {s t : State} (i n : Nat) (h : ∀ j, j < n → t.rtReading (i + j) = s.rtReading (i + j)) :
    t.encodeReadings i n = s.encodeReadings i n := by
  induction n generalizing i with
  | zero => rfl
  | succ n ih =>
    simp only [State.encodeReadings]
    have h0 := h 0 (by omega)
    rw [Nat.add_zero] at h0
    rw [h0, ih (i + 1) (fun j hj => by have := h (j + 1) (by omega); rwa [Nat.add_assoc, Nat.add_comm 1])]

/-- A block that stands in the buffer decodes to its reading, with the triple it carries. -/
theorem State.decodeBlock_of_block {s : State} {b : Nat} {e : Reading} {t : Triple} (h : s.HasBytes b (e.block t))
    (hc : e.comp.toNat ≤ 999) (hv : t.vm.toNat ≤ 9999) (he : t.ee.toNat ≤ 99) (hs : e.serial.toNat ≤ 999) :
    s.decodeBlock b = .ok { e with value := t } := by
  simp only [Reading.block, State.hasBytes_append, List.length_append, decChars_length, List.length_cons,
    List.length_nil, Triple.chars_length, hexChars_length, List.length_replicate, Nat.reduceAdd] at h
  obtain ⟨⟨⟨⟨⟨⟨⟨⟨⟨⟨⟨h0, -⟩, h4⟩, -⟩, h13⟩, -⟩, h16⟩, -⟩, h19⟩, -⟩, -⟩, -⟩ := h
  rw [State.decodeBlock_ok_iff]
  exact ⟨by simpa using (by omega : e.comp.toNat < 1000), h0, (s.getValue_ok_iff _ _).2 ⟨hv, he, h4⟩,
    State.getHex2_of_hexChars h13, State.getHex2_of_hexChars h16, by simpa using (by omega : e.serial.toNat < 1000), h19⟩

/-- Blocks of 30 characters one after another: block `i` stands 30·i further on. -/
theorem State.hasBytes_flatMap {α : Type} (s : State) (k : Nat) (l : List α) (g : α → List Byte) (hg : ∀ a, (g a).length = 30) :
    s.HasBytes k (l.flatMap g) ↔ ∀ i (h : i < l.length), s.HasBytes (k + 30 * i) (g l[i]) := by
  induction l generalizing k with
  | nil => simp
  | cons a l ih =>
    rw [List.flatMap_cons, State.hasBytes_append, ih, hg]
    constructor
    · rintro ⟨h0, h⟩ i hi
      cases i with
      | zero => exact h0
      | succ i =>
        have := h i (by simpa using hi)
        rw [List.getElem_cons_succ]
        have e : k + 30 * (i + 1) = k + 30 + 30 * i := by omega
        rw [e]; exact this
    · intro h
      refine ⟨h 0 (by simp), fun i hi => ?_⟩
      have := h (i + 1) (by simpa using hi)
      rw [List.getElem_cons_succ] at this
      have e : k + 30 * (i + 1) = k + 30 + 30 * i := by omega
      rwa [e] at this

theorem length_flatMap_blocks {α : Type} (l : List α) (g : α → List Byte) (hg : ∀ a, (g a).length = 30) :
    (l.flatMap g).length = 30 * l.length := by
  induction l with
  | nil => rfl
  | cons a l ih => simp only [List.flatMap_cons, List.length_append, hg, ih, List.length_cons]; omega

/-- What the type encoders answer on success: the payload they put into the buffer and its length (45_encode.md R171 to
R174). -/
theorem State.encodeRecord_ok {s : State} {p : EncodedPayload} (h : s.encodeRecord = .ok p) :
    (s.ttype = 1 ∧ s.compP = false ∧ p = { bytes := [0x44, 0x41], length := 2 }) ∨
    (s.ttype = 1 ∧ s.compP = true ∧ s.compVal.toNat ≤ 999 ∧
      p = { bytes := [0x44, 0x41] ++ decChars 3 s.compVal.toNat, length := 5 }) ∨
    (s.ttype = 2 ∧ s.compVal.toNat ≤ 999 ∧ s.cmdlen.toNat ≤ 4086 ∧
      p = { bytes := [0x53, 0x54] ++ decChars 3 s.compVal.toNat, length := 5 + s.cmdlen.toNat }) ∨
    (s.ttype = 3 ∧ s.count.toNat ≤ 99 ∧ (∀ i, i < s.count.toNat → (s.rtReading i).Encodable) ∧
      p = { bytes := [0x4D, 0x44] ++ decChars 2 s.count.toNat ++ [space] ++
              (List.range s.count.toNat).flatMap fun i => (s.rtReading i).block (s.rtReading i).value.emitted
            length := 5 + 30 * s.count.toNat }) := by
  have tt : ∀ n : Nat, s.ttype.toNat = n → s.ttype = BitVec.ofNat 2 n := fun n hn => by subst hn; simp
  unfold State.encodeRecord at h
  split at h
  · next ht =>
    have ht' : s.ttype = 1 := tt 1 ht
    unfold State.encodeDa at h
    split at h
    · simp at h
    · next hr =>
      split at h
      · next hp =>
        right; left
        simp only [hp, Bool.true_and, decide_eq_true_eq] at hr
        exact ⟨ht', hp, by omega, (by simpa using h.symm)⟩
      · next hp => left; exact ⟨ht', by simpa using hp, (by simpa using h.symm)⟩
  · next ht =>
    have ht' : s.ttype = 2 := tt 2 ht
    unfold State.encodeSt at h
    split at h
    · simp at h
    · split at h
      · simp at h
      · right; right; left; exact ⟨ht', by omega, by omega, (by simpa using h.symm)⟩
  · next ht =>
    have ht' : s.ttype = 3 := tt 3 ht
    unfold State.encodeMd at h
    split at h
    · simp at h
    · simp only [except_bind_ok_iff, State.encodeReadings_ok_iff, Nat.zero_add, pure, Except.pure, Except.ok.injEq] at h
      obtain ⟨bs, ⟨he, rfl⟩, rfl⟩ := h
      right; right; right; exact ⟨ht', by omega, he, rfl⟩
  · simp at h

end Sys2Proof.Machine
end

