-- ==== Sys2Proof/Laws/Commands.lean ====
section
/-! SUPPORT. The procedures of the checked commands, each said once: the frame a wrap builds, what a failed frame check
leaves, what the dispatcher and the type encoders answer. -/

namespace Sys2Proof.Machine

/-- The frame `wrapframe` builds around a payload that stands in the buffer (41_frame_envelope.md R110). -/
theorem State.wrapFrame_built (s : State) (h : BitVec 2) {n : Nat} {p : List Byte} (hp : p = s.fbBytes 1 n) :
    BuiltFrame s ((s.setStatus false h).wrapFrame n).succeed h p := by
  have hlen : p.length = n := by simp [hp]
  obtain ⟨h1, h2, h3⟩ := (s.setStatus false h).wrapFrame_spec (n := n) (p := p) (by rw [hp]; rfl)
  refine ⟨?_, ?_, ?_⟩
  · rw [hlen, State.succeed, State.setReport]
    conv => lhs; rw [h1]
    rfl
  · have := (State.hasBytes_iff_fbBytes _ _ _).1 h2
    rw [frameBytes_length] at this
    rw [← this]; rfl
  · intro k hk; rw [hlen] at hk; exact h3 k hk

/-- The frame `wrapframe` builds around a payload whose first bytes were just stored (45_encode.md R170). -/
theorem State.storeBytes_wrapFrame_built (s : State) (h : BitVec 2) {n : Nat} {bs : List Byte} {p : List Byte}
    (hp : p = ((s.storeBytes 1 bs).fbBytes 1 n)) (hn : bs.length ≤ n) :
    BuiltFrame s ((((s.setStatus false h).storeBytes 1 bs).wrapFrame n).succeed) h p := by
  have hlen : p.length = n := by simp [hp]
  obtain ⟨h1, h2, h3⟩ := ((s.setStatus false h).storeBytes 1 bs).wrapFrame_spec (n := n) (p := p) (by rw [hp]; rfl)
  refine ⟨?_, ?_, ?_⟩
  · rw [hlen, State.succeed, State.setReport]
    conv => lhs; rw [h1]
    rfl
  · have := (State.hasBytes_iff_fbBytes _ _ _).1 h2
    rw [frameBytes_length] at this
    rw [← this]; rfl
  · intro k hk; rw [hlen] at hk
    have := h3 k hk
    rw [State.fbGet_storeBytes_outside _ (by omega)] at this
    exact this

/-- A built frame stands in the buffer byte for byte. -/
theorem BuiltFrame.hasBytes {s t : State} {h p} (hb : BuiltFrame s t h p) : t.HasBytes 0 (frameBytes p) := by
  rw [State.hasBytes_iff_fbBytes, frameBytes_length]; exact hb.2.1

/-- What a built frame is to the frame check: framed, with its checksum and its payload in place. -/
theorem BuiltFrame.facts {s t : State} {h p} (hb : BuiltFrame s t h p) (hp : p.length ≤ 4091) :
    t.len.toNat = p.length + 4 ∧ t.Framed ∧ t.xorFold 0 (t.len.toNat - 2) = frameChecksum p ∧ t.HasBytes 1 p := by
  have hB := BuiltFrame.hasBytes hb
  have hl : t.len.toNat = p.length + 4 := by
    rw [hb.1]; simp only [BitVec.toNat_ofNat]; omega
  simp only [frameBytes, State.hasBytes_append, State.hasBytes_cons, List.length_cons, List.length_append,
    List.length_nil, State.hasBytes_nil, and_true, Nat.zero_add, hexChars] at hB
  obtain ⟨⟨⟨h0, h1⟩, h3⟩, h4, h5⟩ := hB
  have hc : t.xorFold 0 (p.length + 2) = frameChecksum p := by
    rw [State.xorFold_eq, frameChecksum_eq]
    congr 1
    have : t.HasBytes 0 (Config.stx :: p ++ [Config.etx]) := by
      simp only [State.hasBytes_append, State.hasBytes_cons, State.hasBytes_nil, and_true, List.length_cons]
      exact ⟨⟨h0, h1⟩, by rw [Nat.zero_add]; exact h3⟩
    simpa using (State.hasBytes_iff_fbBytes _ _ _).1 this
  refine ⟨hl, ?_, by rw [hl]; exact hc, h1⟩
  unfold State.Framed
  rw [hl]
  simp only [show p.length + 4 - 2 = p.length + 2 from rfl, show p.length + 4 - 3 = p.length + 1 from rfl,
    show p.length + 4 - 1 = p.length + 3 from rfl, hc]
  exact ⟨by omega, h0, h3, h4, h5⟩

/-- A framed buffer holds the frame of its payload. -/
theorem State.Framed.hasBytes {s : State} (hf : s.Framed) :
    s.HasBytes 0 (frameBytes (s.fbBytes 1 (s.len.toNat - 4))) := by
  have h4 := hf.1
  have hcs : frameChecksum (s.fbBytes 1 (s.len.toNat - 4)) = s.xorFold 0 (s.len.toNat - 2) := by
    rw [frameChecksum_eq, State.xorFold_eq]
    congr 1
    have : s.HasBytes 0 (Config.stx :: s.fbBytes 1 (s.len.toNat - 4) ++ [Config.etx]) := by
      simp only [State.hasBytes_append, State.hasBytes_cons, State.hasBytes_nil, and_true, List.length_cons,
        State.fbBytes_length]
      refine ⟨⟨hf.2.1, ?_⟩, ?_⟩
      · rw [State.hasBytes_iff_fbBytes]; simp
      · have := hf.2.2.1; rwa [show 0 + (s.len.toNat - 4 + 1) = s.len.toNat - 3 by omega]
    have := (State.hasBytes_iff_fbBytes _ _ _).1 this
    simp only [List.length_append, List.length_cons, State.fbBytes_length, List.length_nil] at this
    rw [← this]; congr 1; omega
  simp only [frameBytes, State.hasBytes_append, State.hasBytes_cons, State.hasBytes_nil, and_true,
    List.length_cons, State.fbBytes_length, List.length_append, List.length_nil, hexChars, hcs]
  refine ⟨⟨⟨hf.2.1, ?_⟩, ?_⟩, ?_, ?_⟩
  · rw [State.hasBytes_iff_fbBytes]; simp
  · have := hf.2.2.1; rwa [show 0 + (s.len.toNat - 4 + 1) = s.len.toNat - 3 by omega]
  · have := hf.2.2.2.1; rwa [show 0 + (s.len.toNat - 4 + 1 + (0 + 1)) = s.len.toNat - 2 by omega]
  · have := hf.2.2.2.2; rwa [show 0 + (s.len.toNat - 4 + 1 + (0 + 1)) + 1 = s.len.toNat - 1 by omega]

/-- Whether a buffer is framed depends on LEN and `FB[0 .. LEN)` alone (10_state.md R30). -/
theorem State.Framed.congr {s s' : State} (hl : s'.len = s.len)
    (hb : ∀ k, k < s.len.toNat → s'.fbGet k = s.fbGet k) (h : s.Framed) : s'.Framed := by
  obtain ⟨h4, h0, h3, h2, h1⟩ := h
  have hx : s'.xorFold 0 (s.len.toNat - 2) = s.xorFold 0 (s.len.toNat - 2) :=
    State.xorFold_congr (fun j _ hj => hb j (by omega))
  refine ⟨by rw [hl]; exact h4, ?_, ?_, ?_, ?_⟩
  · rw [hb 0 (by omega)]; exact h0
  · rw [hl, hb _ (by omega)]; exact h3
  · rw [hl, hb _ (by omega), hx]; exact h2
  · rw [hl, hb _ (by omega), hx]; exact h1

/-- A frame check that fails has written at most GOTV and ACC, and fails with one of its four errors
(41_frame_envelope.md R100). -/
theorem State.frameCheck_failed {s s' : State} {f : Failure} (h : s.frameCheck = (s', some f)) :
    (∃ g a, s' = { s with gotv := g, acc := a }) ∧
      (f.code = .frameTooShort ∨ f.code = .missingStartMarker ∨ f.code = .missingEndMarker ∨ f.code = .checksumMismatch) := by
  rcases s.frameCheck_cases with h1 | h1 | h1 | h1 | h1 | h1
  · rw [h1.2] at h
    simp only [Prod.mk.injEq, Option.some.injEq] at h; obtain ⟨rfl, rfl⟩ := h; exact ⟨⟨_, _, rfl⟩, by simp⟩
  · rw [h1.2.2] at h
    simp only [Prod.mk.injEq, Option.some.injEq] at h; obtain ⟨rfl, rfl⟩ := h; exact ⟨⟨_, _, rfl⟩, by simp⟩
  · rw [h1.2.2.2] at h
    simp only [Prod.mk.injEq, Option.some.injEq] at h; obtain ⟨rfl, rfl⟩ := h; exact ⟨⟨_, _, rfl⟩, by simp⟩
  · rw [h1.2.2.2.2] at h
    simp only [Prod.mk.injEq, Option.some.injEq] at h; obtain ⟨rfl, rfl⟩ := h; exact ⟨⟨_, _, rfl⟩, by simp⟩
  · obtain ⟨_, _, _, g, _, _, h1⟩ := h1
    rw [h1] at h
    simp only [Prod.mk.injEq, Option.some.injEq] at h; obtain ⟨rfl, rfl⟩ := h; exact ⟨⟨_, _, rfl⟩, by simp⟩
  · rw [h1.2] at h; simp at h

/-- DEC on a framed buffer: what the dispatcher answers decides (42_dispatch_da_st.md R120). -/
theorem exec_dec_of_framed {s : State} (h : s.Framed) :
    exec .dec s = .next (match s.dispatch (s.len.toNat - 4) with
      | (h, .error f) => (s.passed h).clearRecord.fail f
      | (h, .ok r) => (s.passed h).commit r) := by
  have hf := State.frameCheck_pass ((s.framed_setHtype 0).2 h)
  simp only [State.setHtype_len, State.xorFold_setHtype] at hf
  have hlt := s.len.isLt
  have hd : ∀ P, ((((s.setHtype 0).setAcc (s.xorFold 0 (s.len.toNat - 2))).setGotv true).setPlen
      (BitVec.ofNat 12 (s.len.toNat - 4))).dispatch P = s.dispatch P := fun P => State.dispatch_congr (fun _ _ _ => rfl)
  have hp : (BitVec.ofNat 12 (s.len.toNat - 4)).toNat = s.len.toNat - 4 := by simp only [BitVec.toNat_ofNat]; omega
  simp only [exec, execDec, hf, hd, State.setPlen_plen, hp]
  cases hr : s.dispatch (s.len.toNat - 4) with
  | mk h r => cases r <;> rfl

/-- Two bytes put together are equal exactly when each is. -/
theorem append_byte_inj {a b c d : Byte} : (a ++ b : Word) = c ++ d ↔ a = c ∧ b = d := by
  constructor
  · intro h
    have h1 := congrArg (fun w : BitVec 16 => w.extractLsb' 8 8) h
    have h2 := congrArg (fun w : BitVec 16 => w.extractLsb' 0 8) h
    beta_reduce at h1 h2
    erw [BitVec.extractLsb'_append_eq_left, BitVec.extractLsb'_append_eq_left] at h1
    erw [BitVec.extractLsb'_append_eq_right, BitVec.extractLsb'_append_eq_right] at h2
    exact ⟨h1, h2⟩
  · rintro ⟨rfl, rfl⟩; rfl

/-- The handler a tag selects (42_dispatch_da_st.md R121). -/
theorem State.tagType_eq (s : State) :
    s.tagType =
      if s.fbGet 1 = 0x44 ∧ s.fbGet 2 = 0x41 then 1
      else if s.fbGet 1 = 0x53 ∧ s.fbGet 2 = 0x54 then 2
      else if s.fbGet 1 = 0x4D ∧ s.fbGet 2 = 0x44 then 3 else 0 := by
  simp only [State.tagType]
  have h1 : (s.fbGet 1 ++ s.fbGet 2 : Word) = 0x4441#16 ↔ _ := append_byte_inj (c := 0x44#8) (d := 0x41#8)
  have h2 : (s.fbGet 1 ++ s.fbGet 2 : Word) = 0x5354#16 ↔ _ := append_byte_inj (c := 0x53#8) (d := 0x54#8)
  have h3 : (s.fbGet 1 ++ s.fbGet 2 : Word) = 0x4D44#16 ↔ _ := append_byte_inj (c := 0x4D#8) (d := 0x44#8)
  simp only [h1, h2, h3]; rfl

/-- The tag `DA` goes to the DA handler. -/
theorem State.dispatch_da {s : State} {P} (hP : 2 ≤ P) (h1 : s.fbGet 1 = 0x44) (h2 : s.fbGet 2 = 0x41) :
    s.dispatch P = (1, s.decodeDa P) := by
  rw [State.dispatch, if_neg (by omega), State.tagType_eq, if_pos ⟨h1, h2⟩]; rfl

/-- The tag `ST` goes to the ST handler. -/
theorem State.dispatch_st {s : State} {P} (hP : 2 ≤ P) (h1 : s.fbGet 1 = 0x53) (h2 : s.fbGet 2 = 0x54) :
    s.dispatch P = (2, s.decodeSt P) := by
  rw [State.dispatch, if_neg (by omega), State.tagType_eq, if_neg (fun h => absurd (h1.symm.trans h.1) (by decide)),
    if_pos ⟨h1, h2⟩]; rfl

/-- The tag `MD` goes to the MD handler. -/
theorem State.dispatch_md {s : State} {P} (hP : 2 ≤ P) (h1 : s.fbGet 1 = 0x4D) (h2 : s.fbGet 2 = 0x44) :
    s.dispatch P = (3, s.decodeMd P) := by
  rw [State.dispatch, if_neg (by omega), State.tagType_eq, if_neg (fun h => absurd (h1.symm.trans h.1) (by decide)),
    if_neg (fun h => absurd (h1.symm.trans h.1) (by decide)),
    if_pos ⟨h1, h2⟩]; rfl

/-- A decimal field fails at its lowest-indexed character that is no digit (30_encoding.md R76). -/
theorem State.getDec_error_of {s : State} {b w k : Nat} (hb : b ≤ k) (hk : k < b + w)
    (h : CharClass.decimal.has (s.fbGet k) = false)
    (hj : ∀ j, b ≤ j → j < k → CharClass.decimal.has (s.fbGet j) = true) : s.getDec b w = .error (s.malformed k) := by
  rw [decimal_has_iff] at h
  cases hg : s.getDec b w with
  | ok v =>
    exfalso
    have := (s.getDec_ok_iff b w v).1 hg
    have h2 := (State.hasBytes_iff_getElem _ _ _).1 this.2 (k - b) (by simp; omega)
    rw [show b + (k - b) = k by omega] at h2
    rw [h2] at h
    simp only [decChars, List.getElem_map] at h
    rw [decDigit_decChar (by omega)] at h
    simp at h
  | error f =>
    obtain ⟨j, hjw, hi, hn, rfl⟩ := s.getDec_error _ _ _ hg
    congr 2
    rcases Nat.lt_trichotomy (b + j) k with h' | h' | h'
    · have := hj _ (by omega) h'
      rw [decimal_has_iff, hn] at this; simp at this
    · exact h'
    · have := hi (k - b) (by omega)
      rw [show b + (k - b) = k by omega] at this
      cases h4 : decDigit (s.fbGet k) with
      | none => exact absurd h4 this
      | some _ => rw [h4] at h; simp at h

/-- The blocks fail at their lowest-indexed examined character outside its class (43_md.md R142). -/
theorem State.decodeBlocks_error_of {s : State} {n k : Nat} (hk : 6 ≤ k) (hlt : k < 6 + 30 * n)
    (h : s.blockCharOk k = false)
    (hj : ∀ j, 6 ≤ j → j < k → s.blockCharOk j = true) : s.decodeBlocks 6 n = .error (s.malformed k) := by
  have split : ∀ j, 6 ≤ j → j < 6 + 30 * n → ∃ i o, i < n ∧ o < 30 ∧ j = 6 + 30 * i + o := fun j h1 h2 =>
    ⟨(j - 6) / 30, (j - 6) % 30, by omega, by omega, by omega⟩
  have bo : ∀ i o, o < 30 → (s.blockCharOk (6 + 30 * i + o) = true ↔ s.offsetOk (6 + 30 * i) o) := by
    intro i o ho
    unfold State.blockCharOk State.offsetOk
    rw [show (6 + 30 * i + o - 6) % 30 = o by omega]
  cases hg : s.decodeBlocks 6 n with
  | ok es =>
    exfalso
    obtain ⟨hl, hi⟩ := (s.decodeBlocks_ok_iff _ _ _).1 hg
    obtain ⟨i, o, h1, h2, rfl⟩ := split k hk hlt
    have := (bo i o h2).2 (State.decodeBlock_ok_offset (hi i (by omega)) o h2)
    rw [h] at this; simp at this
  | error f =>
    obtain ⟨i, hin, hprev, hf⟩ := State.decodeBlocks_error hg
    obtain ⟨o, ho, hoi, hno, rfl⟩ := State.decodeBlock_error hf
    congr 2
    rcases Nat.lt_trichotomy (6 + 30 * i + o) k with h' | h' | h'
    · exact absurd ((bo i o ho).1 (hj _ (by omega) h')) hno
    · exact h'
    · exfalso
      obtain ⟨i', o', h1, h2, rfl⟩ := split k hk hlt
      have : s.offsetOk (6 + 30 * i') o' := by
        rcases Nat.lt_trichotomy i' i with h3 | h3 | h3
        · obtain ⟨e, he⟩ := hprev i' h3
          exact State.decodeBlock_ok_offset he o' h2
        · subst h3; exact hoi o' (by omega)
        · omega
      rw [(bo i' o' h2).2 this] at h; simp at h

/-- A malformed character where a handler examines a class is a report that handler may make. -/
theorem State.malformed_report {s : State} {h : BitVec 2} {k : Nat} (hh : h ≠ 0) (hk : k ≤ 4096)
    (hc : (examinedClass h k).has (s.fbGet k) = false) :
    formatReport h (s.malformed k).infoA (s.malformed k).infoB = true := by
  have h1 : (BitVec.ofNat 16 k).toNat = k := by simp only [BitVec.toNat_ofNat]; omega
  have h2 : ((s.fbGet k).setWidth 16).setWidth 8 = s.fbGet k := by simp
  have h3 : ((s.fbGet k).setWidth 16 : Word).toNat < 256 := by
    have := (s.fbGet k).isLt; simp only [BitVec.toNat_setWidth]; omega
  simp only [formatReport, State.malformed, h1, h2, hc, Bool.not_false, Bool.and_true]
  exact decide_eq_true ⟨hh, h3⟩

/-- The errors the dispatcher and its handlers answer, with the HTYPE written before (42_dispatch_da_st.md R121), each a
report the error tables allow (60_exceptions.md R211). -/
theorem State.dispatch_error {s : State} {P h f} (hP : P ≤ 4091) (hd : s.dispatch P = (h, .error f)) :
    (h = 0 ∧ f.code = .unknownTelegramType ∧ tagReport true f.infoA f.infoB = true) ∨
      (h ≠ 0 ∧ f.code = .invalidLength ∧ lengthReport h f.infoA f.infoB = true) ∨
      (h ≠ 0 ∧ formatReport h f.infoA f.infoB = true ∧ ∃ k, 3 ≤ k ∧ k < P + 1 ∧ f = s.malformed k) := by
  have w : ∀ n, n ≤ 4091 → (BitVec.ofNat 16 n).toNat = n := fun n hn => by simp only [BitVec.toNat_ofNat]; omega
  have ne : ∀ n m, n ≤ 4091 → m ≤ 4091 → n ≠ m → BitVec.ofNat 16 n ≠ BitVec.ofNat 16 m := fun n m hn hm h he =>
    h (by have := congrArg BitVec.toNat he; rwa [w n hn, w m hm] at this)
  have bad : ∀ {h : BitVec 2} {k : Nat}, h ≠ 0 → 3 ≤ k → k < P + 1 → (examinedClass h k).has (s.fbGet k) = false →
      f = s.malformed k → h ≠ 0 ∧ formatReport h f.infoA f.infoB = true ∧ ∃ k, 3 ≤ k ∧ k < P + 1 ∧ f = s.malformed k := by
    rintro h k hh h3 hk hc rfl
    exact ⟨hh, s.malformed_report hh (by omega) hc, k, h3, hk, rfl⟩
  have digit : ∀ {h : BitVec 2} {k : Nat}, h ≠ 0 → 3 ≤ k → (if h = 3 then k < 5 else k < 6) → decDigit (s.fbGet k) = none →
      (examinedClass h k).has (s.fbGet k) = false := by
    intro h k hh h3 hk hn
    have : examinedClass h k = .decimal := by
      unfold examinedClass
      split at hk
      · next e => rw [if_pos e, if_pos ⟨h3, hk⟩]
      · next e => rw [if_neg e, if_pos ⟨h3, hk⟩]
    rw [this, decimal_has_iff, hn]; rfl
  unfold State.dispatch at hd
  split at hd
  · next h2 =>
    simp only [Prod.mk.injEq, Except.error.injEq] at hd; obtain ⟨rfl, rfl⟩ := hd
    left; exact ⟨rfl, rfl, by simp [tagReport, w P hP, h2, Config.payloadMax]; omega⟩
  · next h2 =>
    have ht := State.tagType_eq s
    split at hd
    · simp only [Prod.mk.injEq] at hd; obtain ⟨rfl, hd⟩ := hd
      unfold State.decodeDa at hd
      split at hd
      · simp at hd
      · split at hd
        · simp only [except_bind_error_iff] at hd
          rcases hd with hd | ⟨_, _, hd⟩
          · obtain ⟨j, h1, _, hn, rfl⟩ := s.getDec_error _ _ _ hd
            right; right
            exact bad (k := 3 + j) (by decide) (by omega) (by omega)
              (digit (by decide) (by omega) (by rw [if_neg (by decide)]; omega) hn) rfl
          · simp [pure, Except.pure] at hd
        · next n2 n5 =>
          simp only [Except.error.injEq] at hd; subst hd; right; left
          refine ⟨by decide, rfl, ?_⟩
          have a2 := ne P 2 hP (by omega) n2
          have a5 := ne P 5 hP (by omega) n5
          simp only [lengthReport, invalidLength, w P hP, Config.payloadMax, decide_eq_true_eq]
          exact ⟨by omega, hP, .inl ⟨by trivial, by trivial, a2, a5⟩⟩
    · simp only [Prod.mk.injEq] at hd; obtain ⟨rfl, hd⟩ := hd
      unfold State.decodeSt at hd
      split at hd
      · next h6 =>
        simp only [Except.error.injEq] at hd; subst hd; right; left
        refine ⟨by decide, rfl, ?_⟩
        simp only [lengthReport, invalidLength, w P hP, Config.payloadMax, decide_eq_true_eq]
        exact ⟨by omega, hP, .inr (.inl ⟨by trivial, by trivial, h6⟩)⟩
      · simp only [except_bind_error_iff] at hd
        rcases hd with hd | ⟨_, _, hd⟩
        · obtain ⟨j, h1, _, hn, rfl⟩ := s.getDec_error _ _ _ hd
          right; right
          exact bad (k := 3 + j) (by decide) (by omega) (by omega)
            (digit (by decide) (by omega) (by rw [if_neg (by decide)]; omega) hn) rfl
        · simp [pure, Except.pure] at hd
    · simp only [Prod.mk.injEq] at hd; obtain ⟨rfl, hd⟩ := hd
      unfold State.decodeMd at hd
      split at hd
      · next h4 =>
        simp only [Except.error.injEq] at hd; subst hd; right; left
        refine ⟨by decide, rfl, ?_⟩
        simp only [lengthReport, invalidLength, w P hP, Config.payloadMax, decide_eq_true_eq]
        exact ⟨by omega, hP, .inr (.inr ⟨by trivial, .inl ⟨by trivial, h4⟩⟩)⟩
      · simp only [except_bind_error_iff] at hd
        rcases hd with hd | ⟨n, hg, hd⟩
        · obtain ⟨j, h1, _, hn, rfl⟩ := s.getDec_error _ _ _ hd
          right; right
          exact bad (k := 3 + j) (by decide) (by omega) (by omega)
            (digit (by decide) (by omega) (by rw [if_pos rfl]; omega) hn) rfl
        · have hn99 : n < 100 := ((s.getDec_ok_iff _ _ _).1 hg).1
          split at hd
          · next hPn =>
            simp only [Except.error.injEq] at hd; subst hd; right; left
            refine ⟨by decide, rfl, ?_⟩
            have a1 := ne (5 + 30 * n) P (by omega) hP (Ne.symm hPn)
            simp only [lengthReport, invalidLength, w P hP, w (5 + 30 * n) (by omega), Config.payloadMax, decide_eq_true_eq]
            exact ⟨by omega, hP, .inr (.inr ⟨by trivial, .inr ⟨by omega, a1, by omega, by omega, by omega⟩⟩)⟩
          · next hPn =>
            simp only [except_bind_error_iff] at hd
            rcases hd with hd | ⟨_, _, hd⟩
            · obtain ⟨i, hi, _, hf⟩ := State.decodeBlocks_error hd
              obtain ⟨o, ho, _, hno, hf⟩ := State.decodeBlock_error hf
              right; right
              refine bad (k := 6 + 30 * i + o) (by decide) (by omega) (by omega) ?_ hf
              have : examinedClass 3 (6 + 30 * i + o) = blockClass o := by
                unfold examinedClass
                rw [if_pos rfl, if_neg (by omega), if_pos (by simp only [Config.rtEntries]; omega),
                  show (6 + 30 * i + o - 6) % 30 = o by omega]
              rw [this]
              simpa [State.offsetOk] using hno
            · simp [pure, Except.pure] at hd
    · next n1 n2 n3 =>
      simp only [Prod.mk.injEq, Except.error.injEq] at hd; obtain ⟨rfl, rfl⟩ := hd
      left; refine ⟨rfl, rfl, ?_⟩
      have tag : ∀ v : Word, s.fbGet 1 ++ s.fbGet 2 = v → v ≠ 0x4441 ∧ v ≠ 0x5354 ∧ v ≠ 0x4D44 := by
        rintro v rfl
        refine ⟨fun e => n1 ?_, fun e => n2 ?_, fun e => n3 ?_⟩ <;> simp [State.tagType, e]
      simp only [tagReport, if_true, w P hP, if_neg h2, Config.payloadMax, decide_eq_true_eq]
      exact ⟨hP, tag _ rfl⟩

/-- The records the dispatcher and its handlers answer (42_dispatch_da_st.md R122, R123, 43_md.md R141). -/
theorem State.dispatch_ok {s : State} {P h r} (hd : s.dispatch P = (h, .ok r)) :
    (h = 1 ∧ s.fbGet 1 = 0x44 ∧ s.fbGet 2 = 0x41 ∧ P = 2 ∧
      r = { ttype := 1, p := false, val := 0, cmdlen := 0, readings := [] }) ∨
    (h = 1 ∧ s.fbGet 1 = 0x44 ∧ s.fbGet 2 = 0x41 ∧ P = 5 ∧ ∃ v, s.getDec 3 3 = .ok v ∧
      r = { ttype := 1, p := true, val := BitVec.ofNat 10 v, cmdlen := 0, readings := [] }) ∨
    (h = 2 ∧ s.fbGet 1 = 0x53 ∧ s.fbGet 2 = 0x54 ∧ 6 ≤ P ∧ ∃ v, s.getDec 3 3 = .ok v ∧
      r = { ttype := 2, p := true, val := BitVec.ofNat 10 v, cmdlen := BitVec.ofNat 12 (P - 5), readings := [] }) ∨
    (h = 3 ∧ s.fbGet 1 = 0x4D ∧ s.fbGet 2 = 0x44 ∧
      ∃ n es, s.getDec 3 2 = .ok n ∧ P = 5 + 30 * n ∧ s.decodeBlocks 6 n = .ok es ∧
        r = { ttype := 3, p := false, val := 0, cmdlen := 0, readings := es }) := by
  unfold State.dispatch at hd
  split at hd
  · simp at hd
  · have ht := State.tagType_eq s
    by_cases g1 : s.fbGet 1 = 0x44 ∧ s.fbGet 2 = 0x41
    · rw [if_pos g1] at ht; rw [ht] at hd
      simp only [show (1 : BitVec 2).toNat = 1 from rfl, Prod.mk.injEq] at hd
      obtain ⟨rfl, hd⟩ := hd
      unfold State.decodeDa at hd
      split at hd
      · left; exact ⟨rfl, g1.1, g1.2, by assumption, by simpa using hd.symm⟩
      · split at hd
        · simp only [except_bind_ok_iff, pure, Except.pure, Except.ok.injEq] at hd
          obtain ⟨v, hv, rfl⟩ := hd
          right; left; exact ⟨rfl, g1.1, g1.2, by assumption, v, hv, rfl⟩
        · simp at hd
    · rw [if_neg g1] at ht
      by_cases g2 : s.fbGet 1 = 0x53 ∧ s.fbGet 2 = 0x54
      · rw [if_pos g2] at ht; rw [ht] at hd
        simp only [show (2 : BitVec 2).toNat = 2 from rfl, Prod.mk.injEq] at hd
        obtain ⟨rfl, hd⟩ := hd
        unfold State.decodeSt at hd
        split at hd
        · simp at hd
        · simp only [except_bind_ok_iff, pure, Except.pure, Except.ok.injEq] at hd
          obtain ⟨v, hv, rfl⟩ := hd
          right; right; left; exact ⟨rfl, g2.1, g2.2, by omega, v, hv, rfl⟩
      · rw [if_neg g2] at ht
        by_cases g3 : s.fbGet 1 = 0x4D ∧ s.fbGet 2 = 0x44
        · rw [if_pos g3] at ht; rw [ht] at hd
          simp only [show (3 : BitVec 2).toNat = 3 from rfl, Prod.mk.injEq] at hd
          obtain ⟨rfl, hd⟩ := hd
          unfold State.decodeMd at hd
          split at hd
          · simp at hd
          · simp only [except_bind_ok_iff] at hd
            obtain ⟨n, hn, hd⟩ := hd
            split at hd
            · simp at hd
            · simp only [except_bind_ok_iff, pure, Except.pure, Except.ok.injEq] at hd
              obtain ⟨es, hes, rfl⟩ := hd
              right; right; right; exact ⟨rfl, g3.1, g3.2, n, es, hn, by omega, hes, rfl⟩
        · rw [if_neg g3] at ht; rw [ht] at hd
          simp at hd

theorem State.encodeReadings_setStatus (s : State) (g : Bool) (h : BitVec 2) (i n) :
    (s.setStatus g h).encodeReadings i n = s.encodeReadings i n :=
  State.encodeReadings_congr _ _ (fun _ _ => rfl)

/-- The type encoders do not read STATUS. -/
theorem State.encodeRecord_setStatus (s : State) (g : Bool) (h : BitVec 2) :
    (s.setStatus g h).encodeRecord = s.encodeRecord := by
  simp only [State.encodeRecord, State.encodeMd, State.encodeReadings_setStatus,
    State.setStatus_ttype, State.setStatus_count]; rfl

/-- ENC by what the type encoder answers (45_encode.md R170). -/
theorem exec_enc_eq (s : State) : exec .enc s = match s.encodeRecord with
  | .error f => .next ((s.setStatus false s.ttype).fail f)
  | .ok p => .next ((((s.setStatus false s.ttype).storeBytes 1 p.bytes).wrapFrame p.length).succeed) := by
  rw [← State.encodeRecord_setStatus s false s.ttype]; rfl

/-- The errors of one entry, each a report the error tables allow (45_encode.md R174, 60_exceptions.md R211). -/
theorem encodeReading_failed {i : Nat} {e : Reading} {f} (hi : i < 99) (h : encodeReading i e = .error f) :
    f.code = .fieldRange ∧ rangeReport 3 f.infoA f.infoB = true ∨
      f.code = .valueTooLarge ∧ 100 ≤ f.infoA.toNat ∧ f.infoA.toNat ≤ 127 ∧ f.infoB.toNat < 792 ∧ f.infoB.toNat % 8 = 4 := by
  have hc := e.comp.isLt
  have hs := e.serial.isLt
  have hv := e.value.vm.isLt
  have he := e.value.ee.isLt
  have range : ∀ {v : Nat} {g : RtField}, (g = .comp ∨ g = .serial) ∧ 999 < v ∧ v < 1024 ∨ g = .vm ∧ 9999 < v ∧ v < 16384 →
      f = fieldRange v (locatorRt i g) → f.code = .fieldRange ∧ rangeReport 3 f.infoA f.infoB = true := by
    rintro v g hg rfl
    refine ⟨rfl, ?_⟩
    have hb : (BitVec.ofNat 16 (8 * i + g.id)).toNat = 8 * i + g.id := by
      have : g.id < 8 := by cases g <;> decide
      simp only [BitVec.toNat_ofNat]; omega
    have ha : (BitVec.ofNat 16 v).toNat = v := by simp only [BitVec.toNat_ofNat]; omega
    simp only [rangeReport, fieldRange, locatorRt, rtAddress, ha, hb, decide_eq_true_eq, Config.rtSize]
    right
    refine ⟨by trivial, .inr ?_⟩
    rcases hg with ⟨rfl | rfl, h1⟩ | ⟨rfl, h1⟩ <;> simp only [RtField.id] <;> omega
  unfold encodeReading at h
  split at h
  · simp only [Except.error.injEq] at h; exact .inl (range (.inl ⟨.inl rfl, by omega⟩) h.symm)
  · split at h
    · simp only [Except.error.injEq] at h; exact .inl (range (.inr ⟨rfl, by omega⟩) h.symm)
    · split at h
      · next hn =>
        have : 100 ≤ e.value.ee.toNat := by
          rcases e.value.norm_cases with ⟨_, h5⟩ | ⟨_, _, h5⟩ | ⟨h5, _, _⟩
          · rw [hn] at h5; simp at h5
          · rw [hn] at h5; simp at h5
          · omega
        simp only [Except.error.injEq] at h; subst h; right
        refine ⟨rfl, ?_, ?_, ?_, ?_⟩
        · simp only [BitVec.toNat_setWidth]; omega
        · simp only [BitVec.toNat_setWidth]; omega
        · simp only [locatorRt, rtAddress, RtField.id, BitVec.toNat_ofNat]; omega
        · simp only [locatorRt, rtAddress, RtField.id, BitVec.toNat_ofNat]; omega
      · split at h
        · simp only [Except.error.injEq] at h; exact .inl (range (.inl ⟨.inr rfl, by omega⟩) h.symm)
        · simp at h

/-- The errors of the type encoders, with the TTYPE each belongs to, each a report the error tables allow
(45_encode.md R170 to R174, 60_exceptions.md R211). -/
theorem State.encodeRecord_failed {s : State} {f} (h : s.encodeRecord = .error f) :
    (s.ttype = 0 ∧ f.code = .unknownTelegramType ∧ f.infoA = 0 ∧ f.infoB = 0) ∨
    (s.ttype ≠ 0 ∧ f.code = .fieldRange ∧ rangeReport s.ttype f.infoA f.infoB = true) ∨
    (s.ttype = 3 ∧ f.code = .valueTooLarge ∧ 100 ≤ f.infoA.toNat ∧ f.infoA.toNat ≤ 127 ∧ f.infoB.toNat < 792 ∧
      f.infoB.toNat % 8 = 4) ∨
    (s.ttype = 2 ∧ f.code = .frameTooLong ∧ longReport 2 f.infoA f.infoB = true) := by
  have tt : ∀ n : Nat, s.ttype.toNat = n → s.ttype = BitVec.ofNat 2 n := fun n hn => by subst hn; simp
  have hv := s.compVal.isLt
  have comp : ∀ {t : BitVec 2}, t = 1 ∨ t = 2 → 999 < s.compVal.toNat →
      rangeReport t (fieldRange s.compVal.toNat locatorComp).infoA (fieldRange s.compVal.toNat locatorComp).infoB = true := by
    intro t ht h9
    have ha : (BitVec.ofNat 16 s.compVal.toNat).toNat = s.compVal.toNat := by simp only [BitVec.toNat_ofNat]; omega
    simp only [rangeReport, fieldRange, ha, decide_eq_true_eq]
    exact .inl ⟨ht, rfl, h9, hv⟩
  unfold State.encodeRecord at h
  split at h
  · next ht =>
    unfold State.encodeDa at h
    split at h
    · next hc =>
      simp only [Except.error.injEq] at h; subst h; right; left
      rw [tt 1 ht]
      exact ⟨by decide, rfl, comp (.inl rfl) (by simp only [Bool.and_eq_true, decide_eq_true_eq] at hc; exact hc.2)⟩
    · split at h <;> simp at h
  · next ht =>
    unfold State.encodeSt at h
    split at h
    · next hc =>
      simp only [Except.error.injEq] at h; subst h; right; left
      rw [tt 2 ht]; exact ⟨by decide, rfl, comp (.inr rfl) hc⟩
    · split at h
      · simp only [Except.error.injEq] at h; subst h; right; right; right
        have := s.cmdlen.isLt
        refine ⟨tt 2 ht, rfl, ?_⟩
        have ha : (BitVec.ofNat 16 (5 + s.cmdlen.toNat)).toNat = 5 + s.cmdlen.toNat := by
          simp only [BitVec.toNat_ofNat]; omega
        simp only [longReport, ha, decide_eq_true_eq]
        exact ⟨by omega, by trivial, .inr ⟨by trivial, by omega⟩⟩
      · simp at h
  · next ht =>
    unfold State.encodeMd at h
    split at h
    · next hc =>
      simp only [Except.error.injEq] at h; subst h; right; left
      rw [tt 3 ht]
      have := s.count.isLt
      have ha : (BitVec.ofNat 16 s.count.toNat).toNat = s.count.toNat := by simp only [BitVec.toNat_ofNat]; omega
      refine ⟨by decide, rfl, ?_⟩
      simp only [rangeReport, fieldRange, ha, decide_eq_true_eq]
      exact .inr ⟨by trivial, .inl ⟨by trivial, hc, by omega⟩⟩
    · simp only [except_bind_error_iff] at h
      rcases h with h | ⟨_, _, h⟩
      · obtain ⟨j, hj, _, hf⟩ := s.encodeReadings_error _ _ _ h
        rcases encodeReading_failed (by omega) hf with hc | hc
        · right; left; rw [tt 3 ht]; exact ⟨by decide, hc⟩
        · right; right; left; exact ⟨tt 3 ht, hc⟩
      · simp [pure, Except.pure] at h
  · next h1 h2 h3 =>
    simp only [Except.error.injEq] at h; subst h; left
    refine ⟨tt 0 ?_, rfl, rfl, rfl⟩
    have := s.ttype.isLt
    generalize s.ttype.toNat = n at *
    have : n = 0 ∨ n = 1 ∨ n = 2 ∨ n = 3 := by omega
    rcases this with rfl | rfl | rfl | rfl <;> simp_all

end Sys2Proof.Machine
end

