-- ==== Sys2Proof/Laws/Decode.lean ====
section
/-! SUPPORT. The two fields of a command word, apart and together (30_encoding.md R61). -/

namespace Sys2Proof

/-- The opcode of a word put together from an opcode and an argument. -/
@[simp] theorem opField_append (a : BitVec 4) (k : Index) : opField (a ++ k) = a := BitVec.extractLsb'_append_eq_left

/-- The argument of a word put together from an opcode and an argument. -/
@[simp] theorem argField_append (a : BitVec 4) (k : Index) : argField (a ++ k) = k := BitVec.extractLsb'_append_eq_right

/-- A word is its two fields. -/
theorem opField_append_argField (w : Word) : opField w ++ argField w = w := by
  apply BitVec.eq_of_getLsbD_eq
  intro i hi
  simp only [opField, argField, BitVec.getLsbD_append, BitVec.getLsbD_extractLsb']
  by_cases h : i < 12
  · simp [h]
  · have h4 : i - 12 < 4 := by omega
    simp [h, h4, show 12 + (i - 12) = i by omega]

/-- The opcode as a number. -/
theorem opField_toNat (w : Word) : (opField w).toNat = w.toNat / 4096 := by
  have := w.isLt
  simp only [opField, BitVec.extractLsb'_toNat, Nat.shiftRight_eq_div_pow]; omega

/-- The argument as a number. -/
theorem argField_toNat (w : Word) : (argField w).toNat = w.toNat % 4096 := by
  simp [argField]

end Sys2Proof
end

