-- ==== Sys2Proof/Laws/Flags.lean ====
section
/-! SUPPORT. STATUS and COMP as the host reads them, as numbers (10_state.md R15, R23). -/

namespace Sys2Proof.Machine

theorem toNat_ofBool (b : Bool) : (BitVec.ofBool b).toNat = b.toNat := by cases b <;> rfl

/-- STATUS reads as `4·GOTV + HTYPE`. -/
theorem State.statusWord_toNat (s : State) : s.statusWord.toNat = 4 * s.gotv.toNat + s.htype.toNat := by
  have h := s.htype.isLt
  have h1 : s.statusWord.toNat = ((0 : BitVec 13) ++ BitVec.ofBool s.gotv).toNat <<< 2 ||| s.htype.toNat :=
    BitVec.toNat_append _ _
  have h2 : ((0 : BitVec 13) ++ BitVec.ofBool s.gotv).toNat = s.gotv.toNat := by
    rw [BitVec.toNat_append, toNat_ofBool]; simp
  rw [h1, h2, ← Nat.shiftLeft_add_eq_or_of_lt h, Nat.shiftLeft_eq]; omega

/-- COMP reads as `32768·P + VAL`. -/
theorem State.compWord_toNat (s : State) : s.compWord.toNat = 32768 * s.compP.toNat + s.compVal.toNat := by
  have h := s.compVal.isLt
  have h1 : s.compWord.toNat = (BitVec.ofBool s.compP ++ (0 : BitVec 5)).toNat <<< 10 ||| s.compVal.toNat :=
    BitVec.toNat_append _ _
  have h2 : (BitVec.ofBool s.compP ++ (0 : BitVec 5)).toNat = 32 * s.compP.toNat := by
    rw [BitVec.toNat_append, toNat_ofBool]; simp [Nat.shiftLeft_eq]; omega
  rw [h1, h2, ← Nat.shiftLeft_add_eq_or_of_lt h, Nat.shiftLeft_eq]; omega

end Sys2Proof.Machine
end

