-- ==== Sys2Proof/Laws/HostReference.lean ====
section
/-! SUPPORT. What a rounding to four significant digits answers off a tie (44_value_field.md R156). -/

namespace Sys2Proof.Machine

/-- Off a tie ROUND4 leaves nothing open: the answer is the multiple `n` of the number's fourth-digit unit that is nearer
than half a unit, and 10000 of them are written as `m = 1000` with the next exponent (44_value_field.md R156). -/
theorem Round4.Sound.eq_of_near {r : Round4} (hr : r.Sound) {x : Rat} {d : Int} (h1 : (10 : Rat) ^ d ≤ x)
    (h2 : x < (10 : Rat) ^ (d + 1)) {n : Nat} (hn : |(n : Rat) * (10 : Rat) ^ (d - 3) - x| < (10 : Rat) ^ (d - 3) / 2) :
    r x = if n = 10000 then (1000, d + 1) else (n, d) := by
  obtain ⟨m1, m2, he, hm⟩ := hr x d h1 h2
  have hp : (0 : Rat) < 10 ^ (d - 3) := by positivity
  have same : ∀ k : Nat, |(k : Rat) * (10 : Rat) ^ (d - 3) - x| ≤ (10 : Rat) ^ (d - 3) / 2 → k = n := by
    intro k hk
    have hlt : |((k : Rat) - n) * (10 : Rat) ^ (d - 3)| < 1 * (10 : Rat) ^ (d - 3) := by
      rw [abs_le] at hk
      rw [abs_lt] at hn ⊢
      constructor <;> linarith [hk.1, hk.2, hn.1, hn.2]
    rw [abs_mul, abs_of_pos hp] at hlt
    have h3 : |(k : Rat) - n| < 1 := lt_of_mul_lt_mul_right hlt hp.le
    have h4 : |((k : Int) - (n : Int))| < 1 := by exact_mod_cast h3
    have := Int.abs_lt_one_iff.1 h4
    omega
  have hx : r x = ((r x).1, (r x).2) := rfl
  rcases he with he | ⟨hm1, he⟩
  · rw [he] at hm
    have hk := same _ hm
    rw [hx, he, hk, if_neg (by omega)]
  · have hk := same 10000 (by
      rw [he, hm1, show d + 1 - 3 = (d - 3) + 1 by ring, zpow_add₀ (by norm_num)] at hm
      convert hm using 2; push_cast; ring)
    rw [hx, he, hm1, if_pos hk.symm]

end Sys2Proof.Machine
end

