-- ==== Sys2Proof/Laws/PerInstr.lean ====
section
/-! SUPPORT. What holds of each command as syntax, one lemma per constructor. -/

namespace Sys2Proof.Laws

/-- The word of a command has the command's opcode in bits 15:12 and its argument in bits 11:0 (30_encoding.md R61). -/
def EncodeFields.Statement (i : Instr) : Prop := opField (encode i) = i.op ∧ argField (encode i) = i.arg

theorem EncodeFields.nop : EncodeFields.Statement .nop := ⟨opField_append _ _, argField_append _ _⟩

theorem EncodeFields.aclr : EncodeFields.Statement .aclr := ⟨opField_append _ _, argField_append _ _⟩

theorem EncodeFields.axb (k : Index) : EncodeFields.Statement (.axb k) := ⟨opField_append _ _, argField_append _ _⟩

theorem EncodeFields.csum (n : Index) : EncodeFields.Statement (.csum n) := ⟨opField_append _ _, argField_append _ _⟩

theorem EncodeFields.fchk : EncodeFields.Statement .fchk := ⟨opField_append _ _, argField_append _ _⟩

theorem EncodeFields.dec : EncodeFields.Statement .dec := ⟨opField_append _ _, argField_append _ _⟩

theorem EncodeFields.wrap (n : Index) : EncodeFields.Statement (.wrap n) := ⟨opField_append _ _, argField_append _ _⟩

theorem EncodeFields.enc : EncodeFields.Statement .enc := ⟨opField_append _ _, argField_append _ _⟩

end Sys2Proof.Laws
end

