-- ==== Sys2Proof/Tests/Slice0.lean ====
section
/-! SUPPORT. Tests: the well-formedness check, words of every command, vectors of 95_test_vectors.md (at most two a
command), and for every statement with hypotheses a witness that meets them. -/

namespace Sys2Proof.Tests

open Sys2Proof Sys2Proof.Machine

/-! A test evaluated by the kernel waits for every theorem before it. One at a time, they need no thread each. -/
set_option Elab.async false

/-! ### Helpers -/

/-- Bytes written as numbers. -/
def bytes (l : List Nat) : List Byte := l.map (BitVec.ofNat 8)

/-- Reset, then ACC 0x77, the bytes from frame index 0 on and their number in LEN (the start of 95_test_vectors.md 2.2). -/
def holding (l : List Nat) : State :=
  ({ State.reset with acc := 0x77, len := BitVec.ofNat 12 l.length } : State).storeBytes 0 (bytes l)

/-- Reading-table entries written as their eight numbers, from entry 0 on. -/
def tableOf (rows : List (List Nat)) : Table :=
  rows.zipIdx.foldl (fun m p => (rtFields.zip p.1).foldl (fun m q => m.putField p.2 q.1 (BitVec.ofNat 16 q.2)) m) []

/-- The eight numbers of an entry. -/
def entry (s : State) (i : Nat) : List Nat := rtFields.map fun f => (s.rtGet i f).toNat

/-- ERR, INFOA, INFOB, STATUS, PLEN, ACC. -/
def report (s : State) : List Nat :=
  [s.err.toNat, s.infoA.toNat, s.infoB.toNat, s.statusWord.toNat, s.plen.toNat, s.acc.toNat]

/-- TTYPE, COMP, CMDLEN, COUNT. -/
def recordRegs (s : State) : List Nat := [s.ttype.toNat, s.compWord.toNat, s.cmdlen.toNat, s.count.toNat]

/-- The outcome is a next state of which the check holds. -/
def nextWith (o : Host.Outcome State Fault Refusal) (check : State → Bool) : Bool :=
  match o with
  | .next s => check s
  | .fault _ => false
  | .refused _ => false

/-- The frame of `DA` (2.1). -/
def daBare : State := holding
    [0x02, 0x44, 0x41, 0x03, 0x30, 0x34]

/-- The frame of `DA123` (2.1). -/
def da123 : State := holding
    [0x02, 0x44, 0x41, 0x31, 0x32, 0x33, 0x03, 0x33, 0x34]

/-- The frame of `DAx23`: a first digit that is none. -/
def daBad3 : State := holding
    [0x02, 0x44, 0x41, 0x78, 0x32, 0x33, 0x03, 0x37, 0x44]

/-- The frame of `DA12A` (D5). -/
def daBad5 : State := holding
    [0x02, 0x44, 0x41, 0x31, 0x32, 0x41, 0x03, 0x34, 0x36]

/-- The frame of `DA5` (D7). -/
def da3 : State := holding
    [0x02, 0x44, 0x41, 0x35, 0x03, 0x33, 0x31]

/-- The frame of `DA12`. -/
def da4 : State := holding
    [0x02, 0x44, 0x41, 0x31, 0x32, 0x03, 0x30, 0x37]

/-- The frame of `DA1234` (D6). -/
def da6 : State := holding
    [0x02, 0x44, 0x41, 0x31, 0x32, 0x33, 0x34, 0x03, 0x30, 0x30]

/-- The frame of the empty payload (2.1). -/
def empty : State := holding
    [0x02, 0x03, 0x30, 0x31]

/-- The frame of `D` (D9). -/
def oneChar : State := holding
    [0x02, 0x44, 0x03, 0x34, 0x35]

/-- The frame of `da123` (D8). -/
def lower : State := holding
    [0x02, 0x64, 0x61, 0x31, 0x32, 0x33, 0x03, 0x33, 0x34]

/-- The frame of `XX` (D11). -/
def xx : State := holding
    [0x02, 0x58, 0x58, 0x03, 0x30, 0x31]

/-- The frame of `ST` (D15). -/
def st2 : State := holding
    [0x02, 0x53, 0x54, 0x03, 0x30, 0x36]

/-- The frame of `ST007` (D14). -/
def st5 : State := holding
    [0x02, 0x53, 0x54, 0x30, 0x30, 0x37, 0x03, 0x33, 0x31]

/-- The frame of `ST0071` (D13). -/
def st6 : State := holding
    [0x02, 0x53, 0x54, 0x30, 0x30, 0x37, 0x31, 0x03, 0x30, 0x30]

/-- The frame of `ST007ON` (2.1). -/
def stOn : State := holding
    [0x02, 0x53, 0x54, 0x30, 0x30, 0x37, 0x4F, 0x4E, 0x03, 0x33, 0x30]

/-- The frame of `STx07ON`: a first digit that is none. -/
def stBad3 : State := holding
    [0x02, 0x53, 0x54, 0x78, 0x30, 0x37, 0x4F, 0x4E, 0x03, 0x37, 0x38]

/-- The frame of `ST00xON`: a last digit that is none. -/
def stBad5 : State := holding
    [0x02, 0x53, 0x54, 0x30, 0x30, 0x78, 0x4F, 0x4E, 0x03, 0x37, 0x46]

/-- The frame of `MD` (M15). -/
def md2 : State := holding
    [0x02, 0x4D, 0x44, 0x03, 0x30, 0x38]

/-- The frame of `MD1` (M16). -/
def md3 : State := holding
    [0x02, 0x4D, 0x44, 0x31, 0x03, 0x33, 0x39]

/-- The frame of `MD00` (M14). -/
def md4 : State := holding
    [0x02, 0x4D, 0x44, 0x30, 0x30, 0x03, 0x30, 0x38]

/-- The frame of `MD00 ` (2.1). -/
def md0 : State := holding
    [0x02, 0x4D, 0x44, 0x30, 0x30, 0x20, 0x03, 0x32, 0x38]

/-- The frame of `MDx0 `: a first count digit that is none. -/
def mdBad3 : State := holding
    [0x02, 0x4D, 0x44, 0x78, 0x30, 0x20, 0x03, 0x36, 0x30]

/-- The frame of `MD0x ` (M13). -/
def mdBad4 : State := holding
    [0x02, 0x4D, 0x44, 0x30, 0x78, 0x20, 0x03, 0x36, 0x30]

/-- The frame of `MD01 ...` (2.1). -/
def md1 : State := holding
    [0x02, 0x4D, 0x44, 0x30, 0x31, 0x20, 0x30, 0x30, 0x31, 0x20, 0x2B, 0x30, 0x30, 0x30, 0x30, 0x2B, 0x30, 0x30,
    0x20, 0x30, 0x30, 0x20, 0x30, 0x30, 0x20, 0x30, 0x30, 0x35, 0x20, 0x30, 0x30, 0x30, 0x30, 0x30, 0x30, 0x20,
    0x03, 0x32, 0x44]

/-- The frame of `MD02 ...` (2.1). -/
def md2blocks : State := holding
    [0x02, 0x4D, 0x44, 0x30, 0x32, 0x20, 0x30, 0x30, 0x31, 0x20, 0x2B, 0x33, 0x31, 0x34, 0x32, 0x2B, 0x30, 0x30,
    0x20, 0x31, 0x41, 0x20, 0x46, 0x46, 0x20, 0x30, 0x30, 0x35, 0x20, 0x30, 0x30, 0x30, 0x30, 0x30, 0x30, 0x20,
    0x30, 0x31, 0x37, 0x20, 0x2D, 0x31, 0x32, 0x35, 0x30, 0x2D, 0x30, 0x33, 0x20, 0x30, 0x30, 0x20, 0x38, 0x30,
    0x20, 0x39, 0x39, 0x39, 0x20, 0x30, 0x30, 0x30, 0x30, 0x30, 0x30, 0x20, 0x03, 0x35, 0x38]

/-- The frame of `MD02 ...`, one block short (S5, M4). -/
def mdShort : State := holding
    [0x02, 0x4D, 0x44, 0x30, 0x32, 0x20, 0x30, 0x30, 0x31, 0x20, 0x2B, 0x30, 0x30, 0x30, 0x30, 0x2B, 0x30, 0x30,
    0x20, 0x30, 0x30, 0x20, 0x30, 0x30, 0x20, 0x30, 0x30, 0x35, 0x20, 0x30, 0x30, 0x30, 0x30, 0x30, 0x30, 0x20,
    0x03, 0x32, 0x45]

/-- The frame of every unexamined position junk (M9). -/
def mdJunk : State := holding
    [0x02, 0x4D, 0x44, 0x30, 0x31, 0x78, 0x30, 0x30, 0x31, 0x78, 0x2B, 0x30, 0x30, 0x30, 0x30, 0x2B, 0x30, 0x30,
    0x78, 0x30, 0x30, 0x78, 0x30, 0x30, 0x78, 0x30, 0x30, 0x35, 0x78, 0x41, 0x42, 0x43, 0x44, 0x45, 0x46, 0x78,
    0x03, 0x37, 0x32]

/-- The frame of a bad character at block offset 0. -/
def mdBad6 : State := holding
    [0x02, 0x4D, 0x44, 0x30, 0x31, 0x20, 0x58, 0x30, 0x31, 0x20, 0x2B, 0x30, 0x30, 0x30, 0x30, 0x2B, 0x30, 0x30,
    0x20, 0x30, 0x30, 0x20, 0x30, 0x30, 0x20, 0x30, 0x30, 0x35, 0x20, 0x30, 0x30, 0x30, 0x30, 0x30, 0x30, 0x20,
    0x03, 0x34, 0x35]

/-- The frame of a bad character at block offset 21, the last examined. -/
def mdBad27 : State := holding
    [0x02, 0x4D, 0x44, 0x30, 0x31, 0x20, 0x30, 0x30, 0x31, 0x20, 0x2B, 0x30, 0x30, 0x30, 0x30, 0x2B, 0x30, 0x30,
    0x20, 0x30, 0x30, 0x20, 0x30, 0x30, 0x20, 0x30, 0x30, 0x58, 0x20, 0x30, 0x30, 0x30, 0x30, 0x30, 0x30, 0x20,
    0x03, 0x34, 0x30]

/-! ### Well-formedness and decoding -/

/-- WRAP and ENC do not exist without the encode direction; every other command does (30_encoding.md R64 (c)). -/
theorem test_wellFormed_encode_absent :
    Instr.wellFormedWith false (.wrap 7) = false ∧ Instr.wellFormedWith false .enc = false ∧
    Instr.wellFormedWith false .dec = true ∧ Instr.wellFormed (.wrap 7) = true ∧ Instr.wellFormed .enc = true := by decide

/-- Words written out bit by bit from 30_encoding.md R61, R62: `op` in bits 15:12, `arg` in bits 11:0. -/
theorem test_decode_nop : decode 0b0000000000000000 = .command .nop := by decide
theorem test_decode_aclr : decode 0b0001000000000000 = .command .aclr := by decide
theorem test_decode_axb : decode 0b0010100000000001 = .command (.axb 2049) := by decide
theorem test_decode_csum : decode 0b0011111111111110 = .command (.csum 4094) := by decide
theorem test_decode_fchk : decode 0b0100000000000000 = .command .fchk := by decide
theorem test_decode_dec : decode 0b0101000000000000 = .command .dec := by decide
theorem test_decode_wrap : decode 0b0110000000000111 = .command (.wrap 7) := by decide
theorem test_decode_enc : decode 0b0111000000000000 = .command .enc := by decide

/-- Illegal words (30_encoding.md R64, vectors H14 to H17). -/
theorem test_decode_illegal :
    decode 0x0001 = .illegal .nonzeroArgument ∧ decode 0x1001 = .illegal .nonzeroArgument ∧
    decode 0x4FFF = .illegal .nonzeroArgument ∧ decode 0x5001 = .illegal .nonzeroArgument ∧
    decode 0x7001 = .illegal .nonzeroArgument ∧ decode 0x8000 = .illegal .reservedOpcode ∧
    decode 0xF000 = .illegal .reservedOpcode ∧ decode 0xFFFF = .illegal .reservedOpcode ∧
    decodeWith false 0x6007 = .illegal .encodeAbsent ∧ decodeWith false 0x7000 = .illegal .encodeAbsent := by decide

/-- A table word placed by `withFetchWord` is what the very next step runs. -/
theorem test_withFetchWord :
    decodeTableWord 16 0x2005 = some (.axb 5) ∧ decodeTableWord 16 0x9000 = none ∧
    step (State.reset.withFetchWord 16 0x4000) = execFchk State.reset := by
  refine ⟨by decide, by decide, rfl⟩

/-! ### Vectors of 95_test_vectors.md -/

/-- H13. -/
theorem test_nop_H13 :
    nextWith (exec .nop { State.reset with err := 4, infoA := 0x35, infoB := 0x34, gotv := true })
      (fun t => report t == [4, 0x35, 0x34, 4, 0, 0]) = true := by decide +kernel

/-- K6. -/
theorem test_aclr_K6 : nextWith (exec .aclr { State.reset with acc := 0x5A }) (fun t => report t == [0, 0, 0, 0, 0, 0]) = true := by
  decide +kernel

/-- K8, its first half: ACC 0x34 and FB[3] = 0x31. -/
theorem test_axb_K8 : nextWith (exec (.axb 3) { da123 with acc := 0x34 }) (fun t => t.acc == 0x05) = true := by decide +kernel

/-- K9: the last frame index; LEN is not consulted. -/
theorem test_axb_K9 :
    nextWith (exec (.axb 4095) { State.reset with fb := [(4095, 0xFF)], acc := 0x0F }) (fun t => t.acc == 0xF0) = true := by
  decide +kernel

/-- K4. -/
theorem test_csum_K4 : nextWith (exec (.csum 7) da123) (fun t => t.acc == 0x34) = true := by decide +kernel

/-- K5: the trailer characters are bytes like any other. -/
theorem test_csum_K5 : nextWith (exec (.csum 9) da123) (fun t => t.acc == 0x33) = true := by decide +kernel

/-- F1. -/
theorem test_fchk_F1 : nextWith (exec .fchk da123) (fun t => report t == [0, 0, 0, 4, 5, 0x34]) = true := by decide +kernel

/-- F10's rule R102 on a short frame, F13: a lowercase trailer digit does not pass, and is reported raw. -/
theorem test_fchk_F13 :
    nextWith (exec .fchk (holding [0x02, 0x44, 0x41, 0x31, 0x32, 0x33, 0x03, 0x33, 0x67]))
      (fun t => report t == [4, 0x3367, 0x34, 0, 0, 0x34]) = true := by decide +kernel

/-- D12. -/
theorem test_dec_D12 :
    nextWith (exec .dec stOn) (fun t => report t == [0, 0, 0, 6, 7, 0x30] && recordRegs t == [2, 0x8007, 2, 0]) = true := by
  decide +kernel

/-- M3. -/
theorem test_dec_M3 :
    nextWith (exec .dec md2blocks) (fun t => report t == [0, 0, 0, 7, 65, 0x58] && recordRegs t == [3, 0, 0, 2] &&
      entry t 0 == [1, 0, 3142, 0, 0, 26, 255, 5] && entry t 1 == [17, 1, 1250, 1, 3, 0, 128, 999]) = true := by
  decide +kernel

/-- W3: a checksum whose digits need a letter. -/
theorem test_wrap_W3 :
    nextWith (exec (.wrap 3) { State.reset with fb := [(1, 0xFF), (2, 0x00), (3, 0x80)] })
      (fun t => t.fbBytes 0 7 == bytes [0x02, 0xFF, 0x00, 0x80, 0x03, 0x37, 0x45] && t.len == 7 &&
        report t == [0, 0, 0, 0, 3, 0x7E]) = true := by decide +kernel

/-- W4. -/
theorem test_wrap_W4 :
    nextWith (exec (.wrap 4092) { State.reset with len := 5, acc := 0x11 })
      (fun t => report t == [12, 4092, 4091, 0, 0, 0x11] && t.len == 5 && t.fb == []) = true := by decide +kernel

/-- E9. -/
theorem test_enc_E9 :
    nextWith (exec .enc { State.reset with
        ttype := 3, count := 2, rt := tableOf [[1, 0, 3142, 0, 0, 26, 255, 5], [17, 1, 1250, 1, 3, 0, 128, 999]] })
      (fun t => t.fbBytes 0 69 == md2blocks.fbBytes 0 69 && t.len == 69 && report t == [0, 0, 0, 3, 65, 0x58]) = true := by
  decide +kernel

/-- E10. -/
theorem test_enc_E10 :
    nextWith (exec .enc { State.reset with ttype := 3, count := 1, rt := tableOf [[1, 0, 1234, 0, 100, 0, 0, 5]] })
      (fun t => report t == [8, 100, 4, 3, 0, 0] && t.fb == [] && t.len == 0) = true := by decide +kernel

/-- H14. -/
theorem test_illegal_H14 :
    nextWith (hostStep (.csrWrite 0 0x0001) { State.reset with acc := 0x5A, err := 4, gotv := true, htype := 3 })
      (fun t => report t == [13, 0x0001, 0, 0, 0, 0x5A]) = true := by decide +kernel

/-- The assembler's lines (30_encoding.md R65, R66): the first operations of P1, and an escape of two digits. -/
theorem test_assemble_P1 :
    assemble [.reset, .command .dec, .csrr Csr.err.number, .rtw 98 .serial 0x7FF] =
      [.reset, .csrWrite 0 0x5000, .csrRead 0x2, .rtWrite 791 0x7FF] ∧
    AsmLine.expand (.frame (bytes [0x02, 0x44])) = [.fbWrite 0 0x02, .fbWrite 1 0x44, .csrWrite 0x5 2] ∧
    stringBytes ['\\', 'x', '0', '3', '3', '4'] = some (bytes [0x03, 0x33, 0x34]) := by decide +kernel

/-- Lines of 95_test_vectors.md read: H5, H7, H11, P2 line 7, H12's field out of range, and a comment. -/
theorem test_parse_lines :
    parseLine ['c', 's', 'r', 'w', ' ', 'C', 'M', 'D', 'L', 'E', 'N', ',', ' ', '0', 'x', '1', '2', '3', '4'] =
      some (some (.csrw 0xA 0x1234, none)) ∧
    parseLine ['c', 's', 'r', 'r', ' ', '0', 'x', 'C', ' ', '=', '>', ' ', '0'] = some (some (.csrr 0xC, some 0)) ∧
    parseLine ['r', 't', 'w', ' ', '9', '8', '.', 'S', 'E', 'R', 'I', 'A', 'L', ',', ' ', '0', 'x', '7', 'F', 'F'] =
      some (some (.rtw 98 .serial 0x7FF, none)) ∧
    parseLine ['a', 'x', 'b', ' ', '6'] = some (some (.command (.axb 6), none)) ∧
    parseLine ['r', 't', 'r', ' ', '9', '9', '.', 'V', 'M'] = none ∧
    parseLine [';', ' ', 'x'] = some none := by decide +kernel

/-- Pseudo-operations read: the frame of P3 line 11, and a text (95_test_vectors.md). -/
theorem test_parse_strings :
    parseLine ['f', 'r', 'a', 'm', 'e', ' ', quoteChar, '\\', 'x', '0', '2', 'D', 'A', '\\', 'x', '0', '3', '0', '4', quoteChar] =
      some (some (.frame (bytes [0x02, 0x44, 0x41, 0x03, 0x30, 0x34]), none)) ∧
    parseLine ['t', 'e', 'x', 't', ' ', '6', ',', ' ', quoteChar, 'O', 'N', quoteChar] = some (some (.text 6 (bytes [0x4F, 0x4E]), none)) := by decide +kernel

/-- The report of STATUS, ERR, INFOA and INFOB. -/
def reportAs (gotv : Bool) (htype : BitVec 2) (err : BitVec 4) (a b : Word) : Bool :=
  State.reportOk { State.reset with gotv := gotv, htype := htype, err := err, infoA := a, infoB := b }

/-- Reports of 95_test_vectors.md, one or more per code: D9, D11, E19, M4 (S5), E5, S4, W4, E6, D5, M6, M10, M13, E4, E12,
E16, E17, E10, E18, H16. -/
theorem test_report_allowed :
    ([reportAs true 0 5 0 1, reportAs true 0 5 0x5858 2, reportAs false 0 5 0 0, reportAs true 3 6 65 35, reportAs true 2 6 6 5,
      reportAs true 0 4 0x35 0x34, reportAs false 0 12 4092 4091, reportAs false 2 12 4092 4091, reportAs true 1 10 0x41 5,
      reportAs true 3 10 0x47 20, reportAs true 3 10 0x2A 10, reportAs true 3 10 0x78 4, reportAs false 1 11 1000 0xFFFF,
      reportAs false 3 11 1000 7, reportAs false 3 11 10000 2, reportAs false 3 11 100 0xFFFE, reportAs false 3 8 100 4,
      reportAs false 3 8 101 12, reportAs false 0 13 0xF000 0].all id) = true := by decide +kernel

/-- Reports that differ from those in one place and that no rule gives: an unknown tag from ENC, a known tag, a count's
length that is not `5 + 30·n` or is the actual one, a digit as the offending byte, a byte at a separator, a value that
fits its field, another field's locator, a legal word. -/
theorem test_report_refused :
    ([reportAs false 0 5 0x5858 2, reportAs true 0 5 0x4441 2, reportAs true 3 6 66 35, reportAs true 3 6 35 35,
      reportAs true 1 10 0x30 5, reportAs true 3 10 0x47 9, reportAs false 1 11 999 0xFFFF, reportAs false 3 11 1000 2,
      reportAs false 3 8 100 5, reportAs false 2 12 4091 4091, reportAs false 0 13 0x4000 0, reportAs true 0 7 0 0].any id) = false := by
  decide +kernel

/-- V2 of 44_value_field.md R153. -/
theorem test_value_V2 : ({ vs := 1, vm := 1250, es := 1, ee := 3 } : Triple).val = -125 / 100000 := by
  have h1 : ¬(1 : BitVec 1) = 0 := by decide
  have h2 : (1250 : BitVec 14).toNat = 1250 := by decide
  have h3 : (3 : BitVec 7).toNat = 3 := by decide
  simp only [Triple.val, Triple.exponent, h1, h2, h3, if_false]; norm_num

/-! ### Witnesses: concrete states and operands that meet the hypotheses of each statement -/

theorem witness_DecodeOfEncodeIsTheCommand :
    Instr.wellFormedWith true (.wrap 4095) = true ∧ Instr.wellFormedWith true .enc = true ∧
    Instr.wellFormedWith false (.axb 4095) = true := by decide

theorem witness_StepTakesTheNextHostOperation :
    State.reset.port = [] ∧
    ({ State.reset with port := [.fbRead 0, .reset] } : State).port = .fbRead 0 :: [.reset] ∧
    ({ State.reset with port := [.csrWrite 0 0x2FFF] } : State).port = .csrWrite 0 0x2FFF :: [] ∧
    decode 0x2FFF = .command (.axb 4095) ∧ Instr.wellFormed (.axb 4095) = true := by decide

theorem witness_IllegalWordReportsAndChangesNothingElse :
    decode 0x8000 = .illegal .reservedOpcode ∧ decode 0xFFFF = .illegal .reservedOpcode ∧
    decode 0x0001 = .illegal .nonzeroArgument := by decide

/-- Every CSR number falls under exactly one clause. -/
theorem witness_CsrReadReturnsTheRegister : ∀ c : BitVec 4,
    (c = 0x0 ∨ c = 0x1 ∨ c = 0x2 ∨ c = 0x3 ∨ c = 0x4 ∨ c = 0x5 ∨ c = 0x6 ∨ c = 0x7 ∨ c = 0x8 ∨ c = 0x9 ∨ c = 0xA ∨ c = 0xB) ≠
      (12 ≤ c.toNat) := by decide

theorem witness_CsrWriteStoresTheLowBits :
    (1 ≤ (1 : BitVec 4).toNat ∧ (1 : BitVec 4).toNat ≤ 4) ∧ (1 ≤ (4 : BitVec 4).toNat ∧ (4 : BitVec 4).toNat ≤ 4) ∧
    (6 ≤ (6 : BitVec 4).toNat ∧ (6 : BitVec 4).toNat ≤ 7) ∧ (6 ≤ (7 : BitVec 4).toNat ∧ (7 : BitVec 4).toNat ≤ 7) ∧
    12 ≤ (12 : BitVec 4).toNat ∧ 12 ≤ (15 : BitVec 4).toNat := by decide

theorem witness_FbWriteWritesOneByte : 0 ≠ (4095 : Index).toNat ∧ 4095 ≠ (0 : Index).toNat := by decide

theorem witness_RtWriteWritesOneField :
    (0 ≤ 98 ∧ (0 : BitVec 10).toNat = 8 * 0 + RtField.comp.id) ∧ (98 ≤ 98 ∧ (791 : BitVec 10).toNat = 8 * 98 + RtField.serial.id) ∧
    ((98, RtField.errsts) ≠ (98, RtField.serial)) ∧ 792 ≤ (792 : BitVec 10).toNat ∧ 792 ≤ (1023 : BitVec 10).toNat := by decide

theorem witness_MemoryReadsReturnWhatIsThere :
    (0 ≤ 98 ∧ (2 : BitVec 10).toNat = 8 * 0 + RtField.vm.id) ∧ (98 ≤ 98 ∧ (791 : BitVec 10).toNat = 8 * 98 + RtField.serial.id) ∧
    792 ≤ (792 : BitVec 10).toNat ∧ 792 ≤ (1023 : BitVec 10).toNat := by decide

theorem witness_CsumIsAclrAndAxbInAnyOrder :
    (([2, 0, 1] : List Index).map BitVec.toNat).Perm (List.range (3 : Index).toNat) ∧
    (([] : List Index).map BitVec.toNat).Perm (List.range (0 : Index).toNat) := by decide

theorem witness_ChecksumFollowsEveryBit : (0 < 1 ∧ 0 < 8) ∧ (4094 < 4095 ∧ 7 < 8) := by decide

/-- LEN 3 and 4; each marker wrong; a trailer unreadable, wrong and right (F4, F5, F6, F8, F7, F1). -/
theorem witness_FchkChecksInOrder :
    (holding [0x02, 0x03, 0x30]).len.toNat < 4 ∧
    (4 ≤ (holding [0x01, 0x03, 0x30, 0x31]).len.toNat ∧ (holding [0x01, 0x03, 0x30, 0x31]).fbGet 0 ≠ 0x02) ∧
    (4 ≤ (holding [0x02, 0x04, 0x30, 0x31]).len.toNat ∧ (holding [0x02, 0x04, 0x30, 0x31]).fbGet 0 = 0x02 ∧
      (holding [0x02, 0x04, 0x30, 0x31]).fbGet (4 - 3) ≠ 0x03) ∧
    (∀ l : List Nat, l ∈ [[0x02, 0x03, 0x30, 0x47], [0x02, 0x03, 0x30, 0x32], [0x02, 0x03, 0x30, 0x31]] →
      4 ≤ (holding l).len.toNat ∧ (holding l).fbGet 0 = 0x02 ∧ (holding l).fbGet (4 - 3) = 0x03) ∧
    hexUpperDigit ((holding [0x02, 0x03, 0x30, 0x47]).fbGet (4 - 1)) = none ∧
    (hexUpperDigit 0x30 = some 0 ∧ hexUpperDigit 0x32 = some 2 ∧
      0 * 16 + 2 ≠ ((holding [0x02, 0x03, 0x30, 0x32]).xorFold 0 (4 - 2)).toNat) ∧
    (hexUpperDigit 0x31 = some 1 ∧ 0 * 16 + 1 = ((holding [0x02, 0x03, 0x30, 0x31]).xorFold 0 (4 - 2)).toNat) := by
  decide +kernel

theorem witness_WrapBuildsTheFrame :
    (4092 : Index).toNat > 4091 ∧ (4095 : Index).toNat > 4091 ∧ (4091 : Index).toNat ≤ 4091 ∧ (0 : Index).toNat ≤ 4091 := by decide

theorem witness_WrapAndFchkAreInverse :
    (∃ t, exec (.wrap 0) State.reset = .next t ∧ t.err = 0) ∧ (∃ t, exec .fchk da123 = .next t ∧ t.err = 0) :=
  ⟨⟨_, rfl, by decide +kernel⟩, ⟨_, rfl, by decide +kernel⟩⟩

/-- A decidable form of being framed, for the witnesses. -/
def framed (s : State) : Bool :=
  decide (4 ≤ s.len.toNat ∧ s.fbGet 0 = Config.stx ∧ s.fbGet (s.len.toNat - 3) = Config.etx ∧
    s.fbGet (s.len.toNat - 2) = hexUpperChar ((s.xorFold 0 (s.len.toNat - 2)).toNat / 16) ∧
    s.fbGet (s.len.toNat - 1) = hexUpperChar ((s.xorFold 0 (s.len.toNat - 2)).toNat % 16))

theorem framed_of {s : State} (h : framed s = true) : s.Framed := by
  simp only [framed, decide_eq_true_eq] at h; exact h

/-- The first and the last payload byte, the lowest and the highest bit. -/
theorem witness_PayloadBitFlipIsDetected :
    da123.Framed ∧ (1 ≤ 1 ∧ 1 < da123.len.toNat - 3 ∧ 0 < 8) ∧ (1 ≤ 5 ∧ 5 < da123.len.toNat - 3 ∧ 7 < 8) :=
  ⟨framed_of (by decide +kernel), by decide +kernel, by decide +kernel⟩

theorem witness_DecFailsTheFrameCheckAsFchk : ∃ t, exec .fchk State.reset = .next t ∧ t.err ≠ 0 :=
  ⟨_, rfl, by decide +kernel⟩

/-- Payload lengths 0, 1 and 2, and a tag that differs in case only. -/
theorem witness_DecRejectsUnknownTags :
    (empty.Framed ∧ empty.len.toNat - 4 < 2) ∧ (oneChar.Framed ∧ oneChar.len.toNat - 4 < 2) ∧
    (xx.Framed ∧ 2 ≤ xx.len.toNat - 4 ∧ ¬(xx.fbGet 1 = 0x44 ∧ xx.fbGet 2 = 0x41) ∧ ¬(xx.fbGet 1 = 0x53 ∧ xx.fbGet 2 = 0x54) ∧
      ¬(xx.fbGet 1 = 0x4D ∧ xx.fbGet 2 = 0x44)) ∧
    (lower.Framed ∧ 2 ≤ lower.len.toNat - 4 ∧ ¬(lower.fbGet 1 = 0x44 ∧ lower.fbGet 2 = 0x41) ∧
      ¬(lower.fbGet 1 = 0x53 ∧ lower.fbGet 2 = 0x54) ∧ ¬(lower.fbGet 1 = 0x4D ∧ lower.fbGet 2 = 0x44)) := by
  refine ⟨⟨framed_of ?_, ?_⟩, ⟨framed_of ?_, ?_⟩, ⟨framed_of ?_, ?_⟩, framed_of ?_, ?_⟩ <;> decide +kernel

/-- A framed buffer with a given tag and payload length. -/
def tagged (s : State) (a b : Byte) (P : Nat) : Bool :=
  framed s && s.fbGet 1 == a && s.fbGet 2 == b && s.len.toNat - 4 == P

/-- Payload lengths 2 to 6; the first and the last digit malformed, with the digits before it well-formed. -/
theorem witness_DecDecodesAddressing :
    tagged daBare 0x44 0x41 2 = true ∧ tagged da123 0x44 0x41 5 = true ∧ tagged da3 0x44 0x41 3 = true ∧
    tagged da4 0x44 0x41 4 = true ∧ tagged da6 0x44 0x41 6 = true ∧ da123.Dec3At 3 123 ∧
    (tagged daBad3 0x44 0x41 5 = true ∧ CharClass.decimal.has (daBad3.fbGet 3) = false) ∧
    (tagged daBad5 0x44 0x41 5 = true ∧ CharClass.decimal.has (daBad5.fbGet 5) = false ∧
      ∀ j, 3 ≤ j → j < 5 → CharClass.decimal.has (daBad5.fbGet j) = true) := by
  refine ⟨by decide +kernel, by decide +kernel, by decide +kernel, by decide +kernel, by decide +kernel, ?_,
    by decide +kernel, by decide +kernel, by decide +kernel, fun j h1 h2 => ?_⟩
  · exact ⟨1, 2, 3, ⟨by decide, by decide +kernel⟩, ⟨by decide, by decide +kernel⟩, ⟨by decide, by decide +kernel⟩, rfl⟩
  · interval_cases j <;> decide +kernel

/-- Payload lengths 2, 5 and 6; the first and the last digit malformed. -/
theorem witness_DecDecodesStatus :
    tagged st2 0x53 0x54 2 = true ∧ tagged st5 0x53 0x54 5 = true ∧ (tagged st6 0x53 0x54 6 = true ∧ st6.Dec3At 3 7) ∧
    (tagged stBad3 0x53 0x54 7 = true ∧ CharClass.decimal.has (stBad3.fbGet 3) = false) ∧
    (tagged stBad5 0x53 0x54 7 = true ∧ CharClass.decimal.has (stBad5.fbGet 5) = false ∧
      ∀ j, 3 ≤ j → j < 5 → CharClass.decimal.has (stBad5.fbGet j) = true) := by
  refine ⟨by decide +kernel, by decide +kernel, ⟨by decide +kernel, ?_⟩, by decide +kernel, by decide +kernel,
    by decide +kernel, fun j h1 h2 => ?_⟩
  · exact ⟨0, 0, 7, ⟨by decide, by decide +kernel⟩, ⟨by decide, by decide +kernel⟩, ⟨by decide, by decide +kernel⟩, rfl⟩
  · interval_cases j <;> decide +kernel

/-- The reading of the block `001 +0000+00 00 00 005 000000 `. -/
def reading5 : Reading := { comp := 1, value := { vs := 0, vm := 0, es := 0, ee := 0 }, opsts := 0, errsts := 0, serial := 5 }

/-- No block, and one block. -/
theorem witness_DecDecodesMeasurements :
    (tagged md0 0x4D 0x44 5 = true ∧ md0.Dec2At 3 0) ∧
    (tagged md1 0x4D 0x44 35 = true ∧ md1.Dec2At 3 1 ∧ ∀ i (h : i < [reading5].length), md1.BlockAt (6 + 30 * i) [reading5][i]) := by
  refine ⟨⟨by decide +kernel, 0, 0, ⟨by decide, by decide +kernel⟩, ⟨by decide, by decide +kernel⟩, rfl⟩,
    by decide +kernel, ⟨0, 1, ⟨by decide, by decide +kernel⟩, ⟨by decide, by decide +kernel⟩, rfl⟩, fun i h => ?_⟩
  obtain rfl : i = 0 := by simpa using h
  refine ⟨⟨0, 0, 1, ?_, ?_, ?_, rfl⟩, ⟨.inl ⟨rfl, ?_⟩, ⟨0, 0, ?_, ⟨0, 0, 0, ?_, ?_, ?_, rfl⟩, rfl⟩, .inl ⟨rfl, ?_⟩,
    ⟨0, 0, ?_, ?_, rfl⟩⟩, ⟨0, 0, ?_, ?_, rfl⟩, ⟨0, 0, ?_, ?_, rfl⟩, ⟨0, 0, 5, ?_, ?_, ?_, rfl⟩⟩ <;>
    first | exact ⟨by decide, by decide +kernel⟩ | decide +kernel

/-- Payload lengths 2, 3 and 4; either count digit malformed; a length that does not fit; the first and the last
examined character of a block malformed. -/
theorem witness_DecRejectsMalformedMeasurements :
    tagged md2 0x4D 0x44 2 = true ∧ tagged md3 0x4D 0x44 3 = true ∧
    (tagged mdBad3 0x4D 0x44 5 = true ∧ CharClass.decimal.has (mdBad3.fbGet 3) = false) ∧
    (tagged mdBad4 0x4D 0x44 5 = true ∧ CharClass.decimal.has (mdBad4.fbGet 4) = false ∧
      CharClass.decimal.has (mdBad4.fbGet 3) = true) ∧
    (tagged md4 0x4D 0x44 4 = true ∧ md4.Dec2At 3 0 ∧ 4 ≠ 5 + 30 * 0) ∧
    (tagged mdShort 0x4D 0x44 35 = true ∧ mdShort.Dec2At 3 2 ∧ 35 ≠ 5 + 30 * 2) ∧
    (tagged mdBad6 0x4D 0x44 35 = true ∧ mdBad6.Dec2At 3 1 ∧ 35 = 5 + 30 * 1 ∧ mdBad6.blockCharOk 6 = false) ∧
    (tagged mdBad27 0x4D 0x44 35 = true ∧ mdBad27.Dec2At 3 1 ∧ mdBad27.blockCharOk 27 = false ∧
      ∀ j, 6 ≤ j → j < 27 → mdBad27.blockCharOk j = true) := by
  refine ⟨by decide +kernel, by decide +kernel, by decide +kernel, by decide +kernel,
    ⟨by decide +kernel, ⟨0, 0, ?_, ?_, rfl⟩, by decide⟩, ⟨by decide +kernel, ⟨0, 2, ?_, ?_, rfl⟩, by decide⟩,
    ⟨by decide +kernel, ⟨0, 1, ?_, ?_, rfl⟩, by decide, by decide +kernel⟩,
    ⟨by decide +kernel, ⟨0, 1, ?_, ?_, rfl⟩, by decide +kernel, fun j h1 h2 => ?_⟩⟩
  on_goal 9 => interval_cases j <;> decide +kernel
  all_goals exact ⟨by decide, by decide +kernel⟩

theorem witness_DecLeavesNoPartialRecord :
    (∃ t, exec .dec mdShort = .next t ∧ t.err ≠ 0) ∧ (∃ t, exec .dec md1 = .next t ∧ t.err = 0 ∧ t.count.toNat ≤ 1) :=
  ⟨⟨_, rfl, by decide +kernel⟩, ⟨_, rfl, by decide +kernel, by decide +kernel⟩⟩

theorem witness_DecodedFieldsAreLegal : ∃ t, exec .dec md1 = .next t ∧ t.err = 0 ∧ 0 < t.count.toNat :=
  ⟨_, rfl, by decide +kernel, by decide +kernel⟩

/-- Two states with the same frame and everything else different. -/
theorem witness_FrameOutcomeDependsOnTheFrameAlone :
    ({ da123 with acc := 0, err := 9, ttype := 3, count := 5 } : State).len = da123.len ∧
    (∀ k, k < da123.len.toNat → ({ da123 with acc := 0, err := 9, ttype := 3, count := 5 } : State).fbGet k = da123.fbGet k) ∧
    (∃ t, exec .fchk da123 = .next t) ∧ (∃ t, exec .dec da123 = .next t) :=
  ⟨rfl, fun _ _ => rfl, ⟨_, rfl⟩, ⟨_, rfl⟩⟩

theorem witness_EncNeedsARecord : State.reset.ttype = 0 := by decide

/-- P 0 and 1, and VAL 999 and 1000. -/
theorem witness_EncEncodesAddressing :
    (∀ v : BitVec 10, v ∈ [999, 1000] → ({ State.reset with ttype := 1, compP := true, compVal := v } : State).ttype = 1) ∧
    (999 : BitVec 10).toNat ≤ 999 ∧ 999 < (1000 : BitVec 10).toNat ∧
    ({ State.reset with ttype := 1 } : State).ttype = 1 ∧ ({ State.reset with ttype := 1 } : State).compP = false := by decide

/-- VAL 999 and 1000, CMDLEN 4086 and 4087. -/
theorem witness_EncEncodesStatus :
    ({ State.reset with ttype := 2, compVal := 1000 } : State).ttype = 2 ∧ 999 < (1000 : BitVec 10).toNat ∧
    ({ State.reset with ttype := 2, compVal := 999, cmdlen := 4087 } : State).ttype = 2 ∧ (999 : BitVec 10).toNat ≤ 999 ∧
    4086 < (4087 : Index).toNat ∧
    ({ State.reset with ttype := 2, compVal := 999, cmdlen := 4086 } : State).ttype = 2 ∧ (4086 : Index).toNat ≤ 4086 := by
  decide

/-- A table of one entry with COUNT = 1. -/
def oneEntry (e : List Nat) : State := { State.reset with ttype := 3, count := 1, rt := tableOf [e] }

/-- No entry, and one whose every field is the largest that fits, its exponent one that underflows. -/
theorem witness_EncEncodesMeasurements :
    (({ State.reset with ttype := 3 } : State).count.toNat = 0) ∧ (oneEntry [999, 1, 9999, 1, 127, 255, 255, 999]).ttype = 3 ∧
    (oneEntry [999, 1, 9999, 1, 127, 255, 255, 999]).count.toNat = 1 ∧
    ∀ i, i < 1 → ((oneEntry [999, 1, 9999, 1, 127, 255, 255, 999]).rtReading i).Encodable := by
  refine ⟨by decide, by decide, by decide, fun i h => ?_⟩
  obtain rfl : i = 0 := by omega
  exact ⟨by decide +kernel, by decide +kernel, .inr (by decide +kernel), by decide +kernel⟩

/-- COUNT 99 and 100; each field one above what fits, with the fields before it at what fits. -/
theorem witness_EncRejectsFieldsThatDoNotFit :
    (99 < (100 : BitVec 7).toNat ∧ (99 : BitVec 7).toNat ≤ 99) ∧
    999 < ((oneEntry [1000, 0, 0, 0, 0, 0, 0, 0]).rtReading 0).comp.toNat ∧
    (((oneEntry [999, 0, 10000, 0, 0, 0, 0, 0]).rtReading 0).comp.toNat ≤ 999 ∧
      9999 < ((oneEntry [999, 0, 10000, 0, 0, 0, 0, 0]).rtReading 0).value.vm.toNat) ∧
    (((oneEntry [999, 0, 9999, 0, 100, 0, 0, 0]).rtReading 0).value.vm.toNat ≤ 9999 ∧
      99 < ((oneEntry [999, 0, 9999, 0, 100, 0, 0, 0]).rtReading 0).value.ee.toNat ∧
      ((oneEntry [999, 0, 9999, 0, 100, 0, 0, 0]).rtReading 0).value.es = 0) ∧
    (((oneEntry [999, 0, 9999, 0, 99, 0, 0, 1000]).rtReading 0).value.ee.toNat ≤ 99 ∧
      999 < ((oneEntry [999, 0, 9999, 0, 99, 0, 0, 1000]).rtReading 0).serial.toNat) ∧
    (((oneEntry [999, 0, 9999, 1, 100, 0, 0, 1000]).rtReading 0).value.es = 1 ∧
      999 < ((oneEntry [999, 0, 9999, 1, 100, 0, 0, 1000]).rtReading 0).serial.toNat) := by decide +kernel

theorem witness_EncLeavesTheRecord :
    (∃ t, exec .enc State.reset = .next t ∧ t.err ≠ 0) ∧ (∃ t, exec .enc { State.reset with ttype := 1 } = .next t ∧ t.err = 0) :=
  ⟨⟨_, rfl, by decide +kernel⟩, ⟨_, rfl, by decide +kernel⟩⟩

/-- WRAP of one byte, and ENC of an ST record with one character of text, from states that differ elsewhere. -/
theorem witness_EncodeDependsOnTheRecordAlone :
    (∀ k, 1 ≤ k → k < (1 : Index).toNat + 1 → ({ da123 with acc := 0, len := 3 } : State).fbGet k = da123.fbGet k) ∧
    (∃ t, exec (.wrap 1) da123 = .next t ∧ t.err = 0) ∧
    SameRecordRegs { stOn with ttype := 2, cmdlen := 1 } { stOn with ttype := 2, cmdlen := 1, acc := 0, len := 3 } ∧
    (∃ t, exec .enc { stOn with ttype := 2, cmdlen := 1 } = .next t ∧ t.err = 0) :=
  ⟨fun _ _ _ => rfl, ⟨_, rfl, by decide +kernel⟩, ⟨rfl, rfl, rfl, rfl, rfl⟩, ⟨_, rfl, by decide +kernel⟩⟩

/-- The largest mantissa and exponent; the value field of the frame `MD01 ...` at frame index 10. -/
theorem witness_ValueFieldRoundTrip :
    ((9999 : BitVec 14).toNat ≤ 9999 ∧ (99 : BitVec 7).toNat ≤ 99) ∧
    md1.getValue 10 = .ok { vs := 0, vm := 0, es := 0, ee := 0 } := ⟨by decide, rfl⟩

/-- An ST record without text, and an MD record whose exponent underflows (E5, E11). -/
theorem witness_DecAfterEncReturnsTheRecord :
    (∃ t, exec .enc { State.reset with ttype := 2, compVal := 7 } = .next t ∧ t.err = 0) ∧
    (∃ t, exec .enc (oneEntry [1, 1, 1234, 1, 100, 0, 0, 5]) = .next t ∧ t.err = 0) :=
  ⟨⟨_, rfl, by decide +kernel⟩, ⟨_, rfl, by decide +kernel⟩⟩

/-- A DA frame, and an MD frame with junk in every unexamined position. -/
theorem witness_EncAfterDecKeepsTheFrame :
    (∃ t, exec .dec da123 = .next t ∧ t.err = 0 ∧ t.ttype ≠ 3) ∧ (∃ t, exec .dec mdJunk = .next t ∧ t.err = 0 ∧ t.ttype = 3) ∧
    blockClass ((6 - 6) % 30) = .decimal ∧ blockClass ((10 - 6) % 30) = .sign ∧ blockClass ((19 - 6) % 30) = .hex ∧
    blockClass ((29 - 6) % 30) = .anything ∧ 35 < mdJunk.len.toNat - 3 :=
  ⟨⟨_, rfl, by decide +kernel, by decide +kernel⟩, ⟨_, rfl, by decide +kernel, by decide +kernel⟩, by decide, by decide,
    by decide, by decide, by decide⟩

theorem witness_EveryStepKeepsTheInvariant :
    ∃ t, ({ State.reset with port := [.csrWrite 0 0x7000] } : State).Inv ∧
      step { State.reset with port := [.csrWrite 0 0x7000] } = .next t := ⟨_, by decide, rfl⟩

theorem witness_CommandsEndWithTheirOwnCodes :
    (∃ t, exec .enc State.reset = .next t) ∧ decode 0xFFFF = .illegal .reservedOpcode ∧
    (∃ t, hostStep (.csrWrite 0 0xFFFF) State.reset = .next t) := ⟨⟨_, rfl⟩, by decide, ⟨_, rfl⟩⟩

theorem witness_CommandsWriteOnlyTheirPlaces :
    (∃ t, exec .dec da123 = .next t) ∧ (∃ t, exec (.wrap 4092) da123 = .next t ∧ t.err ≠ 0) :=
  ⟨⟨_, rfl⟩, ⟨_, rfl, by decide +kernel⟩⟩

theorem witness_ReportStaysUntilTheNextCheckedCommand :
    ∃ t, hostStep (.csrWrite 0 0x4000) State.reset = .next t ∧ ¬SameReport State.reset t :=
  ⟨_, rfl, fun h => absurd h.2.2.1 (by decide)⟩

/-- A byte changed by FbWrite, and a field changed by RtWrite. -/
theorem witness_MemoryIsStableUntilWritten :
    (∃ t, hostStep (.fbWrite 0 0x05) da123 = .next t ∧ t.fbGet 0 ≠ da123.fbGet 0) ∧
    (∃ t, hostStep (.rtWrite 0 7) (oneEntry [1, 0, 0, 0, 0, 0, 0, 0]) = .next t ∧
      t.rtGet 0 .comp ≠ (oneEntry [1, 0, 0, 0, 0, 0, 0, 0]).rtGet 0 .comp) :=
  ⟨⟨_, rfl, by decide +kernel⟩, ⟨_, rfl, by decide +kernel⟩⟩

/-- A rounding that the hypothesis of the host-side statement admits: to the nearest, a tie upward. -/
def roundUp : Round4 := fun x =>
  let d := Int.log 10 x
  let m := ⌊x / (10 : Rat) ^ (d - 3) + 1 / 2⌋.toNat
  if m = 10000 then (1000, d + 1) else (m, d)

theorem roundUp_sound : roundUp.Sound := by
  intro x d h1 h2
  have hx : 0 < x := lt_of_lt_of_le (by positivity) h1
  have hd : Int.log 10 x = d := by
    apply le_antisymm
    · have := (Int.lt_zpow_iff_log_lt (b := 10) (by norm_num) hx (x := d + 1)).1 (by exact_mod_cast h2)
      omega
    · exact (Int.zpow_le_iff_le_log (b := 10) (by norm_num) hx).1 (by exact_mod_cast h1)
  have hp : (0 : Rat) < 10 ^ (d - 3) := by positivity
  have e1 : (10 : Rat) ^ d = 1000 * 10 ^ (d - 3) := by
    rw [zpow_sub₀ (by norm_num)]; norm_num; ring
  have e2 : (10 : Rat) ^ (d + 1) = 10000 * 10 ^ (d - 3) := by
    rw [zpow_add₀ (by norm_num), e1]; norm_num; ring
  set y := x / (10 : Rat) ^ (d - 3) with hy
  have hxy : x = y * 10 ^ (d - 3) := by rw [hy]; field_simp
  have hy1 : 1000 ≤ y := by rw [hy, le_div_iff₀ hp]; linarith
  have hy2 : y < 10000 := by rw [hy, div_lt_iff₀ hp]; linarith
  have hf0 : (1000 : Int) ≤ ⌊y + 1 / 2⌋ := Int.le_floor.2 (by push_cast; linarith)
  have hf1 : ⌊y + 1 / 2⌋ ≤ (10000 : Int) := by
    have : ⌊y + 1 / 2⌋ < (10001 : Int) := Int.floor_lt.2 (by push_cast; linarith)
    omega
  have hm : ((⌊y + 1 / 2⌋.toNat : Nat) : Rat) = ((⌊y + 1 / 2⌋ : Int) : Rat) := by
    rw [← Int.cast_natCast, Int.toNat_of_nonneg (by omega)]
  have g1 := Int.floor_le (y + 1 / 2)
  have g2 := Int.lt_floor_add_one (y + 1 / 2)
  have key : |((⌊y + 1 / 2⌋ : Int) : Rat) * 10 ^ (d - 3) - x| ≤ 10 ^ (d - 3) / 2 := by
    rw [hxy, ← sub_mul, abs_mul, abs_of_pos hp]
    have : |((⌊y + 1 / 2⌋ : Int) : Rat) - y| ≤ 1 / 2 := by rw [abs_le]; constructor <;> linarith
    nlinarith
  simp only [roundUp, hd, ← hy]
  by_cases h : ⌊y + 1 / 2⌋.toNat = 10000
  · rw [if_pos h]
    refine ⟨by simp, by simp, .inr ⟨rfl, rfl⟩, ?_⟩
    have hf : ((⌊y + 1 / 2⌋ : Int) : Rat) = 10000 := by rw [← hm, h]; norm_num
    rw [hf] at key
    have e3 : (((1000, d + 1) : Nat × Int).1 : Rat) * (10 : Rat) ^ (((1000, d + 1) : Nat × Int).2 - 3) = 10000 * 10 ^ (d - 3) := by
      show ((1000 : Nat) : Rat) * (10 : Rat) ^ (d + 1 - 3) = _
      rw [show d + 1 - 3 = (d - 3) + 1 by ring, zpow_add₀ (by norm_num)]; push_cast; ring
    rw [e3]; exact key
  · rw [if_neg h]
    refine ⟨by show 1000 ≤ ⌊y + 1 / 2⌋.toNat; omega, by show ⌊y + 1 / 2⌋.toNat ≤ 9999; omega, .inl rfl, ?_⟩
    show |((⌊y + 1 / 2⌋.toNat : Nat) : Rat) * (10 : Rat) ^ (d - 3) - x| ≤ _
    rw [hm]; exact key

/-- A power of ten is its own rounding. -/
theorem roundUp_zpow (d : Int) : roundUp ((10 : Rat) ^ d) = (1000, d) := by
  have hd : Int.log 10 ((10 : Rat) ^ d) = d := by exact_mod_cast Int.log_zpow (R := Rat) (b := 10) (by norm_num) d
  have hf : ⌊(10 : Rat) ^ d / 10 ^ (d - 3) + 1 / 2⌋ = 1000 := by
    rw [← zpow_sub₀ (by norm_num), show d - (d - 3) = 3 by ring, Int.floor_eq_iff]; norm_num
  simp only [roundUp, hd, hf]; rfl

/-- V12 to V20 of 95_test_vectors.md, less V14 and V16: none is a tie, so every rounding gives them. -/
theorem test_quant_vectors (r : Round4) (hr : r.Sound) :
    quant r 1000 = .ok { vs := 0, vm := 1000, es := 0, ee := 3 } ∧
    quant r (1 / 1000) = .ok { vs := 0, vm := 1000, es := 1, ee := 3 } ∧
    quant r (99996 / 10) = .ok { vs := 0, vm := 1000, es := 0, ee := 4 } ∧
    quant r (-(1 / 10 ^ 100)) = .ok { vs := 0, vm := 0, es := 1, ee := 99 } ∧
    quant r (10 ^ 100) = .error .valueTooLarge ∧
    quant r (99996 * 10 ^ 95) = .error .valueTooLarge ∧
    quant r (99996 / 10 ^ 104) = .ok { vs := 0, vm := 1000, es := 1, ee := 99 } := by
  have near : ∀ (x : Rat) (d : Int) (n : Nat), (10 : Rat) ^ d ≤ x → x < (10 : Rat) ^ (d + 1) →
      |(n : Rat) * (10 : Rat) ^ (d - 3) - x| < (10 : Rat) ^ (d - 3) / 2 →
      r x = if n = 10000 then (1000, d + 1) else (n, d) := fun _ _ _ h1 h2 h3 => hr.eq_of_near h1 h2 h3
  have a := near 1000 3 1000 (by norm_num) (by norm_num) (by norm_num)
  have b := near (1 / 1000) (-3) 1000 (by norm_num) (by norm_num) (by norm_num)
  have c := near (99996 / 10) 3 10000 (by norm_num) (by norm_num) (by norm_num [abs_of_pos])
  have d := near (1 / 10 ^ 100) (-100) 1000 (by norm_num) (by norm_num) (by norm_num)
  have e := near (10 ^ 100) 100 1000 (by norm_num) (by norm_num) (by norm_num)
  have f := near (99996 * 10 ^ 95) 99 10000 (by norm_num) (by norm_num) (by norm_num [abs_of_pos])
  have g := near (99996 / 10 ^ 104) (-100) 10000 (by norm_num) (by norm_num) (by norm_num [abs_of_pos])
  have pos : ∀ {x : Rat} {p : Nat × Int}, 0 < x → r x = p → quant r x =
      if p.2 ≤ -100 then .ok sentinel else if 100 ≤ p.2 then .error .valueTooLarge else
        .ok { vs := 0, vm := BitVec.ofNat 14 p.1, es := if p.2 < 0 then 1 else 0, ee := BitVec.ofNat 7 p.2.natAbs } := by
    intro x p h hp
    simp [quant, h.ne', not_lt.2 h.le, hp]
  refine ⟨(pos (by norm_num) a).trans (by decide), (pos (by norm_num) b).trans (by decide),
    (pos (by norm_num) c).trans (by decide), ?_, (pos (by norm_num) e).trans (by decide),
    (pos (by norm_num) f).trans (by decide), (pos (by norm_num) g).trans (by decide)⟩
  have hn : (-(1 / 10 ^ 100) : Rat) < 0 := by norm_num
  simp only [quant, hn.ne, hn, if_false, if_true, neg_neg, d]; decide

/-- A number that meets the hypotheses of `Obligations.QuantIsWithinHalfAUnit` in each of its ranges, at their ends: the
exponents -100, -99, 99 and 100; one that rounds up to 10000 (V19); and a negative one. -/
theorem witness_QuantIsWithinHalfAUnit :
    roundUp.Sound ∧
    (∀ d : Int, (10 : Rat) ^ d ≤ |(10 : Rat) ^ d| ∧ |(10 : Rat) ^ d| < (10 : Rat) ^ (d + 1) ∧
      (roundUp |(10 : Rat) ^ d|).2 = d) ∧
    (-100 : Int) ≤ -100 ∧ ((-100 : Int) < -99 ∧ (-99 : Int) < 100) ∧ ((-100 : Int) < 99 ∧ (99 : Int) < 100) ∧
    (100 : Int) ≤ 100 ∧
    ((10 : Rat) ^ (99 : Int) ≤ |99996 * 10 ^ 95| ∧ |(99996 * 10 ^ 95 : Rat)| < 10 ^ ((99 : Int) + 1) ∧
      19999 * (10 : Rat) ^ ((99 : Int) - 3) < 2 * |99996 * 10 ^ 95|) ∧
    (2 * |(10 : Rat) ^ (99 : Int)| < 19999 * (10 : Rat) ^ ((99 : Int) - 3)) ∧
    (10 : Rat) ^ (0 : Int) ≤ |(-25 / 10 : Rat)| ∧ |(-25 / 10 : Rat)| < (10 : Rat) ^ ((0 : Int) + 1) := by
  refine ⟨roundUp_sound, fun d => ?_, by decide, by decide, by decide, by decide, by norm_num [abs_of_pos],
    by norm_num [abs_of_pos], by norm_num [abs_of_neg],
    by norm_num [abs_of_neg]⟩
  have hp : (0 : Rat) < 10 ^ d := by positivity
  rw [abs_of_pos hp, roundUp_zpow, zpow_add₀ (by norm_num)]
  exact ⟨le_refl _, by norm_num; linarith, rfl⟩

/-- The hypothesis of `Obligations.AclrClearsTheAccumulator` at both ends of its range. -/
theorem witness_AclrClearsTheAccumulator : (1 : Index) ≠ 0 ∧ (4095 : Index) ≠ 0 := by decide

end Sys2Proof.Tests
end

section
/-! PROOFS. Family 10_state.md: what each command and host operation may change (R16, R31, R33), and what the outcome of
a command may depend on (R30). -/

namespace Sys2Proof.Machine

/-! ### Two states that agree -/

theorem SameReport.refl (s : State) : SameReport s s := ⟨rfl, rfl, rfl, rfl, rfl⟩

theorem SameRecordRegs.refl (s : State) : SameRecordRegs s s := ⟨rfl, rfl, rfl, rfl, rfl⟩

theorem SameModelFields.refl (s : State) : SameModelFields s s := ⟨rfl, rfl, rfl⟩

/-- The frame buffer reads the same when its listed bytes and the reset it dates from are the same. -/
theorem SameFb.of_fb_eq {s t : State} (hfb : t.fb = s.fb) (hm : SameModelFields s t) : SameFb s t := by
  intro k
  simp only [State.fbGet, State.fbUnlisted, hfb, hm.1]

/-- The reading table reads the same when its listed fields and the reset it dates from are the same. -/
theorem SameRt.of_rt_eq {s t : State} (hrt : t.rt = s.rt) (hm : SameModelFields s t) : SameRt s t := by
  intro i f
  simp only [State.rtGet, State.rtData, State.rtUnlisted, hrt, hm.1]

/-- The two states agree on what a frame check reads: LEN and `FB[0 .. LEN)` (10_state.md R30). -/
def SameFrame (s s' : State) : Prop := s'.len = s.len ∧ ∀ k, k < s.len.toNat → s'.fbGet k = s.fbGet k

theorem SameFrame.refl (s : State) : SameFrame s s := ⟨rfl, fun _ _ => rfl⟩

theorem SameFrame.setHtype {s s' : State} (h : SameFrame s s') (x : BitVec 2) :
    SameFrame (s.setHtype x) (s'.setHtype x) := h

theorem SameFrame.framed {s s' : State} (h : SameFrame s s') (hf : s.Framed) : s'.Framed := hf.congr h.1 h.2

/-- The checksum of the frame is one of the things the two states share. -/
theorem SameFrame.xorFold {s s' : State} (h : SameFrame s s') :
    s'.xorFold 0 (s.len.toNat - 2) = s.xorFold 0 (s.len.toNat - 2) :=
  State.xorFold_congr fun j _ hj => h.2 j (by omega)

/-- A frame check that passes writes the same ACC and PLEN in both states (41_frame_envelope.md R100). -/
theorem SameFrame.passed_acc {s s' : State} (h : SameFrame s s') (x : BitVec 2) :
    (s'.passed x).acc = (s.passed x).acc := by simp only [State.passed, h.1, h.xorFold]

theorem SameFrame.passed_plen {s s' : State} (h : SameFrame s s') (x : BitVec 2) :
    (s'.passed x).plen = (s.passed x).plen := by simp only [State.passed, h.1]

/-- No error has the number 0, which says that there was none (10_state.md R16). -/
theorem ErrCode.number_ne_zero (c : ErrCode) : c.number ≠ 0 := by cases c <;> decide

/-! ### What each command can do -/

/-- The frame check writes at most GOTV, ACC and PLEN (41_frame_envelope.md R100). -/
theorem State.frameCheck_frame (s : State) :
    ∃ g a p, s.frameCheck.1 = { s with gotv := g, acc := a, plen := p } := by
  rcases s.frameCheck_cases with
    ⟨_, hc⟩ | ⟨_, _, hc⟩ | ⟨_, _, _, hc⟩ | ⟨_, _, _, _, hc⟩ | ⟨_, _, _, _, _, _, hc⟩ | ⟨_, hc⟩ <;>
    rw [hc] <;> exact ⟨_, _, _, rfl⟩

/-- FCHK after a failed frame check, and after one that passed (41_frame_envelope.md R101). -/
theorem exec_fchk_of_failed {s u : State} {f : Failure} (h : (s.setHtype 0).frameCheck = (u, some f)) :
    exec .fchk s = .next ((u.setPlen 0).fail f) := by simp only [exec, execFchk, h]

theorem exec_fchk_of_framed {s : State} (h : s.Framed) : exec .fchk s = .next (s.passed 0) := by
  have hf := State.frameCheck_pass ((s.framed_setHtype 0).2 h)
  simp only [State.setHtype_len, State.xorFold_setHtype] at hf
  simp only [exec, execFchk, hf]; rfl

/-- DEC after a failed frame check (42_dispatch_da_st.md R120). -/
theorem exec_dec_of_failed {s u : State} {f : Failure} (h : (s.setHtype 0).frameCheck = (u, some f)) :
    exec .dec s = .next ((u.setPlen 0).clearRecord.fail f) := by simp only [exec, execDec, h]

/-- FCHK changes at most the report, ACC and PLEN (10_state.md R33). -/
theorem exec_fchk_frame {s t : State} (h : exec .fchk s = .next t) :
    ∃ g e a b c p, t = { s with gotv := g, htype := 0, err := e, infoA := a, infoB := b, acc := c, plen := p } := by
  obtain ⟨g, a, p, hu⟩ := (s.setHtype 0).frameCheck_frame
  cases hc : (s.setHtype 0).frameCheck with
  | mk u r =>
    rw [hc] at hu; subst hu
    cases r <;> simp only [exec, execFchk, hc] at h <;> cases h <;> exact ⟨_, _, _, _, _, _, rfl⟩

/-- DEC writes neither FB nor LEN, nor the model's own fields (10_state.md R33). -/
theorem exec_dec_frame {s t : State} (h : exec .dec s = .next t) :
    SameModelFields s t ∧ t.fb = s.fb ∧ t.len = s.len := by
  obtain ⟨g, a, p, hu⟩ := (s.setHtype 0).frameCheck_frame
  cases hc : (s.setHtype 0).frameCheck with
  | mk u r =>
    rw [hc] at hu; subst hu
    cases r with
    | some f =>
      rw [exec_dec_of_failed hc] at h; cases h
      exact ⟨⟨rfl, rfl, rfl⟩, rfl, rfl⟩
    | none =>
      simp only [exec, execDec, hc] at h
      split at h <;> cases h <;> exact ⟨⟨rfl, rfl, rfl⟩, rfl, rfl⟩

/-- WRAP refuses a payload that does not fit with only the report written (41_frame_envelope.md R110). -/
theorem exec_wrap_of_tooLong {n : Index} (hn : 4091 < n.toNat) (s : State) :
    exec (.wrap n) s =
      .next ((s.setStatus false 0).fail { code := .frameTooLong, infoA := n.setWidth 16, infoB := 4091 }) := by
  simp only [exec, execWrap, Config.payloadMax, gt_iff_lt, hn, if_true]; rfl

/-- WRAP builds the frame of a payload that fits (41_frame_envelope.md R110). -/
theorem exec_wrap_built {n : Index} (hn : n.toNat ≤ 4091) (s : State) :
    ∃ t, exec (.wrap n) s = .next t ∧ BuiltFrame s t 0 (s.fbBytes 1 n.toNat) := by
  refine ⟨_, ?_, State.wrapFrame_built s 0 rfl⟩
  simp only [exec, execWrap, Config.payloadMax, gt_iff_lt, Nat.not_lt.2 hn, if_false]

/-- The payload bytes that a type encoder does not store itself are the command text of an ST record
(45_encode.md R170, R172). -/
theorem State.encodeRecord_length {s : State} {p : EncodedPayload} (h : s.encodeRecord = .ok p) :
    p.bytes.length = p.length ∨ s.ttype = 2 ∧ p.bytes.length = 5 ∧ p.length = 5 + s.cmdlen.toNat := by
  rcases State.encodeRecord_ok h with ⟨_, _, rfl⟩ | ⟨_, _, _, rfl⟩ | ⟨ht, _, _, rfl⟩ | ⟨_, _, _, rfl⟩
  · exact .inl rfl
  · left; simp
  · right; exact ⟨ht, by simp, rfl⟩
  · left
    have hblocks := length_flatMap_blocks (List.range s.count.toNat)
      (fun i => (s.rtReading i).block (s.rtReading i).value.emitted) (by simp)
    simp [hblocks]; omega

/-- ENC fails with only the report written when its type encoder does (45_encode.md R170). -/
theorem exec_enc_of_error {s : State} {f : Failure} (h : s.encodeRecord = .error f) :
    exec .enc s = .next ((s.setStatus false s.ttype).fail f) := by rw [exec_enc_eq, h]

/-- ENC builds the frame of the payload its type encoder answers (45_encode.md R170). -/
theorem exec_enc_built {s : State} {p : EncodedPayload} (h : s.encodeRecord = .ok p) :
    ∃ t, exec .enc s = .next t ∧ BuiltFrame s t s.ttype ((s.storeBytes 1 p.bytes).fbBytes 1 p.length) := by
  have hle : p.bytes.length ≤ p.length := by
    rcases State.encodeRecord_length h with hl | ⟨_, h5, hl⟩ <;> omega
  exact ⟨_, by rw [exec_enc_eq, h], State.storeBytes_wrapFrame_built s s.ttype rfl hle⟩

/-- A command of the encode direction ends in an error with only the report written, or with a frame built. -/
theorem exec_encodeDirection_cases {i : Instr} {s t : State} (hi : i = .enc ∨ ∃ n, i = .wrap n)
    (h : exec i s = .next t) : (∃ x f, t = (s.setStatus false x).fail f) ∨ ∃ x p, BuiltFrame s t x p := by
  rcases hi with rfl | ⟨n, rfl⟩
  · cases hr : s.encodeRecord with
    | error f => rw [exec_enc_of_error hr] at h; cases h; exact .inl ⟨_, _, rfl⟩
    | ok p =>
      obtain ⟨u, he, hb⟩ := exec_enc_built hr
      rw [he] at h; cases h; exact .inr ⟨_, _, hb⟩
  · rcases Nat.lt_or_ge 4091 n.toNat with hn | hn
    · rw [exec_wrap_of_tooLong hn] at h; cases h; exact .inl ⟨_, _, rfl⟩
    · obtain ⟨u, he, hb⟩ := exec_wrap_built hn s
      rw [he] at h; cases h; exact .inr ⟨_, _, hb⟩

theorem BuiltFrame.err_eq_zero {s t : State} {x : BitVec 2} {p : List Byte} (h : BuiltFrame s t x p) : t.err = 0 := by
  rw [h.1]

/-- WRAP and ENC leave the record and the model's own fields, and on an error FB, LEN, PLEN and ACC too
(10_state.md R33). -/
theorem exec_encodeDirection_frame {i : Instr} {s t : State} (hi : i = .enc ∨ ∃ n, i = .wrap n)
    (h : exec i s = .next t) :
    SameModelFields s t ∧ SameRecordRegs s t ∧ t.rt = s.rt ∧
      (t.err ≠ 0 → t.fb = s.fb ∧ t.len = s.len ∧ t.plen = s.plen ∧ t.acc = s.acc) := by
  rcases exec_encodeDirection_cases hi h with ⟨x, f, rfl⟩ | ⟨x, p, hb⟩
  · exact ⟨⟨rfl, rfl, rfl⟩, ⟨rfl, rfl, rfl, rfl, rfl⟩, rfl, fun _ => ⟨rfl, rfl, rfl, rfl⟩⟩
  · refine ⟨?_, ?_, ?_, fun he => absurd hb.err_eq_zero he⟩ <;> rw [hb.1]
    · exact ⟨rfl, rfl, rfl⟩
    · exact ⟨rfl, rfl, rfl, rfl, rfl⟩

/-- Settles O51: each command's frame, by cases on the command. -/
theorem commandsWriteOnlyTheirPlaces : Obligations.CommandsWriteOnlyTheirPlaces := by
  intro i s t h
  cases i with
  | nop =>
    cases h
    exact ⟨.refl s, fun _ => rfl, fun _ => ⟨.refl s, rfl⟩, ⟨rfl, rfl⟩, ⟨.refl s, rfl⟩, trivial⟩
  | aclr | axb k | csum n =>
    cases h
    exact ⟨.refl s, (nomatch ·), fun _ => ⟨.refl s, rfl⟩, ⟨rfl, rfl⟩, ⟨.refl s, rfl⟩, trivial⟩
  | fchk =>
    obtain ⟨g, e, a, b, c, p, rfl⟩ := exec_fchk_frame h
    exact ⟨.refl s, (nomatch ·), fun _ => ⟨.refl s, rfl⟩, ⟨rfl, rfl⟩, trivial, trivial⟩
  | dec =>
    obtain ⟨hm, hfb, hlen⟩ := exec_dec_frame h
    exact ⟨hm, (nomatch ·), fun e => absurd rfl e, ⟨hfb, hlen⟩, trivial, trivial⟩
  | wrap n =>
    obtain ⟨hm, hr, hrt, he⟩ := exec_encodeDirection_frame (.inr ⟨n, rfl⟩) h
    exact ⟨hm, (nomatch ·), fun _ => ⟨hr, hrt⟩, trivial, trivial, he⟩
  | enc =>
    obtain ⟨hm, hr, hrt, he⟩ := exec_encodeDirection_frame (.inl rfl) h
    exact ⟨hm, (nomatch ·), fun _ => ⟨hr, hrt⟩, trivial, trivial, he⟩

/-! ### What each host operation can do -/

/-- The one number that selects CMD (10_state.md R13). -/
theorem csrOf_eq_cmd_iff {c : BitVec 4} : csrOf c = some .cmd ↔ c = 0 := by revert c; decide

/-- A CSR write runs the command the word encodes, reports an illegal word, or stores into another register
(46_host_port.md R191, R196). -/
theorem hostStep_csrWrite_cases {c : BitVec 4} {v : Word} {s t : State} (h : hostStep (.csrWrite c v) s = .next t) :
    (c = 0 ∧ ∃ i, decode v = .command i ∧ exec i s = .next t) ∨
    (c = 0 ∧ ∃ why, decode v = .illegal why ∧ t = s.illegalCommand v) ∨ t = s.csrStore c v := by
  simp only [hostStep] at h
  split at h
  · next hc =>
    have hc0 := csrOf_eq_cmd_iff.1 hc
    cases hd : decode v <;> simp only [runWord, hd] at h
    · exact .inl ⟨hc0, _, rfl, h⟩
    · cases h; exact .inr (.inl ⟨hc0, _, rfl, rfl⟩)
  · cases h; exact .inr (.inr rfl)

/-- A write to a register other than CMD leaves the report, FB, RT and the model's own fields (46_host_port.md R191). -/
theorem State.csrStore_frame (s : State) (c : BitVec 4) (v : Word) :
    SameReport s (s.csrStore c v) ∧ (s.csrStore c v).fb = s.fb ∧ (s.csrStore c v).rt = s.rt ∧
      SameModelFields s (s.csrStore c v) := by
  unfold State.csrStore
  split <;> exact ⟨.refl s, rfl, rfl, .refl s⟩

/-- A write to RT leaves the report and FB (46_host_port.md R194). -/
theorem State.rtWrite_frame (s : State) (a : BitVec 10) (v : Word) :
    SameReport s (s.rtWrite a v) ∧ SameFb s (s.rtWrite a v) := by
  unfold State.rtWrite
  split <;> exact ⟨.refl s, fun _ => rfl⟩

/-- The field that a write to RT changes is the one at its address (46_host_port.md R194). -/
theorem State.rtAddress_of_rtGet_rtWrite_ne {s : State} {a : BitVec 10} {v : Word} {i : Nat} {f : RtField}
    (h : (s.rtWrite a v).rtGet i f ≠ s.rtGet i f) : a.toNat = rtAddress i f := by
  unfold State.rtWrite at h
  split at h
  · rw [State.rtGet_rtSet] at h
    split at h
    · next he =>
      obtain ⟨rfl, rfl⟩ := he
      exact (rtAddress_div_mod a.toNat).symm
    · exact absurd rfl h
  · exact absurd rfl h

/-- Settles O52, by cases on the host operation and, for a CMD write, on the command (O51 for the unchecked ones). -/
theorem reportStaysUntilTheNextCheckedCommand : Obligations.ReportStaysUntilTheNextCheckedCommand := by
  intro o s t h hne
  cases o with
  | csrRead c | fbRead k | fbWrite k b | rtRead a => cases h; exact absurd (.refl s) hne
  | rtWrite a v => cases h; exact absurd (s.rtWrite_frame a v).1 hne
  | reset => exact .inl rfl
  | csrWrite c v =>
    right
    rcases hostStep_csrWrite_cases h with ⟨rfl, i, hd, hx⟩ | ⟨rfl, why, hd, -⟩ | rfl
    · refine ⟨v, rfl, ?_⟩
      obtain ⟨-, -, -, -, hrep, -⟩ := commandsWriteOnlyTheirPlaces i s t hx
      cases i with
      | nop | aclr | axb k | csum n => exact absurd hrep.1 hne
      | fchk => exact .inl hd
      | dec => exact .inr (.inl hd)
      | wrap n => exact .inr (.inr (.inl ⟨n, hd⟩))
      | enc => exact .inr (.inr (.inr (.inl hd)))
    · exact ⟨v, rfl, .inr (.inr (.inr (.inr ⟨why, hd⟩)))⟩
    · exact absurd (s.csrStore_frame c v).1 hne

/-- Only WRAP and ENC change a byte of FB (10_state.md R33). -/
theorem exec_fbGet_ne {i : Instr} {s t : State} (h : exec i s = .next t) {k : Nat} (hk : t.fbGet k ≠ s.fbGet k) :
    (∃ n, i = .wrap n) ∨ i = .enc := by
  obtain ⟨hm, -, -, hfb, -⟩ := commandsWriteOnlyTheirPlaces i s t h
  cases i with
  | wrap n => exact .inl ⟨n, rfl⟩
  | enc => exact .inr rfl
  | nop | aclr | axb j | csum n | fchk | dec => exact absurd (SameFb.of_fb_eq hfb.1 hm k) hk

/-- Only DEC changes a field of RT (10_state.md R33). -/
theorem exec_rtGet_ne {i : Instr} {s t : State} (h : exec i s = .next t) {j : Nat} {f : RtField}
    (hj : t.rtGet j f ≠ s.rtGet j f) : i = .dec := by
  obtain ⟨hm, -, hrt, -⟩ := commandsWriteOnlyTheirPlaces i s t h
  by_contra hi
  exact hj (SameRt.of_rt_eq (hrt hi).2 hm j f)

/-- Settles O53, by cases on the host operation and, for a CMD write, on what the word is. -/
theorem memoryIsStableUntilWritten : Obligations.MemoryIsStableUntilWritten := by
  intro o s t h ho
  cases o with
  | csrRead c | fbRead k | rtRead a => cases h; exact ⟨fun k hk => absurd rfl hk, fun i f hi => absurd rfl hi⟩
  | reset => exact absurd rfl ho
  | fbWrite k' b =>
    cases h
    refine ⟨fun k hk => ?_, fun i f hi => absurd rfl hi⟩
    have hkk : k = k'.toNat := by
      by_contra hne
      exact hk (by rw [State.fbGet_fbSet, if_neg hne])
    exact .inl ⟨b, k', hkk.symm, rfl⟩
  | rtWrite a v =>
    cases h
    refine ⟨fun k hk => absurd ((s.rtWrite_frame a v).2 k) hk, fun i f hi => ?_⟩
    exact .inl ⟨a, v, State.rtAddress_of_rtGet_rtWrite_ne hi, rfl⟩
  | csrWrite c v =>
    rcases hostStep_csrWrite_cases h with ⟨rfl, i, hd, hx⟩ | ⟨rfl, why, hd, rfl⟩ | rfl
    · refine ⟨fun k hk => .inr ⟨v, rfl, ?_⟩, fun j f hj => .inr ⟨v, rfl, ?_⟩⟩
      · rcases exec_fbGet_ne hx hk with ⟨n, rfl⟩ | rfl
        · exact .inl ⟨n, hd⟩
        · exact .inr hd
      · rw [hd, exec_rtGet_ne hx hj]
    · exact ⟨fun k hk => absurd rfl hk, fun j f hj => absurd rfl hj⟩
    · obtain ⟨-, hfb, hrt, hm⟩ := s.csrStore_frame c v
      exact ⟨fun k hk => absurd (SameFb.of_fb_eq hfb hm k) hk, fun j f hj => absurd (SameRt.of_rt_eq hrt hm j f) hj⟩

/-! ### What FCHK and DEC depend on -/

/-- The frame check answers the same for every state with the same frame: one failure before the checksum is taken,
one failure after it, or a frame (10_state.md R30, 41_frame_envelope.md R100). -/
theorem SameFrame.frameCheck_cases (s : State) :
    (∃ f, (f.code = .frameTooShort ∨ f.code = .missingStartMarker ∨ f.code = .missingEndMarker) ∧
      ∀ s', SameFrame s s' → s'.frameCheck = (s'.setGotv false, some f)) ∨
    (∃ g a f, ∀ s', SameFrame s s' → s'.frameCheck = ((s'.setGotv g).setAcc a, some f)) ∨
    s.Framed := by
  rcases s.frameCheck_cases with
    ⟨h4, _⟩ | ⟨h4, h0, _⟩ | ⟨h4, h0, h3, _⟩ | ⟨h4, h0, h3, hv, _⟩ | ⟨h4, h0, h3, g, hv, hg, _⟩ | ⟨hf, _⟩
  · refine .inl ⟨{ code := .frameTooShort, infoA := BitVec.ofNat 16 s.len.toNat, infoB := 0 }, .inl rfl,
      fun s' ⟨hl, hb⟩ => ?_⟩
    rw [State.frameCheck_short (by rwa [hl]), hl]
  · refine .inl ⟨{ code := .missingStartMarker, infoA := (s.fbGet 0).setWidth 16, infoB := 0 }, .inr (.inl rfl),
      fun s' ⟨hl, hb⟩ => ?_⟩
    have e0 := hb 0 (by omega)
    rw [State.frameCheck_start (by rwa [hl]) (by rwa [e0]), e0]
  · refine .inl ⟨{ code := .missingEndMarker, infoA := (s.fbGet (s.len.toNat - 3)).setWidth 16,
                    infoB := BitVec.ofNat 16 (s.len.toNat - 3) }, .inr (.inr rfl), fun s' ⟨hl, hb⟩ => ?_⟩
    have e3 := hb (s.len.toNat - 3) (by omega)
    rw [State.frameCheck_end (by rwa [hl]) (by rwa [hb 0 (by omega)]) (by rwa [hl, e3]), hl, e3]
  · refine .inr (.inl ⟨false, s.xorFold 0 (s.len.toNat - 2),
      { code := .checksumMismatch, infoA := s.fbGet (s.len.toNat - 2) ++ s.fbGet (s.len.toNat - 1),
        infoB := (s.xorFold 0 (s.len.toNat - 2)).setWidth 16 }, fun s' hs => ?_⟩)
    have hx := hs.xorFold
    obtain ⟨hl, hb⟩ := hs
    have e2 := hb (s.len.toNat - 2) (by omega)
    have e1 := hb (s.len.toNat - 1) (by omega)
    rw [State.frameCheck_unreadable (by rwa [hl]) (by rwa [hb 0 (by omega)]) (by rwa [hl, hb _ (by omega)])
      (by rwa [hl, e2, e1]), hl, e2, e1, hx]
  · refine .inr (.inl ⟨true, s.xorFold 0 (s.len.toNat - 2),
      { code := .checksumMismatch, infoA := BitVec.ofNat 16 g,
        infoB := (s.xorFold 0 (s.len.toNat - 2)).setWidth 16 }, fun s' hs => ?_⟩)
    have hx := hs.xorFold
    obtain ⟨hl, hb⟩ := hs
    have e2 := hb (s.len.toNat - 2) (by omega)
    have e1 := hb (s.len.toNat - 1) (by omega)
    rw [State.frameCheck_mismatch (by rwa [hl]) (by rwa [hb 0 (by omega)]) (by rwa [hl, hb _ (by omega)])
      (by rwa [hl, e2, e1]) (by rwa [hl, hx]), hl, hx]
    rfl
  · exact .inr (.inr hf)

/-- The three errors that end a frame check before the checksum is taken have the codes 1 to 3
(60_exceptions.md R210). -/
theorem ErrCode.number_of_beforeChecksum {c : ErrCode}
    (h : c = .frameTooShort ∨ c = .missingStartMarker ∨ c = .missingEndMarker) :
    1 ≤ c.number.toNat ∧ c.number.toNat ≤ 3 := by
  rcases h with rfl | rfl | rfl <;> decide

/-- FCHK ends alike on two states with the same frame (10_state.md R30). -/
theorem SameFrame.exec_fchk {s s' t t' : State} (hs : SameFrame s s') (h : exec .fchk s = .next t)
    (h' : exec .fchk s' = .next t') :
    SameReport t t' ∧ t'.plen = t.plen ∧ (t.err = 0 ∨ t.err = 4 → t'.acc = t.acc) := by
  rcases SameFrame.frameCheck_cases (s.setHtype 0) with ⟨f, hc, hk⟩ | ⟨g, a, f, hk⟩ | hf
  · rw [exec_fchk_of_failed (hk _ (.refl _))] at h; cases h
    rw [exec_fchk_of_failed (hk _ (hs.setHtype 0))] at h'; cases h'
    refine ⟨⟨rfl, rfl, rfl, rfl, rfl⟩, rfl, fun he => ?_⟩
    obtain ⟨h1, h3⟩ := ErrCode.number_of_beforeChecksum hc
    rw [State.fail_err] at he
    rcases he with he | he <;> rw [he] at h1 h3
    · exact absurd h1 (by decide)
    · exact absurd h3 (by decide)
  · rw [exec_fchk_of_failed (hk _ (.refl _))] at h; cases h
    rw [exec_fchk_of_failed (hk _ (hs.setHtype 0))] at h'; cases h'
    exact ⟨⟨rfl, rfl, rfl, rfl, rfl⟩, rfl, fun _ => rfl⟩
  · rw [State.framed_setHtype] at hf
    rw [exec_fchk_of_framed hf] at h; cases h
    rw [exec_fchk_of_framed (hs.framed hf)] at h'; cases h'
    exact ⟨⟨rfl, rfl, rfl, rfl, rfl⟩, hs.passed_plen 0, fun _ => hs.passed_acc 0⟩

/-- The command text of a decoded record lies in the payload (42_dispatch_da_st.md R123). -/
theorem State.dispatch_cmdlen_le {s : State} {P : Nat} {h r} (hd : s.dispatch P = (h, .ok r)) :
    r.cmdlen.toNat ≤ P - 5 := by
  rcases State.dispatch_ok hd with
    ⟨_, _, _, _, rfl⟩ | ⟨_, _, _, _, v, _, rfl⟩ | ⟨_, _, _, _, v, _, rfl⟩ | ⟨_, _, _, n, es, _, _, _, rfl⟩
  · exact Nat.zero_le _
  · exact Nat.zero_le _
  · rw [BitVec.toNat_ofNat]; exact Nat.mod_le _ _
  · exact Nat.zero_le _

/-- The entries that DEC commits are the ones it decoded, whatever RT held before (42_dispatch_da_st.md R124). -/
theorem State.readings_rtStore (s : State) {n : Nat} {es : List Reading} (hn : n ≤ es.length) :
    (s.rtStore 0 es).readings n = es.take n := by
  apply List.ext_getElem (by simp [State.readings, hn])
  intro i hi _
  simp only [State.readings, List.length_map, List.length_range] at hi
  simp [State.readings, State.rtReading_rtStore, show i < es.length by omega]

/-- The record is what the record registers, the command text and the readings below COUNT say (10_state.md R29). -/
theorem State.record_congr {s s' : State} (hr : SameRecordRegs s s')
    (htext : s'.fbBytes 6 s.cmdlen.toNat = s.fbBytes 6 s.cmdlen.toNat)
    (hread : s'.readings s.count.toNat = s.readings s.count.toNat) : s'.record = s.record := by
  obtain ⟨ht, hp, hv, hc, hn⟩ := hr
  simp only [State.record, ht, hp, hv, hc, hn, htext, hread]

/-- The record after a commit depends on what was decoded and, for an ST record, the command text in the buffer. -/
theorem State.record_commit_congr {s s' : State} (r : DecodedRecord)
    (hb : ∀ k, 6 ≤ k → k < 6 + r.cmdlen.toNat → s'.fbGet k = s.fbGet k) :
    (s'.commit r).record = (s.commit r).record := by
  have hn : (BitVec.ofNat 7 r.readings.length).toNat ≤ r.readings.length := by
    rw [BitVec.toNat_ofNat]; exact Nat.mod_le _ _
  exact State.record_congr ⟨rfl, rfl, rfl, rfl, rfl⟩ (State.fbBytes_congr hb)
    ((State.readings_rtStore _ hn).trans (State.readings_rtStore _ hn).symm)

/-- DEC ends alike on two states with the same frame (10_state.md R30). -/
theorem SameFrame.exec_dec {s s' t t' : State} (hs : SameFrame s s') (h : exec .dec s = .next t)
    (h' : exec .dec s' = .next t') :
    SameReport t t' ∧ t'.plen = t.plen ∧ (¬(1 ≤ t.err.toNat ∧ t.err.toNat ≤ 3) → t'.acc = t.acc) ∧
      SameRecordRegs t t' ∧ t'.record = t.record := by
  rcases SameFrame.frameCheck_cases (s.setHtype 0) with ⟨f, hc, hk⟩ | ⟨g, a, f, hk⟩ | hf
  · rw [exec_dec_of_failed (hk _ (.refl _))] at h; cases h
    rw [exec_dec_of_failed (hk _ (hs.setHtype 0))] at h'; cases h'
    exact ⟨⟨rfl, rfl, rfl, rfl, rfl⟩, rfl, fun he => absurd (ErrCode.number_of_beforeChecksum hc) he,
      ⟨rfl, rfl, rfl, rfl, rfl⟩, rfl⟩
  · rw [exec_dec_of_failed (hk _ (.refl _))] at h; cases h
    rw [exec_dec_of_failed (hk _ (hs.setHtype 0))] at h'; cases h'
    exact ⟨⟨rfl, rfl, rfl, rfl, rfl⟩, rfl, fun _ => rfl, ⟨rfl, rfl, rfl, rfl, rfl⟩, rfl⟩
  · rw [State.framed_setHtype] at hf
    have hd : s'.dispatch (s'.len.toNat - 4) = s.dispatch (s.len.toNat - 4) := by
      rw [hs.1]; exact State.dispatch_congr fun j _ hj => hs.2 j (by omega)
    rw [exec_dec_of_framed (hs.framed hf), hd] at h'
    rw [exec_dec_of_framed hf] at h
    cases hr : s.dispatch (s.len.toNat - 4) with
    | mk x r =>
      rw [hr] at h h'
      cases r with
      | error f =>
        cases h; cases h'
        exact ⟨⟨rfl, rfl, rfl, rfl, rfl⟩, hs.passed_plen x, fun _ => hs.passed_acc x, ⟨rfl, rfl, rfl, rfl, rfl⟩, rfl⟩
      | ok r =>
        cases h; cases h'
        have hcl := State.dispatch_cmdlen_le hr
        exact ⟨⟨rfl, rfl, rfl, rfl, rfl⟩, hs.passed_plen x, fun _ => hs.passed_acc x, ⟨rfl, rfl, rfl, rfl, rfl⟩,
          State.record_commit_congr r fun k _ hk => hs.2 k (by omega)⟩

/-- Settles O34, from the two commands' own lemmas. -/
theorem frameOutcomeDependsOnTheFrameAlone : Obligations.FrameOutcomeDependsOnTheFrameAlone :=
  fun _ _ hl hb => ⟨fun _ _ => SameFrame.exec_fchk ⟨hl, hb⟩, fun _ _ => SameFrame.exec_dec ⟨hl, hb⟩⟩

/-! ### What WRAP and ENC depend on -/

/-- Two frames built around one payload with one HTYPE are the same frame with the same report. -/
theorem BuiltFrame.same {s s' t t' : State} {x : BitVec 2} {p : List Byte} (h : BuiltFrame s t x p)
    (h' : BuiltFrame s' t' x p) (hp : p.length ≤ 4091) :
    SameReport t t' ∧ (t.err = 0 → t'.len = t.len ∧ t'.plen = t.plen ∧ t'.acc = t.acc ∧
      t'.fbBytes 0 t.len.toNat = t.fbBytes 0 t.len.toNat) := by
  obtain ⟨hlen, -⟩ := h.facts hp
  obtain ⟨ht, hbytes, -⟩ := h
  obtain ⟨ht', hbytes', -⟩ := h'
  refine ⟨?_, fun _ => ⟨?_, ?_, ?_, ?_⟩⟩
  · rw [ht, ht']; exact ⟨rfl, rfl, rfl, rfl, rfl⟩
  · rw [ht, ht']
  · rw [ht, ht']
  · rw [ht, ht']
  · rw [hlen, hbytes, hbytes']

/-- The type encoders read the record registers and `RT[0 .. COUNT)` alone (45_encode.md R171 to R174). -/
theorem State.encodeRecord_congr {s s' : State} (hr : SameRecordRegs s s')
    (hrt : ∀ i f, i < s.count.toNat → s'.rtGet i f = s.rtGet i f) : s'.encodeRecord = s.encodeRecord := by
  obtain ⟨htt, hp, hv, hcl, hn⟩ := hr
  have hread : s'.encodeReadings 0 s.count.toNat = s.encodeReadings 0 s.count.toNat :=
    State.encodeReadings_congr 0 _ fun j hj => State.rtReading_congr fun f => hrt _ f (by omega)
  have hda : s'.encodeDa = s.encodeDa := by simp only [State.encodeDa, hp, hv]
  have hst : s'.encodeSt = s.encodeSt := by simp only [State.encodeSt, hv, hcl]
  have hmd : s'.encodeMd = s.encodeMd := by simp only [State.encodeMd, hn, hread]
  simp only [State.encodeRecord, htt, hda, hst, hmd]

/-- No type encoder answers a payload longer than a frame can hold (45_encode.md R172). -/
theorem State.encodeRecord_length_le {s : State} {p : EncodedPayload} (h : s.encodeRecord = .ok p) :
    p.length ≤ 4091 := by
  rcases State.encodeRecord_ok h with ⟨_, _, rfl⟩ | ⟨_, _, _, rfl⟩ | ⟨_, _, _, rfl⟩ | ⟨_, _, _, rfl⟩ <;>
    dsimp only <;> omega

/-- The payload ENC wraps: what its type encoder stored, and the command text of an ST record. -/
theorem State.encodedPayload_congr {s s' : State} {p : EncodedPayload} (h : s.encodeRecord = .ok p)
    (ht : s.ttype = 2 → ∀ k, 6 ≤ k → k < 6 + s.cmdlen.toNat → s'.fbGet k = s.fbGet k) :
    (s'.storeBytes 1 p.bytes).fbBytes 1 p.length = (s.storeBytes 1 p.bytes).fbBytes 1 p.length := by
  apply State.fbBytes_congr
  intro j h1 h2
  rw [State.fbGet_storeBytes, State.fbGet_storeBytes]
  split
  · rfl
  · rcases State.encodeRecord_length h with hl | ⟨htt, h5, hl⟩
    · omega
    · exact ht htt j (by omega) (by omega)

/-- WRAP ends alike on two states with the same payload bytes (10_state.md R30). -/
theorem exec_wrap_same {n : Index} {s s' t t' : State} (hb : s'.fbBytes 1 n.toNat = s.fbBytes 1 n.toNat)
    (h : exec (.wrap n) s = .next t) (h' : exec (.wrap n) s' = .next t') :
    SameReport t t' ∧ (t.err = 0 → t'.len = t.len ∧ t'.plen = t.plen ∧ t'.acc = t.acc ∧
      t'.fbBytes 0 t.len.toNat = t.fbBytes 0 t.len.toNat) := by
  rcases Nat.lt_or_ge 4091 n.toNat with hn | hn
  · rw [exec_wrap_of_tooLong hn] at h h'; cases h; cases h'
    exact ⟨⟨rfl, rfl, rfl, rfl, rfl⟩, fun h0 => absurd h0 (ErrCode.number_ne_zero .frameTooLong)⟩
  · obtain ⟨u, he, hu⟩ := exec_wrap_built hn s
    obtain ⟨u', he', hu'⟩ := exec_wrap_built hn s'
    rw [he] at h; cases h
    rw [he'] at h'; cases h'
    rw [hb] at hu'
    exact hu.same hu' (by rwa [State.fbBytes_length])

/-- ENC ends alike on two states with the same record (10_state.md R30). -/
theorem exec_enc_same {s s' t t' : State} (hr : SameRecordRegs s s')
    (hrt : ∀ i f, i < s.count.toNat → s'.rtGet i f = s.rtGet i f)
    (htext : s.ttype = 2 → ∀ k, 6 ≤ k → k < 6 + s.cmdlen.toNat → s'.fbGet k = s.fbGet k)
    (h : exec .enc s = .next t) (h' : exec .enc s' = .next t') :
    SameReport t t' ∧ (t.err = 0 → t'.len = t.len ∧ t'.plen = t.plen ∧ t'.acc = t.acc ∧
      t'.fbBytes 0 t.len.toNat = t.fbBytes 0 t.len.toNat) := by
  have hrec := State.encodeRecord_congr hr hrt
  cases he : s.encodeRecord with
  | error f =>
    rw [exec_enc_of_error he] at h; cases h
    rw [exec_enc_of_error (hrec.trans he)] at h'; cases h'
    exact ⟨⟨rfl, hr.1, rfl, rfl, rfl⟩, fun h0 => absurd h0 (ErrCode.number_ne_zero f.code)⟩
  | ok p =>
    obtain ⟨u, hx, hu⟩ := exec_enc_built he
    obtain ⟨u', hx', hu'⟩ := exec_enc_built (hrec.trans he)
    rw [hx] at h; cases h
    rw [hx'] at h'; cases h'
    rw [hr.1, State.encodedPayload_congr he htext] at hu'
    exact hu.same hu' (by rw [State.fbBytes_length]; exact State.encodeRecord_length_le he)

/-- Settles O42, from the two commands' own lemmas. -/
theorem encodeDependsOnTheRecordAlone : Obligations.EncodeDependsOnTheRecordAlone :=
  fun _ _ => ⟨fun _ _ _ hb => exec_wrap_same (State.fbBytes_congr fun j h1 h2 => hb j h1 (by omega)),
    fun _ _ => exec_enc_same⟩

/-! ### The invariant at reset -/

/-- Settles O46: nothing is listed, and the report and PLEN are 0 (10_state.md R31). -/
theorem resetKeepsTheInvariant : Obligations.ResetKeepsTheInvariant := ⟨rfl, rfl, by decide, by decide⟩

end Sys2Proof.Machine
end

section
/-! PROOFS. Family 30_encoding.md: the word of a command and back (R61, R62), and which words are illegal (R64). -/

namespace Sys2Proof

/-! ### The two checks of the decoder -/

/-- A nonzero argument makes a format-Z word illegal (30_encoding.md R64 (b)). -/
theorem formatZ_of_ne {a : Index} (h : a ≠ 0) (i : Instr) : formatZ a i = .illegal .nonzeroArgument := if_neg h

theorem formatZ_eq_command {a : Index} {i j : Instr} : formatZ a i = .command j ↔ a = 0 ∧ i = j := by
  rcases eq_or_ne a 0 with rfl | h
  · simp [formatZ]
  · rw [formatZ_of_ne h]; exact iff_of_false nofun fun hz => h hz.1

theorem formatZ_illegal {a : Index} {i : Instr} : (∃ why, formatZ a i = .illegal why) ↔ a ≠ 0 := by
  rcases eq_or_ne a 0 with rfl | h
  · simp [formatZ]
  · exact iff_of_true ⟨_, formatZ_of_ne h i⟩ h

/-- A word of the encode direction is a command only in a block that has it (30_encoding.md R64 (c)). -/
theorem encodeDirection_eq_command {p : Bool} {d : Decoded} {i : Instr} :
    encodeDirection p d = .command i ↔ p = true ∧ d = .command i := by
  cases p <;> simp [encodeDirection]

theorem encodeDirection_illegal {p : Bool} {d : Decoded} :
    (∃ why, encodeDirection p d = .illegal why) ↔ p = false ∨ ∃ why, d = .illegal why := by
  cases p <;> simp [encodeDirection]

/-! ### Encoding and decoding are inverse -/

@[simp] theorem opField_encode (i : Instr) : opField (encode i) = i.op := opField_append _ _

@[simp] theorem argField_encode (i : Instr) : argField (encode i) = i.arg := argField_append _ _

theorem decodeWith_encode {p : Bool} {i : Instr} (h : i.wellFormedWith p = true) :
    decodeWith p (encode i) = .command i := by
  rw [decodeWith, opField_encode, argField_encode]
  cases i with
  | nop | aclr | fchk | dec => exact formatZ_eq_command.2 ⟨rfl, rfl⟩
  | axb k | csum k => rfl
  | wrap n => exact encodeDirection_eq_command.2 ⟨h, rfl⟩
  | enc => exact encodeDirection_eq_command.2 ⟨h, formatZ_eq_command.2 ⟨rfl, rfl⟩⟩

/-- A word whose two fields are those of a command is the command's word. -/
theorem eq_encode_of_fields {w : Word} {i : Instr} (hop : (opField w).toNat = i.op.toNat) (harg : argField w = i.arg) :
    w = encode i := by
  rw [encode, ← harg, ← BitVec.eq_of_toNat_eq hop, opField_append_argField]

/-- What decodes to a command is that command's word, and the block has the command. -/
theorem eq_encode_of_decodeWith {p : Bool} {w : Word} {i : Instr} (h : decodeWith p w = .command i) :
    i.wellFormedWith p = true ∧ w = encode i := by
  unfold decodeWith at h
  split at h
  case h_1 hop | h_2 hop | h_5 hop | h_6 hop =>
    obtain ⟨harg, rfl⟩ := formatZ_eq_command.1 h
    exact ⟨rfl, eq_encode_of_fields hop harg⟩
  case h_3 hop | h_4 hop =>
    cases h
    exact ⟨rfl, eq_encode_of_fields hop rfl⟩
  case h_7 hop =>
    obtain ⟨hp, h⟩ := encodeDirection_eq_command.1 h
    cases h
    exact ⟨hp, eq_encode_of_fields hop rfl⟩
  case h_8 hop =>
    obtain ⟨hp, h⟩ := encodeDirection_eq_command.1 h
    obtain ⟨harg, rfl⟩ := formatZ_eq_command.1 h
    exact ⟨hp, eq_encode_of_fields hop harg⟩
  case h_9 => cases h

theorem decodeWith_eq_command {p : Bool} {w : Word} {i : Instr} :
    decodeWith p w = .command i ↔ i.wellFormedWith p = true ∧ w = encode i :=
  ⟨eq_encode_of_decodeWith, fun ⟨hi, hw⟩ => hw ▸ decodeWith_encode hi⟩

/-- This block has every command of the map, so a word is a command exactly when it is the command's word. -/
theorem decode_eq_command {w : Word} {i : Instr} : decode w = .command i ↔ w = encode i := by
  have hi : i.wellFormedWith Config.encPresent = true := by cases i <;> rfl
  rw [decode, decodeWith_eq_command, and_iff_right hi]

/-- Settles O1, from the fields of an encoded word and the checks of its row. -/
theorem decodeOfEncodeIsTheCommand : Obligations.DecodeOfEncodeIsTheCommand := fun _ _ => decodeWith_encode

/-! ### The rows of the opcode map -/

/-- The mask 0xFFFF of a format-Z row compares the whole word (30_encoding.md R62). -/
theorem and_maskZ (w : Word) : w &&& 0xFFFF#16 = w := BitVec.and_allOnes

/-- The mask 0xF000 of a format-A row keeps the opcode (30_encoding.md R62). -/
theorem and_maskA (w : Word) : w &&& 0xF000#16 = opField w ++ 0#12 := by
  conv_lhs => rw [← opField_append_argField w, show 0xF000#16 = BitVec.allOnes 4 ++ 0#12 from rfl]
  rw [BitVec.and_append, BitVec.and_allOnes, BitVec.and_zero]

/-- A format-A row compares the opcode, and leaves the argument free. -/
theorem eq_append_iff_maskA {w : Word} {a : BitVec 4} {k : Index} :
    w = a ++ k ↔ w &&& 0xF000#16 = a ++ 0#12 ∧ k = argField w := by
  rw [and_maskA]
  constructor
  · rintro rfl
    rw [opField_append, argField_append]
    exact ⟨rfl, rfl⟩
  · rintro ⟨hop, rfl⟩
    have ha : opField w = a := by simpa using congrArg opField hop
    rw [← ha, opField_append_argField]

/-- A command by the mask 0xFFFF; in a format-Z row the match is the command's one word (30_encoding.md R62). -/
theorem decode_eq_iff_maskZ (w : Word) (i : Instr) : decode w = .command i ↔ w &&& 0xFFFF#16 = encode i := by
  rw [and_maskZ, decode_eq_command]

/-- A format-A command by the mask and match of its row. -/
theorem decode_eq_iff_maskA (w : Word) (i : Instr) {m : Word} (hm : i.op ++ 0#12 = m) :
    decode w = .command i ↔ w &&& 0xF000#16 = m ∧ i.arg = argField w :=
  hm ▸ decode_eq_command.trans eq_append_iff_maskA

/-- Settles O2: each row's `match` is the word of its command, with argument zero in format A. -/
theorem wordIsCommandIffItMatchesItsRow : Obligations.WordIsCommandIffItMatchesItsRow := fun w =>
  ⟨decode_eq_iff_maskZ w .nop,
    decode_eq_iff_maskZ w .aclr,
    fun k => decode_eq_iff_maskA w (.axb k) (by simp [Instr.op]),
    fun n => decode_eq_iff_maskA w (.csum n) (by simp [Instr.op]),
    decode_eq_iff_maskZ w .fchk,
    decode_eq_iff_maskZ w .dec,
    fun n => decode_eq_iff_maskA w (.wrap n) (by simp [Instr.op]),
    decode_eq_iff_maskZ w .enc⟩

/-! ### Illegal words -/

theorem argField_ne_zero {w : Word} : argField w ≠ 0 ↔ w.toNat % 4096 ≠ 0 := by
  rw [← argField_toNat, Ne, Ne, ← BitVec.toNat_inj]; rfl

/-- Settles O3, by the opcode: each row of the map is illegal under the checks it makes. -/
theorem wordIsIllegalExactlyAsListed : Obligations.WordIsIllegalExactlyAsListed := by
  intro p w
  rw [← opField_toNat, ← argField_ne_zero, decodeWith]
  split
  case h_1 hop | h_2 hop | h_5 hop | h_6 hop => simp [formatZ_illegal, hop]
  case h_3 hop | h_4 hop => simp [hop]
  case h_7 hop => simp [encodeDirection_illegal, hop]
  case h_8 hop => simp [encodeDirection_illegal, formatZ_illegal, hop, or_comm]
  case h_9 =>
    have hop : 8 ≤ (opField w).toNat := by
      simp only [imp_false] at *
      omega
    exact iff_of_true ⟨_, rfl⟩ (.inl hop)

/-- Settles O4: each is the word of its command. -/
theorem specWordsDecode : Obligations.SpecWordsDecode :=
  ⟨decode_eq_command.2 rfl, decode_eq_command.2 rfl, decode_eq_command.2 rfl, decode_eq_command.2 rfl,
    decode_eq_command.2 rfl, decode_eq_command.2 rfl, decode_eq_command.2 rfl, decode_eq_command.2 rfl⟩

end Sys2Proof
end

section
/-! PROOFS. Family 40_checksum.md: the accumulator's commands (R91 to R93) and the laws of the fold (R94). -/

namespace Sys2Proof.Machine

/-! ### The words -/

/-- A command word written as its row's `match` with the argument or-ed in (30_encoding.md R61). -/
theorem opcode_or_argument (a : BitVec 4) (k : Index) : (a ++ 0#12) ||| k.setWidth 16 = a ++ k := by
  have hk : k.setWidth 16 = 0#4 ++ k := BitVec.setWidth_eq_append (by decide)
  rw [hk, BitVec.or_append, BitVec.or_zero, BitVec.zero_or]

/-- The word of a format-A command, by its row's `match` (30_encoding.md R62). -/
theorem decode_opcode_or_argument (i : Instr) {m : Word} (hm : i.op ++ 0#12 = m) :
    decode (m ||| i.arg.setWidth 16) = .command i := by
  rw [← hm, opcode_or_argument, decode_eq_command]; rfl

/-! ### The commands -/

/-- ACLR writes 0 to ACC (40_checksum.md R91). -/
theorem exec_aclr (s : State) : exec .aclr s = .next (s.setAcc 0) := rfl

/-- AXB `k` folds `FB[k]` into ACC (40_checksum.md R92). -/
theorem exec_axb (k : Index) (s : State) : exec (.axb k) s = .next (s.setAcc (s.acc ^^^ s.fbGet k.toNat)) := rfl

/-- CSUM `n` writes the fold of the first `n` bytes to ACC (40_checksum.md R93). -/
theorem exec_csum (n : Index) (s : State) : exec (.csum n) s = .next (s.setAcc (xorList (s.fbBytes 0 n.toNat))) := by
  rw [← Nat.sub_zero n.toNat, ← State.xorFold_eq]; rfl

/-- Settles O14. The argument is the low 12 bits of the word, and format Z wants it to be 0. -/
theorem aclrClearsTheAccumulator : Obligations.AclrClearsTheAccumulator := by
  refine ⟨decode_eq_command.2 rfl, fun k hk => ?_, exec_aclr⟩
  have hw : 0x1000#16 ||| k.setWidth 16 = 1#4 ++ k := opcode_or_argument 1#4 k
  rw [hw, decode, decodeWith, opField_append, argField_append]
  exact formatZ_illegal.2 hk

/-- Settles O15. -/
theorem axbFoldsInOneByte : Obligations.AxbFoldsInOneByte :=
  fun k => ⟨decode_opcode_or_argument (.axb k) (by simp [Instr.op]), exec_axb k⟩

/-- Settles O16. -/
theorem csumSetsTheChecksumOfTheFirstBytes : Obligations.CsumSetsTheChecksumOfTheFirstBytes :=
  fun n => ⟨decode_opcode_or_argument (.csum n) (by simp [Instr.op]), exec_csum n⟩

/-! ### The order of the bytes -/

@[simp] theorem execAll_nil (s : State) : execAll [] s = .next s := rfl

/-- Commands go on from the state the first one ends in. -/
theorem execAll_cons_of_next {i : Instr} {s t : State} (h : exec i s = .next t) (is : List Instr) :
    execAll (i :: is) s = execAll is t := by rw [execAll, h]

/-- AXB along a list of indices folds the bytes there into ACC. -/
theorem execAll_axb (ks : List Index) (s : State) :
    execAll (ks.map Instr.axb) s = .next (s.setAcc (s.acc ^^^ xorList (ks.map fun k => s.fbGet k.toNat))) := by
  induction ks generalizing s with
  | nil => simp [State.setAcc]
  | cons k ks ih =>
    rw [List.map_cons, execAll_cons_of_next (exec_axb k s), ih]
    simp only [State.setAcc_acc, State.setAcc_fbGet, List.map_cons, xorList_cons, BitVec.xor_assoc]
    rfl

/-- Settles O17: the bytes along the permutation are the first `n` bytes in another order. -/
theorem csumIsAclrAndAxbInAnyOrder : Obligations.CsumIsAclrAndAxbInAnyOrder := by
  intro s n ks hks
  have hbytes : (ks.map fun k => s.fbGet k.toNat).Perm (s.fbBytes 0 n.toNat) := by
    simpa [State.fbBytes, Function.comp_def] using hks.map s.fbGet
  rw [execAll_cons_of_next (exec_aclr s), execAll_axb, exec_csum, ← xorList_perm hbytes]
  simp only [State.setAcc_acc, State.setAcc_fbGet, BitVec.ofNat_eq_ofNat, BitVec.zero_xor]
  rfl

/-! ### One byte twice, one bit changed -/

/-- A byte of the buffer after one bit is flipped. -/
theorem State.fbGet_flipBit (s : State) (k bit j : Nat) :
    (s.flipBit k bit).fbGet j = if j = k then s.fbGet k ^^^ (1#8 <<< bit) else s.fbGet j := State.fbGet_fbSet ..

theorem State.fbGet_flipBit_ne (s : State) {k j : Nat} (h : j ≠ k) (bit : Nat) :
    (s.flipBit k bit).fbGet j = s.fbGet j := by rw [State.fbGet_flipBit, if_neg h]

/-- A bit flipped in a byte of the range flips the same bit of the fold (40_checksum.md R94 (e)): the flipped byte is
the last of the range, or it lies before it. -/
theorem State.xorFold_flipBit (s : State) {k n : Nat} (h : k < n) (bit : Nat) :
    (s.flipBit k bit).xorFold 0 n = s.xorFold 0 n ^^^ (1#8 <<< bit) := by
  induction n with
  | zero => exact absurd h (Nat.not_lt_zero k)
  | succ n ih =>
    rw [State.xorFold_succ, State.xorFold_succ]
    rcases Nat.lt_succ_iff_lt_or_eq.1 h with hlt | rfl
    · rw [ih hlt, State.fbGet_flipBit_ne s (by omega)]; ac_rfl
    · have hbefore : (s.flipBit k bit).xorFold 0 k = s.xorFold 0 k :=
        State.xorFold_congr fun j _ hj => State.fbGet_flipBit_ne s (by omega) bit
      rw [hbefore, State.fbGet_flipBit, if_pos rfl, BitVec.xor_assoc]

/-- AXB `k` twice in a row restores the state (40_checksum.md R94 (d)). -/
theorem execAll_axb_twice (k : Index) (s : State) : execAll [.axb k, .axb k] s = .next s := by
  have hcancel : s.acc ^^^ xorList [s.fbGet k.toNat, s.fbGet k.toNat] = s.acc := by simp
  calc execAll [.axb k, .axb k] s
    _ = .next (s.setAcc (s.acc ^^^ xorList [s.fbGet k.toNat, s.fbGet k.toNat])) := execAll_axb [k, k] s
    _ = .next s := by rw [hcancel]; rfl

/-- Settles O18. -/
theorem checksumFollowsEveryBit : Obligations.ChecksumFollowsEveryBit := fun s =>
  ⟨s.xorFold_succ, fun k => execAll_axb_twice k s, fun _ _ bit hk _ => s.xorFold_flipBit hk bit⟩

/-! ### A flipped bit of a frame -/

/-- Flipping one of the eight bits of a byte changes it. -/
theorem xor_oneBit_ne {bit : Nat} (h : bit < 8) (c : Byte) : c ≠ c ^^^ (1#8 <<< bit) := by
  intro hc
  have hbit := congrArg (·.getLsbD bit) hc
  simp [h] at hbit

/-- A frame check finds a flipped payload bit: markers and trailer stand as they were, and the checksum is another
one (40_checksum.md R94 (e), 60_exceptions.md R216). -/
theorem State.Framed.frameCheck_flipBit {s : State} (hs : s.Framed) {k bit : Nat} (hk : 1 ≤ k)
    (hend : k < s.len.toNat - 3) (hbit : bit < 8) :
    ∃ u f, (s.flipBit k bit).frameCheck = (u, some f) ∧ f.code = .checksumMismatch ∧ u.gotv = true := by
  obtain ⟨h4, h0, h3, htrailer⟩ := s.framed_iff.1 hs
  have hout : ∀ j, j ≠ k → (s.flipBit k bit).fbGet j = s.fbGet j := fun j hj => s.fbGet_flipBit_ne hj bit
  have hsum : (s.xorFold 0 (s.len.toNat - 2)).toNat ≠ ((s.flipBit k bit).xorFold 0 (s.len.toNat - 2)).toNat := by
    rw [s.xorFold_flipBit (by omega), Ne, BitVec.toNat_inj]
    exact xor_oneBit_ne hbit _
  rw [← hout _ (by omega)] at h0 h3
  rw [← hout (s.len.toNat - 2) (by omega), ← hout (s.len.toNat - 1) (by omega)] at htrailer
  have hcheck := State.frameCheck_mismatch (s := s.flipBit k bit) h4 h0 h3 htrailer hsum
  exact ⟨_, _, hcheck, rfl, rfl⟩

/-- Settles O24: FCHK and DEC begin with the same frame check, and it fails with the trailer read. -/
theorem payloadBitFlipIsDetected : Obligations.PayloadBitFlipIsDetected := by
  intro s k bit hs hk hend hbit
  obtain ⟨u, f, hu, hcode, hgotv⟩ :=
    ((s.framed_setHtype 0).2 hs).frameCheck_flipBit (k := k) (bit := bit) hk hend hbit
  have herr : (u.fail f).err = 4 := by rw [State.fail_err, hcode]; rfl
  exact ⟨⟨_, exec_fchk_of_failed hu, herr, hgotv⟩,
    ⟨_, exec_dec_of_failed hu, herr, hgotv, rfl, rfl, rfl, rfl, rfl⟩⟩

end Sys2Proof.Machine
end

section
/-! PROOFS. Family 41_frame_envelope.md: the trailer's digits (R102), the checks of FCHK (R100, R101, R103), the frame
WRAP builds (R110), and the two as inverses (R111). -/

namespace Sys2Proof.Machine

/-! ### The trailer's digits -/

theorem hexUpperDigit_of_decimal {c : Byte} (h : 0x30 ≤ c.toNat ∧ c.toNat ≤ 0x39) :
    hexUpperDigit c = some (c.toNat - 0x30) := if_pos h

theorem hexUpperDigit_of_letter {c : Byte} (h : 0x41 ≤ c.toNat ∧ c.toNat ≤ 0x46) :
    hexUpperDigit c = some (c.toNat - 0x37) := by
  rw [hexUpperDigit, if_neg (by omega), if_pos h]

theorem hexUpperDigit_of_neither {c : Byte} (hd : ¬(0x30 ≤ c.toNat ∧ c.toNat ≤ 0x39))
    (hl : ¬(0x41 ≤ c.toNat ∧ c.toNat ≤ 0x46)) : hexUpperDigit c = none := by
  rw [hexUpperDigit, if_neg hd, if_neg hl]

/-- Settles O20, by the three classes of a byte: decimal digit, uppercase letter, neither. -/
theorem trailerDigitIsUppercase : Obligations.TrailerDigitIsUppercase := by
  intro c
  by_cases hd : 0x30 ≤ c.toNat ∧ c.toNat ≤ 0x39
  · rw [hexUpperDigit_of_decimal hd]
    exact ⟨fun v => by rw [Option.some.injEq]; omega, iff_of_false nofun fun hn => hn (.inl hd)⟩
  · by_cases hl : 0x41 ≤ c.toNat ∧ c.toNat ≤ 0x46
    · rw [hexUpperDigit_of_letter hl]
      exact ⟨fun v => by rw [Option.some.injEq]; omega, iff_of_false nofun fun hn => hn (.inr hl)⟩
    · rw [hexUpperDigit_of_neither hd hl]
      exact ⟨fun v => iff_of_false nofun (by omega), iff_of_true rfl (by omega)⟩

/-! ### Reports with their values as numbers -/

/-- `fail E(a, b)` as the report of the three numbers (60_exceptions.md R220). -/
theorem State.fail_eq_reported (s : State) {f : Failure} {a b : Nat} (ha : f.infoA = BitVec.ofNat 16 a)
    (hb : f.infoB = BitVec.ofNat 16 b) : s.fail f = s.reported f.code.number.toNat a b := by
  rw [State.reported, BitVec.ofNat_toNat, BitVec.setWidth_eq, ← ha, ← hb]; rfl

/-- Two bytes in a diagnostic register, the first one high, as a number (41_frame_envelope.md R103). -/
theorem append_eq_ofNat (h l : Byte) : (h ++ l : Word) = BitVec.ofNat 16 (256 * h.toNat + l.toNat) := by
  have hh := h.isLt
  have hl := l.isLt
  have happ : (h ++ l : Word).toNat = h.toNat <<< 8 ||| l.toNat := BitVec.toNat_append h l
  apply BitVec.eq_of_toNat_eq
  rw [happ, ← Nat.shiftLeft_add_eq_or_of_lt hl, Nat.shiftLeft_eq, BitVec.toNat_ofNat]
  omega

/-! ### FCHK -/

/-- FCHK after a failed frame check, the report as numbers (41_frame_envelope.md R101). -/
theorem exec_fchk_reported {s u : State} {f : Failure} {a b : Nat} (h : (s.setHtype 0).frameCheck = (u, some f))
    (ha : f.infoA = BitVec.ofNat 16 a) (hb : f.infoB = BitVec.ofNat 16 b) :
    exec .fchk s = .next ((u.setPlen 0).reported f.code.number.toNat a b) := by
  rw [exec_fchk_of_failed h, State.fail_eq_reported _ ha hb]

/-- A frame check of anything but a frame fails (41_frame_envelope.md R100). -/
theorem State.frameCheck_of_not_framed {s : State} (h : ¬s.Framed) : ∃ u f, s.frameCheck = (u, some f) := by
  rcases s.frameCheck_cases with
    ⟨_, hc⟩ | ⟨_, _, hc⟩ | ⟨_, _, _, hc⟩ | ⟨_, _, _, _, hc⟩ | ⟨_, _, _, _, _, _, hc⟩ | ⟨hf, _⟩
  case inr.inr.inr.inr.inr => exact absurd hf h
  all_goals exact ⟨_, _, hc⟩

/-- An FCHK that reports no error has found a frame, and leaves what a passed check leaves. -/
theorem exec_fchk_of_err_eq_zero {s t : State} (h : exec .fchk s = .next t) (h0 : t.err = 0) :
    s.Framed ∧ t = s.passed 0 := by
  by_cases hf : s.Framed
  · rw [exec_fchk_of_framed hf] at h
    cases h
    exact ⟨hf, rfl⟩
  · obtain ⟨u, f, hc⟩ := State.frameCheck_of_not_framed (mt (s.framed_setHtype 0).1 hf)
    rw [exec_fchk_of_failed hc] at h
    cases h
    exact absurd h0 f.code.number_ne_zero

/-- Settles O19: each failure from the frame check's own lemma, and a frame from `State.framed_iff`. -/
theorem fchkChecksInOrder : Obligations.FchkChecksInOrder := by
  refine ⟨decode_eq_command.2 rfl, fun s => ⟨fun hshort => ?short, fun h4 hstart => ?startMarker,
    fun h4 h0 hend => ?endMarker, fun h4 h0 h3 => ⟨fun hnone => ?unreadable, fun h l hh hl => ?readable⟩⟩⟩
  case short => exact exec_fchk_reported (State.frameCheck_short hshort) rfl rfl
  case startMarker =>
    exact exec_fchk_reported (State.frameCheck_start h4 hstart) (BitVec.ofNat_toNat 16 (s.fbGet 0)).symm rfl
  case endMarker =>
    exact exec_fchk_reported (State.frameCheck_end h4 h0 hend)
      (BitVec.ofNat_toNat 16 (s.fbGet (s.len.toNat - 3))).symm rfl
  case unreadable =>
    have hv := trailerValue_eq_none.2 hnone
    exact exec_fchk_reported (State.frameCheck_unreadable h4 h0 h3 hv) (append_eq_ofNat _ _)
      (BitVec.ofNat_toNat 16 (s.xorFold 0 (s.len.toNat - 2))).symm
  case readable =>
    have hv := trailerValue_eq_some.2 ⟨h, l, hh, hl, rfl⟩
    refine ⟨fun hne => ?_, fun heq => exec_fchk_of_framed (s.framed_iff.2 ⟨h4, h0, h3, heq ▸ hv⟩)⟩
    exact exec_fchk_reported (State.frameCheck_mismatch (s := s.setHtype 0) h4 h0 h3 hv hne) rfl
      (BitVec.ofNat_toNat 16 (s.xorFold 0 (s.len.toNat - 2))).symm

/-- Settles O21. -/
theorem fchkAcceptsExactlyFrames : Obligations.FchkAcceptsExactlyFrames := fun _ =>
  ⟨fun ⟨_, ht, h0⟩ => (exec_fchk_of_err_eq_zero ht h0).1, fun hf => ⟨_, exec_fchk_of_framed hf, rfl⟩⟩

/-! ### WRAP -/

/-- Settles O22. -/
theorem wrapBuildsTheFrame : Obligations.WrapBuildsTheFrame := by
  refine fun s n => ⟨decode_opcode_or_argument (.wrap n) (by simp [Instr.op]), fun hlong => ?_,
    fun hfits => exec_wrap_built hfits s⟩
  rw [exec_wrap_of_tooLong hlong, State.fail_eq_reported _ (BitVec.ofNat_toNat 16 n).symm rfl]
  rfl

/-- A WRAP that reports no error has built the frame of a payload that fits (41_frame_envelope.md R110). -/
theorem exec_wrap_of_err_eq_zero {n : Index} {s t : State} (h : exec (.wrap n) s = .next t) (h0 : t.err = 0) :
    n.toNat ≤ 4091 ∧ BuiltFrame s t 0 (s.fbBytes 1 n.toNat) := by
  rcases Nat.lt_or_ge 4091 n.toNat with hn | hn
  · rw [exec_wrap_of_tooLong hn] at h
    cases h
    exact absurd h0 (ErrCode.number_ne_zero .frameTooLong)
  · obtain ⟨u, he, hb⟩ := exec_wrap_built hn s
    rw [he] at h
    cases h
    exact ⟨hn, hb⟩

/-! ### WRAP and FCHK as inverses -/

/-- A frame just built passes FCHK, which finds ACC, PLEN and the report as they stand and writes GOTV
(41_frame_envelope.md R111). -/
theorem BuiltFrame.exec_fchk {s t : State} {p : List Byte} (hb : BuiltFrame s t 0 p) (hp : p.length ≤ 4091) :
    exec .fchk t = .next { t with gotv := true } := by
  obtain ⟨hlen, hframed, hsum, -⟩ := hb.facts hp
  rw [exec_fchk_of_framed hframed, State.passed, hsum, hlen, Nat.add_sub_cancel, hb.1]

/-- The frame built around a framed buffer's own payload is the one that stands there: LEN and every byte read as
before (41_frame_envelope.md R111). -/
theorem BuiltFrame.same_of_framed {s u : State} {x : BitVec 2} (hf : s.Framed)
    (hb : BuiltFrame s u x (s.fbBytes 1 (s.len.toNat - 4))) : u.len = s.len ∧ SameFb s u := by
  have hplen : (s.fbBytes 1 (s.len.toNat - 4)).length + 4 = s.len.toNat := by
    rw [State.fbBytes_length, Nat.sub_add_cancel hf.1]
  refine ⟨by rw [hb.1, hplen, BitVec.ofNat_toNat, BitVec.setWidth_eq], fun k => ?_⟩
  rcases Nat.lt_or_ge k s.len.toNat with hk | hk
  · have hi : k < (frameBytes (s.fbBytes 1 (s.len.toNat - 4))).length := by rwa [frameBytes_length, hplen]
    have hold := (s.hasBytes_iff_getElem 0 _).1 hf.hasBytes k hi
    have hnew := (u.hasBytes_iff_getElem 0 _).1 hb.hasBytes k hi
    rw [Nat.zero_add] at hold hnew
    rw [hold, hnew]
  · exact hb.2.2 k (by rwa [hplen])

/-- WRAP of the payload length that a passed frame check leaves in PLEN (41_frame_envelope.md R111). -/
theorem exec_wrap_of_passed (s : State) (x : BitVec 2) :
    ∃ u, exec (.wrap (s.passed x).plen) (s.passed x) = .next u ∧
      BuiltFrame (s.passed x) u 0 ((s.passed x).fbBytes 1 (s.len.toNat - 4)) := by
  have hlt := s.len.isLt
  have hplen : (s.passed x).plen.toNat = s.len.toNat - 4 := by
    rw [State.passed, BitVec.toNat_ofNat]; omega
  rw [← hplen]
  exact exec_wrap_built (by omega) (s.passed x)

/-- Settles O23. -/
theorem wrapAndFchkAreInverse : Obligations.WrapAndFchkAreInverse := by
  refine ⟨fun s t n h h0 => ?_, fun s t h h0 => ?_⟩
  · obtain ⟨hn, hb⟩ := exec_wrap_of_err_eq_zero h h0
    refine ⟨hb.exec_fchk (by rwa [State.fbBytes_length]), ?_⟩
    rw [hb.1, State.fbBytes_length, BitVec.ofNat_toNat, BitVec.setWidth_eq]
  · obtain ⟨hf, rfl⟩ := exec_fchk_of_err_eq_zero h h0
    obtain ⟨u, he, hb⟩ := exec_wrap_of_passed s 0
    exact ⟨u, he, hb.err_eq_zero, BuiltFrame.same_of_framed (s := s.passed 0) hf hb⟩

end Sys2Proof.Machine
end

section
/-! PROOFS. Family 42_dispatch_da_st.md: the outcomes of DEC (R120, R124, R125), the tags (R121), the DA and ST handlers
(R122, R123), and that every command and every step has a next state. -/

namespace Sys2Proof.Machine

/-! ### The dispatcher and the handlers, case by case -/

/-- A payload shorter than a tag (42_dispatch_da_st.md R121). -/
theorem State.dispatch_short (s : State) {P : Nat} (hP : P < 2) :
    s.dispatch P = (0, .error { code := .unknownTelegramType, infoA := 0, infoB := BitVec.ofNat 16 P }) := if_pos hP

/-- A pair of bytes that is no tag (42_dispatch_da_st.md R121). -/
theorem State.dispatch_unknown {s : State} {P : Nat} (hP : 2 ≤ P) (hda : ¬(s.fbGet 1 = 0x44 ∧ s.fbGet 2 = 0x41))
    (hst : ¬(s.fbGet 1 = 0x53 ∧ s.fbGet 2 = 0x54)) (hmd : ¬(s.fbGet 1 = 0x4D ∧ s.fbGet 2 = 0x44)) :
    s.dispatch P =
      (0, .error { code := .unknownTelegramType, infoA := s.fbGet 1 ++ s.fbGet 2, infoB := BitVec.ofNat 16 P }) := by
  rw [State.dispatch, if_neg (Nat.not_lt.2 hP), State.tagType_eq, if_neg hda, if_neg hst, if_neg hmd]; rfl

/-- The bare tag DA (42_dispatch_da_st.md R122). -/
theorem State.decodeDa_bare (s : State) {P : Nat} (hP : P = 2) :
    s.decodeDa P = .ok { ttype := 1, p := false, val := 0, cmdlen := 0, readings := [] } := if_pos hP

/-- The DA payload with a component is read as its three digits are (42_dispatch_da_st.md R122). -/
theorem State.decodeDa_of_getDec_ok {s : State} {P v : Nat} (hP : P = 5) (h : s.getDec 3 3 = .ok v) :
    s.decodeDa P = .ok { ttype := 1, p := true, val := BitVec.ofNat 10 v, cmdlen := 0, readings := [] } := by
  rw [State.decodeDa, if_neg (by omega), if_pos hP, h]; rfl

theorem State.decodeDa_of_getDec_error {s : State} {P : Nat} {f : Failure} (hP : P = 5) (h : s.getDec 3 3 = .error f) :
    s.decodeDa P = .error f := by
  rw [State.decodeDa, if_neg (by omega), if_pos hP, h]; rfl

theorem State.decodeDa_length (s : State) {P : Nat} (h2 : P ≠ 2) (h5 : P ≠ 5) :
    s.decodeDa P = .error (invalidLength 0 P) := by rw [State.decodeDa, if_neg h2, if_neg h5]

theorem State.decodeSt_short (s : State) {P : Nat} (hP : P < 6) : s.decodeSt P = .error (invalidLength 6 P) := if_pos hP

/-- The ST payload that is long enough is read as its three digits are (42_dispatch_da_st.md R123). -/
theorem State.decodeSt_of_getDec_ok {s : State} {P v : Nat} (hP : 6 ≤ P) (h : s.getDec 3 3 = .ok v) :
    s.decodeSt P =
      .ok { ttype := 2, p := true, val := BitVec.ofNat 10 v, cmdlen := BitVec.ofNat 12 (P - 5), readings := [] } := by
  rw [State.decodeSt, if_neg (Nat.not_lt.2 hP), h]; rfl

theorem State.decodeSt_of_getDec_error {s : State} {P : Nat} {f : Failure} (hP : 6 ≤ P) (h : s.getDec 3 3 = .error f) :
    s.decodeSt P = .error f := by
  rw [State.decodeSt, if_neg (Nat.not_lt.2 hP), h]; rfl

/-! ### What DEC leaves -/

/-- The frame check that FCHK and DEC begin with fails on anything but a frame (42_dispatch_da_st.md R120). -/
theorem State.frameCheck_setHtype_of_not_framed {s : State} (hs : ¬s.Framed) :
    ∃ u f, (s.setHtype 0).frameCheck = (u, some f) :=
  State.frameCheck_of_not_framed (mt (s.framed_setHtype 0).1 hs)

/-- DEC on a framed buffer whose payload decodes (42_dispatch_da_st.md R120). -/
theorem exec_dec_of_dispatch_ok {s : State} (hs : s.Framed) {h : BitVec 2} {r : DecodedRecord}
    (hd : s.dispatch (s.len.toNat - 4) = (h, .ok r)) : exec .dec s = .next ((s.passed h).commit r) := by
  rw [exec_dec_of_framed hs, hd]

/-- DEC on a framed buffer whose payload does not decode (42_dispatch_da_st.md R120, R124). -/
theorem exec_dec_of_dispatch_error {s : State} (hs : s.Framed) {h : BitVec 2} {f : Failure}
    (hd : s.dispatch (s.len.toNat - 4) = (h, .error f)) :
    exec .dec s = .next ((s.passed h).clearRecord.fail f) := by
  rw [exec_dec_of_framed hs, hd]

/-- The same with the report as numbers (60_exceptions.md R220). -/
theorem exec_dec_decodeFailed {s : State} (hs : s.Framed) {h : BitVec 2} {f : Failure} {a b : Nat}
    (hd : s.dispatch (s.len.toNat - 4) = (h, .error f)) (ha : f.infoA = BitVec.ofNat 16 a)
    (hb : f.infoB = BitVec.ofNat 16 b) :
    exec .dec s = .next ((s.passed h).decodeFailed f.code.number.toNat a b) := by
  rw [exec_dec_of_dispatch_error hs hd, State.fail_eq_reported _ ha hb]; rfl

/-- DEC on a framed buffer with a malformed character at frame index `k` (60_exceptions.md R211). -/
theorem exec_dec_malformed {s : State} (hs : s.Framed) {h : BitVec 2} {k : Nat}
    (hd : s.dispatch (s.len.toNat - 4) = (h, .error (s.malformed k))) :
    exec .dec s = .next ((s.passed h).decodeFailed 10 (s.fbGet k).toNat k) :=
  exec_dec_decodeFailed hs hd (BitVec.ofNat_toNat 16 (s.fbGet k)).symm rfl

/-- Settles O25: the frame check that FCHK failed is the one DEC begins with. -/
theorem decFailsTheFrameCheckAsFchk : Obligations.DecFailsTheFrameCheckAsFchk := by
  intro s t h hne
  have hs : ¬s.Framed := by
    intro hf
    rw [exec_fchk_of_framed hf] at h
    cases h
    exact hne rfl
  obtain ⟨u, f, hc⟩ := State.frameCheck_setHtype_of_not_framed hs
  rw [exec_fchk_of_failed hc] at h
  cases h
  exact exec_dec_of_failed hc

/-- Settles O26. -/
theorem decRejectsUnknownTags : Obligations.DecRejectsUnknownTags := fun s hs =>
  ⟨fun hP => exec_dec_decodeFailed hs (s.dispatch_short hP) rfl rfl,
    fun hP hda hst hmd => exec_dec_decodeFailed hs (State.dispatch_unknown hP hda hst hmd) (append_eq_ofNat _ _) rfl⟩

/-- Settles O27, by the payload length and, at length 5, by what the digits read as. -/
theorem decDecodesAddressing : Obligations.DecDecodesAddressing := by
  intro s hs h1 h2 P
  have hda : 2 ≤ P → s.dispatch P = (1, s.decodeDa P) := fun hP => State.dispatch_da hP h1 h2
  refine ⟨fun hP => ?bare, fun hP v hv => ?component, fun hP k hk hk5 hbad hgood => ?malformed,
    fun hP hne2 hne5 => ?length⟩
  case bare =>
    rw [s.decodeDa_bare hP] at hda
    exact exec_dec_of_dispatch_ok hs (hda (by omega))
  case component =>
    rw [State.decodeDa_of_getDec_ok hP (State.getDec_of_dec3At hv).1] at hda
    exact exec_dec_of_dispatch_ok hs (hda (by omega))
  case malformed =>
    have hdigits := State.getDec_error_of (w := 3) hk (by omega) hbad hgood
    rw [State.decodeDa_of_getDec_error hP hdigits] at hda
    exact exec_dec_malformed hs (hda (by omega))
  case length =>
    rw [s.decodeDa_length hne2 hne5] at hda
    exact exec_dec_decodeFailed hs (hda hP) rfl rfl

/-- Settles O28, by the payload length and what the digits read as. -/
theorem decDecodesStatus : Obligations.DecDecodesStatus := by
  intro s hs h1 h2 P
  have hst : 2 ≤ P → s.dispatch P = (2, s.decodeSt P) := fun hP => State.dispatch_st hP h1 h2
  refine ⟨fun hP hP6 => ?short, fun hP v hv => ?component, fun hP k hk hk5 hbad hgood => ?malformed⟩
  case short =>
    rw [s.decodeSt_short hP6] at hst
    exact exec_dec_decodeFailed hs (hst hP) rfl rfl
  case component =>
    rw [State.decodeSt_of_getDec_ok hP (State.getDec_of_dec3At hv).1] at hst
    exact exec_dec_of_dispatch_ok hs (hst (by omega))
  case malformed =>
    have hdigits := State.getDec_error_of (w := 3) hk (by omega) hbad hgood
    rw [State.decodeSt_of_getDec_error hP hdigits] at hst
    exact exec_dec_malformed hs (hst (by omega))

/-! ### A record, or none -/

/-- There is no record exactly when TTYPE is 0 (10_state.md R29). -/
theorem State.record_eq_none_iff (s : State) : s.record = none ↔ s.ttype = 0 := by
  have htt : ∀ x : BitVec 2, x = 0 ∨ x = 1 ∨ x = 2 ∨ x = 3 := by decide
  rcases htt s.ttype with h | h | h | h <;> simp [State.record, h]

/-- What a failed DEC leaves is no record (60_exceptions.md R220). -/
theorem State.noRecord_clearRecord_fail (s : State) (f : Failure) : NoRecord (s.clearRecord.fail f) :=
  ⟨rfl, rfl, rfl, rfl, rfl⟩

theorem NoRecord.record_eq_none {s : State} (h : NoRecord s) : s.record = none := s.record_eq_none_iff.2 h.1

theorem State.fail_err_ne_zero (s : State) (f : Failure) : (s.fail f).err ≠ 0 := f.code.number_ne_zero

/-- The record a handler answers has a type (42_dispatch_da_st.md R122, R123, 43_md.md R141). -/
theorem State.dispatch_ttype_ne_zero {s : State} {P : Nat} {h r} (hd : s.dispatch P = (h, .ok r)) : r.ttype ≠ 0 := by
  rcases State.dispatch_ok hd with
    ⟨_, _, _, _, rfl⟩ | ⟨_, _, _, _, v, _, rfl⟩ | ⟨_, _, _, _, v, _, rfl⟩ | ⟨_, _, _, n, es, _, _, _, rfl⟩ <;> simp

/-- The record a handler answers has at most the 99 readings of a two-digit count (43_md.md R141). -/
theorem State.dispatch_readings_length_le {s : State} {P : Nat} {h r} (hd : s.dispatch P = (h, .ok r)) :
    r.readings.length ≤ 99 := by
  rcases State.dispatch_ok hd with
    ⟨_, _, _, _, rfl⟩ | ⟨_, _, _, _, v, _, rfl⟩ | ⟨_, _, _, _, v, _, rfl⟩ | ⟨_, _, _, n, es, hn, _, hes, rfl⟩
  · exact Nat.zero_le _
  · exact Nat.zero_le _
  · exact Nat.zero_le _
  · have hcount := ((s.getDec_ok_iff 3 2 n).1 hn).1
    have hlength := ((s.decodeBlocks_ok_iff 6 n es).1 hes).1
    dsimp only
    omega

/-- A commit leaves the entries from the new COUNT on (42_dispatch_da_st.md R124). -/
theorem State.commit_rtGet_of_count_le {s : State} {r : DecodedRecord} (hr : r.readings.length ≤ 99) {i : Nat}
    (hi : (s.commit r).count.toNat ≤ i) (f : RtField) : (s.commit r).rtGet i f = s.rtGet i f := by
  have hcount : (s.commit r).count.toNat = r.readings.length := Nat.mod_eq_of_lt (by omega)
  rw [State.commit, State.rtGet_rtStore, dif_neg (by omega)]
  rfl

/-- The errors of the frame check have the codes 1 to 4 (60_exceptions.md R210, R214). -/
theorem State.frameCheck_failed_number {s u : State} {f : Failure} (h : s.frameCheck = (u, some f)) :
    f.code.number = 1 ∨ f.code.number = 2 ∨ f.code.number = 3 ∨ f.code.number = 4 := by
  obtain ⟨-, hc | hc | hc | hc⟩ := State.frameCheck_failed h <;> rw [hc] <;> decide

/-- The errors of the dispatcher and its handlers have the codes 5, 6 and 10 (60_exceptions.md R210, R214). -/
theorem State.dispatch_error_number {s : State} {P : Nat} {h f} (hP : P ≤ 4091) (hd : s.dispatch P = (h, .error f)) :
    f.code.number = 5 ∨ f.code.number = 6 ∨ f.code.number = 10 := by
  rcases State.dispatch_error hP hd with ⟨_, hc, _⟩ | ⟨_, hc, _⟩ | ⟨_, _, k, _, _, rfl⟩
  · rw [hc]; decide
  · rw [hc]; decide
  · exact .inr (.inr rfl)

/-- DEC ends in one of two ways: it fails with one of its seven errors, the record registers cleared and RT as it was,
or it commits what the handler answered (42_dispatch_da_st.md R120, R124). -/
theorem exec_dec_failed_or_committed (s : State) :
    (∃ (u : State) (f : Failure), u.rt = s.rt ∧
      (f.code.number = 1 ∨ f.code.number = 2 ∨ f.code.number = 3 ∨ f.code.number = 4 ∨ f.code.number = 5 ∨
        f.code.number = 6 ∨ f.code.number = 10) ∧
      exec .dec s = .next (u.clearRecord.fail f)) ∨
    (∃ h r, s.dispatch (s.len.toNat - 4) = (h, .ok r) ∧ exec .dec s = .next ((s.passed h).commit r)) := by
  by_cases hs : s.Framed
  · cases hd : s.dispatch (s.len.toNat - 4) with
    | mk h r =>
      cases r with
      | error f =>
        have hlen := s.len.isLt
        have hcode := State.dispatch_error_number (by omega) hd
        exact .inl ⟨s.passed h, f, rfl, by tauto, exec_dec_of_dispatch_error hs hd⟩
      | ok r => exact .inr ⟨h, r, rfl, exec_dec_of_dispatch_ok hs hd⟩
  · obtain ⟨u, f, hc⟩ := State.frameCheck_setHtype_of_not_framed hs
    have hcode := State.frameCheck_failed_number hc
    have hrt : u.rt = s.rt := by
      obtain ⟨⟨g, a, rfl⟩, -⟩ := State.frameCheck_failed hc
      rfl
    exact .inl ⟨u.setPlen 0, f, hrt, by tauto, exec_dec_of_failed hc⟩

/-- Settles O31: FB, LEN and the model's own fields by `exec_dec_frame`, the rest by the two ways DEC ends. -/
theorem decLeavesNoPartialRecord : Obligations.DecLeavesNoPartialRecord := by
  intro s t h
  obtain ⟨hm, hfb, hlen⟩ := exec_dec_frame h
  rcases exec_dec_failed_or_committed s with ⟨u, f, hrt, _, hx⟩ | ⟨x, r, hd, hx⟩ <;> rw [hx] at h <;> cases h
  · have hno := State.noRecord_clearRecord_fail u f
    exact ⟨fun _ => ⟨hno, hno.record_eq_none, hrt⟩, fun h0 => absurd h0 (State.fail_err_ne_zero _ f), hfb, hlen, hm⟩
  · have hr := State.dispatch_readings_length_le hd
    exact ⟨fun he => absurd rfl he, fun _ i f hi => State.commit_rtGet_of_count_le hr hi f, hfb, hlen, hm⟩

/-- Settles O32, by the two ways DEC ends. -/
theorem decIsTotal : Obligations.DecIsTotal := by
  intro s
  rcases exec_dec_failed_or_committed s with ⟨u, f, _, hcode, hx⟩ | ⟨h, r, hd, hx⟩
  · exact ⟨_, hx, .inr ⟨hcode, (State.noRecord_clearRecord_fail u f).record_eq_none⟩⟩
  · have hsome : ((s.passed h).commit r).record ≠ none :=
      mt (State.record_eq_none_iff _).1 (State.dispatch_ttype_ne_zero hd)
    exact ⟨_, hx, .inl ⟨rfl, Option.ne_none_iff_exists'.1 hsome⟩⟩

/-! ### Every step has a next state -/

/-- Every command has a next state (60_exceptions.md R222). -/
theorem exec_total (i : Instr) (s : State) : ∃ t, exec i s = .next t := by
  cases i with
  | nop => exact ⟨s, rfl⟩
  | aclr => exact ⟨_, exec_aclr s⟩
  | axb k => exact ⟨_, exec_axb k s⟩
  | csum n => exact ⟨_, exec_csum n s⟩
  | fchk =>
    by_cases hs : s.Framed
    · exact ⟨_, exec_fchk_of_framed hs⟩
    · obtain ⟨u, f, hc⟩ := State.frameCheck_setHtype_of_not_framed hs
      exact ⟨_, exec_fchk_of_failed hc⟩
  | dec =>
    obtain ⟨t, ht, -⟩ := decIsTotal s
    exact ⟨t, ht⟩
  | wrap n =>
    rcases Nat.lt_or_ge 4091 n.toNat with hn | hn
    · exact ⟨_, exec_wrap_of_tooLong hn s⟩
    · obtain ⟨t, ht, -⟩ := exec_wrap_built hn s
      exact ⟨t, ht⟩
  | enc =>
    cases hr : s.encodeRecord with
    | error f => exact ⟨_, exec_enc_of_error hr⟩
    | ok p =>
      obtain ⟨t, ht, -⟩ := exec_enc_built hr
      exact ⟨t, ht⟩

/-- Every word written to CMD has a next state, illegal or not (46_host_port.md R196). -/
theorem runWord_total (w : Word) (s : State) : ∃ t, runWord w s = .next t := by
  unfold runWord
  cases decode w with
  | command i => exact exec_total i s
  | illegal why => exact ⟨_, rfl⟩

/-- Every host operation has a next state (46_host_port.md R190). -/
theorem hostStep_total (o : HostOp) (s : State) : ∃ t, hostStep o s = .next t := by
  cases o with
  | csrRead c | fbRead k | fbWrite k b | rtRead a | rtWrite a v | reset => exact ⟨_, rfl⟩
  | csrWrite c v =>
    by_cases hc : csrOf c = some .cmd
    · rw [hostStep, if_pos hc]; exact runWord_total v s
    · rw [hostStep, if_neg hc]; exact ⟨_, rfl⟩

/-- Every step has a next state, with a host operation pending or none. -/
theorem step_total (s : State) : ∃ t, step s = .next t := by
  unfold step portStep
  cases s.port with
  | nil => exact ⟨s, rfl⟩
  | cons o os => exact hostStep_total o (s.setPort os)

/-- Settles O48. -/
theorem everyStepHasANextState : Obligations.EveryStepHasANextState := ⟨exec_total, step_total⟩

end Sys2Proof.Machine
end

section
/-! PROOFS. Family 43_md.md: the MD handler (R141, R142) and the ranges of what it decodes (R144). -/

namespace Sys2Proof.Machine

/-! ### The MD handler, case by case -/

/-- The record of an MD payload with these readings (43_md.md R141). -/
def mdRecord (es : List Reading) : DecodedRecord := { ttype := 3, p := false, val := 0, cmdlen := 0, readings := es }

/-- A payload too short for the count (43_md.md R141 (a)). -/
theorem State.decodeMd_short (s : State) {P : Nat} (hP : P < 4) : s.decodeMd P = .error (invalidLength 5 P) := if_pos hP

/-- A malformed count (43_md.md R141 (b)). -/
theorem State.decodeMd_of_count_error {s : State} {P : Nat} {f : Failure} (hP : 4 ≤ P) (h : s.getDec 3 2 = .error f) :
    s.decodeMd P = .error f := by
  rw [State.decodeMd, if_neg (Nat.not_lt.2 hP), h]; rfl

/-- A length that is not the one the count asks for (43_md.md R141 (c)). -/
theorem State.decodeMd_length {s : State} {P n : Nat} (hP : 4 ≤ P) (hn : s.getDec 3 2 = .ok n) (hne : P ≠ 5 + 30 * n) :
    s.decodeMd P = .error (invalidLength (5 + 30 * n) P) := by
  rw [State.decodeMd, if_neg (Nat.not_lt.2 hP), hn]; exact if_pos hne

/-- With the length its count asks for, the payload is read as its blocks are (43_md.md R141 (d)). -/
theorem State.decodeMd_blocks {s : State} {P n : Nat} (hn : s.getDec 3 2 = .ok n) (hP : P = 5 + 30 * n) :
    s.decodeMd P = (s.decodeBlocks 6 n).map mdRecord := by
  rw [State.decodeMd, if_neg (by omega), hn]
  refine (if_neg (not_not_intro hP)).trans ?_
  cases s.decodeBlocks 6 n <;> rfl

/-! ### What a commit leaves -/

/-- COUNT after a commit is the number of readings (42_dispatch_da_st.md R120). -/
theorem State.commit_count_toNat (s : State) {r : DecodedRecord} (hr : r.readings.length ≤ 99) :
    (s.commit r).count.toNat = r.readings.length := Nat.mod_eq_of_lt (by omega)

/-- The entries below the number of readings are the readings (42_dispatch_da_st.md R120). -/
theorem State.commit_rtReading (s : State) (r : DecodedRecord) {i : Nat} (hi : i < r.readings.length) :
    (s.commit r).rtReading i = r.readings[i] := by
  rw [State.commit, State.rtReading_rtStore, dif_pos ⟨Nat.zero_le i, hi⟩]
  rfl

/-- Settles O29: the handler answers the readings, and DEC commits them. -/
theorem decDecodesMeasurements : Obligations.DecDecodesMeasurements := by
  intro s es hs h1 h2 hcount hlen hblocks
  obtain ⟨hn, hle⟩ := State.getDec_of_dec2At hcount
  have hes : s.decodeBlocks 6 es.length = .ok es :=
    (s.decodeBlocks_ok_iff 6 es.length es).2 ⟨rfl, fun i hi => State.decodeBlock_of_blockAt (hblocks i hi)⟩
  have hmd := State.dispatch_md (P := s.len.toNat - 4) (by omega) h1 h2
  rw [State.decodeMd_blocks hn hlen, hes] at hmd
  have hcommitted : ((s.passed 3).commit (mdRecord es)).count.toNat = es.length := State.commit_count_toNat _ hle
  have hfrom : ∀ i f, es.length ≤ i → ((s.passed 3).commit (mdRecord es)).rtGet i f = (s.passed 3).rtGet i f :=
    fun i f hi => State.commit_rtGet_of_count_le hle (hcommitted.trans_le hi) f
  exact ⟨s.rt.putReadings 0 es, exec_dec_of_dispatch_ok hs hmd, fun i hi => State.commit_rtReading _ (mdRecord es) hi,
    hfrom⟩

/-- Settles O30: the handler's four errors, in the order of its checks. -/
theorem decRejectsMalformedMeasurements : Obligations.DecRejectsMalformedMeasurements := by
  intro s hs h1 h2 P
  have hmd : 2 ≤ P → s.dispatch P = (3, s.decodeMd P) := fun hP => State.dispatch_md hP h1 h2
  refine ⟨fun hP hP4 => ?short, fun hP k hk hk4 hbad hgood => ?count, fun hP n hn hne => ?length,
    fun n hn hP k hk hlt hbad hgood => ?block⟩
  case short =>
    rw [s.decodeMd_short hP4] at hmd
    exact exec_dec_decodeFailed hs (hmd hP) rfl rfl
  case count =>
    have hdigits := State.getDec_error_of (w := 2) hk (by omega) hbad hgood
    rw [State.decodeMd_of_count_error hP hdigits] at hmd
    exact exec_dec_malformed hs (hmd (by omega))
  case length =>
    rw [State.decodeMd_length hP (State.getDec_of_dec2At hn).1 hne] at hmd
    exact exec_dec_decodeFailed hs (hmd (by omega)) rfl rfl
  case block =>
    rw [State.decodeMd_blocks (State.getDec_of_dec2At hn).1 hP, State.decodeBlocks_error_of hk hlt hbad hgood] at hmd
    exact exec_dec_malformed hs (hmd (by omega))

/-! ### The ranges of what DEC decodes -/

/-- Every field of a reading is in the range its characters can express (43_md.md R144). -/
def Reading.Legal (e : Reading) : Prop :=
  e.comp.toNat ≤ 999 ∧ e.value.vm.toNat ≤ 9999 ∧ e.value.ee.toNat ≤ 99 ∧ e.opsts.toNat ≤ 255 ∧ e.errsts.toNat ≤ 255 ∧
    e.serial.toNat ≤ 999

/-- What a block decodes to is legal: the decimal fields by their digits, the status bytes by their width. -/
theorem State.legal_of_decodeBlock {s : State} {b : Nat} {e : Reading} (h : s.decodeBlock b = .ok e) : e.Legal := by
  obtain ⟨hcomp, -, hvalue, -, -, hserial, -⟩ := (s.decodeBlock_ok_iff b e).1 h
  obtain ⟨hvm, hee, -⟩ := (s.getValue_ok_iff (b + 4) e.value).1 hvalue
  exact ⟨Nat.le_of_lt_succ hcomp, hvm, hee, Nat.le_of_lt_succ e.opsts.isLt, Nat.le_of_lt_succ e.errsts.isLt,
    Nat.le_of_lt_succ hserial⟩

/-- A component of three digits is at most 999 (30_encoding.md R76). -/
theorem State.component_le_of_getDec {s : State} {k v : Nat} (h : s.getDec k 3 = .ok v) :
    (BitVec.ofNat 10 v).toNat ≤ 999 :=
  (Nat.mod_le v _).trans (Nat.le_of_lt_succ ((s.getDec_ok_iff k 3 v).1 h).1)

/-- The record a handler answers has a legal component and legal readings (43_md.md R144). -/
theorem State.dispatch_legal {s : State} {P : Nat} {h r} (hd : s.dispatch P = (h, .ok r)) :
    r.val.toNat ≤ 999 ∧ ∀ i (hi : i < r.readings.length), r.readings[i].Legal := by
  rcases State.dispatch_ok hd with
    ⟨_, _, _, _, rfl⟩ | ⟨_, _, _, _, v, hv, rfl⟩ | ⟨_, _, _, _, v, hv, rfl⟩ | ⟨_, _, _, n, es, _, _, hes, rfl⟩
  case inl => exact ⟨Nat.zero_le _, fun _ hi => absurd hi (Nat.not_lt_zero _)⟩
  case inr.inl => exact ⟨State.component_le_of_getDec hv, fun _ hi => absurd hi (Nat.not_lt_zero _)⟩
  case inr.inr.inl => exact ⟨State.component_le_of_getDec hv, fun _ hi => absurd hi (Nat.not_lt_zero _)⟩
  case inr.inr.inr =>
    obtain ⟨-, hblocks⟩ := (s.decodeBlocks_ok_iff 6 n es).1 hes
    exact ⟨Nat.zero_le _, fun i hi => State.legal_of_decodeBlock (hblocks i hi)⟩

/-- Settles O33: a DEC that ends without an error has committed what the handler answered. -/
theorem decodedFieldsAreLegal : Obligations.DecodedFieldsAreLegal := by
  intro s t h h0
  rcases exec_dec_failed_or_committed s with ⟨u, f, -, -, hx⟩ | ⟨x, r, hd, hx⟩ <;> rw [hx] at h <;> cases h
  case inl => exact absurd h0 (State.fail_err_ne_zero _ f)
  case inr =>
    have hlength := State.dispatch_readings_length_le hd
    have hcount := State.commit_count_toNat (s.passed x) hlength
    obtain ⟨hval, hlegal⟩ := State.dispatch_legal hd
    refine ⟨hval, hcount.trans_le hlength, fun i hi => ?_⟩
    have hi' : i < r.readings.length := hi.trans_eq hcount
    rw [(s.passed x).commit_rtReading r hi']
    exact hlegal i hi'

end Sys2Proof.Machine
end

section
/-! PROOFS. Family 44_value_field.md: the value field's two conversions are inverse (R154), and what the host-side `quant`
answers (R156, R158). -/

namespace Sys2Proof.Machine

/-! ### The value field -/

/-- The characters of a triple, just stored, read back as it (44_value_field.md R154, first direction). -/
theorem State.getValue_storeBytes_chars (s : State) (k : Nat) {t : Triple} (hvm : t.vm.toNat ≤ 9999)
    (hee : t.ee.toNat ≤ 99) : (s.storeBytes k t.chars).getValue k = .ok t :=
  (State.getValue_ok_iff _ k t).2 ⟨hvm, hee, s.hasBytes_storeBytes k t.chars⟩

/-- The 8 characters that read as a triple are the ones written for it (44_value_field.md R154, second direction). -/
theorem State.fbBytes_of_getValue {s : State} {k : Nat} {t : Triple} (h : s.getValue k = .ok t) :
    s.fbBytes k 8 = t.chars := by
  obtain ⟨-, -, hchars⟩ := (s.getValue_ok_iff k t).1 h
  simpa using (s.hasBytes_iff_fbBytes k t.chars).1 hchars

/-- Settles O43: reading a triple says exactly which 8 characters stand there. -/
theorem valueFieldRoundTrip : Obligations.ValueFieldRoundTrip := by
  intro s k t
  refine ⟨s.getValue_storeBytes_chars k, fun h u => ?_⟩
  have hwritten : (u.storeBytes k t.chars).fbBytes k 8 = t.chars := by
    simpa using u.fbBytes_storeBytes k t.chars
  rw [hwritten, State.fbBytes_of_getValue h]

/-! ### The triple of a rounded number -/

/-- The triple `quant` answers for a number `x` whose rounding has the digits `m` and the exponent `e`. -/
def roundedTriple (x : Rat) (m : Nat) (e : Int) : Triple where
  vs := if x < 0 then 1 else 0
  vm := BitVec.ofNat 14 m
  es := if e < 0 then 1 else 0
  ee := BitVec.ofNat 7 e.natAbs

theorem roundedTriple_vm_toNat (x : Rat) {m : Nat} (e : Int) (hm : m ≤ 9999) : (roundedTriple x m e).vm.toNat = m :=
  (BitVec.toNat_ofNat _ _).trans (Nat.mod_eq_of_lt (by omega))

theorem roundedTriple_ee_toNat (x : Rat) (m : Nat) {e : Int} (hlo : -100 < e) (hhi : e < 100) :
    (roundedTriple x m e).ee.toNat = e.natAbs :=
  (BitVec.toNat_ofNat _ _).trans (Nat.mod_eq_of_lt (by omega))

theorem roundedTriple_exponent (x : Rat) (m : Nat) {e : Int} (hlo : -100 < e) (hhi : e < 100) :
    (roundedTriple x m e).exponent = e := by
  rw [Triple.exponent, roundedTriple_ee_toNat x m hlo hhi]
  rcases lt_or_ge e 0 with he | he
  · rw [roundedTriple, if_pos he, if_neg (show (1 : BitVec 1) ≠ 0 by decide)]; omega
  · rw [roundedTriple, if_neg he.not_gt, if_pos rfl]; omega

/-- A triple of four digits is not the sentinel, whose mantissa is 0. -/
theorem roundedTriple_ne_sentinel (x : Rat) {m : Nat} (e : Int) (hlo : 1000 ≤ m) (hhi : m ≤ 9999) :
    roundedTriple x m e ≠ sentinel := by
  intro h
  have hm : m = sentinel.vm.toNat := by rw [← h, roundedTriple_vm_toNat x e hhi]
  have h0 : sentinel.vm.toNat = 0 := rfl
  omega

/-- The triple is as far from the number as the rounded digits are from its absolute value. -/
theorem abs_roundedTriple_val_sub (x : Rat) {m : Nat} {e : Int} (hm : m ≤ 9999) (hlo : -100 < e) (hhi : e < 100) :
    |(roundedTriple x m e).val - x| = |(m : Rat) * (10 : Rat) ^ (e - 3) - (|x|)| := by
  rw [Triple.val, roundedTriple_vm_toNat x e hm, roundedTriple_exponent x m hlo hhi]
  rcases lt_or_ge x 0 with hx | hx
  · rw [roundedTriple, if_pos hx, if_neg (show (1 : BitVec 1) ≠ 0 by decide), abs_of_neg hx, ← abs_neg]
    congr 1; ring
  · rw [roundedTriple, if_neg hx.not_gt, if_pos rfl, abs_of_nonneg hx, one_mul]

/-! ### Which answer `quant` gives -/

theorem quant_zero (r : Round4) : quant r 0 = .ok { vs := 0, vm := 0, es := 0, ee := 0 } := if_pos rfl

theorem quant_of_ne_zero (r : Round4) {x : Rat} (hx : x ≠ 0) :
    quant r x =
      if (r |x|).2 ≤ -100 then .ok sentinel
      else if 100 ≤ (r |x|).2 then .error .valueTooLarge
      else .ok (roundedTriple x (r |x|).1 (r |x|).2) := by
  have habs : (if x < 0 then -x else x) = |x| := by
    rcases lt_or_ge x 0 with h | h
    · rw [if_pos h, abs_of_neg h]
    · rw [if_neg h.not_gt, abs_of_nonneg h]
  simp only [quant, if_neg hx, habs, roundedTriple]

theorem quant_of_exponent_between (r : Round4) {x : Rat} (hx : x ≠ 0) (hlo : -100 < (r |x|).2) (hhi : (r |x|).2 < 100) :
    quant r x = .ok (roundedTriple x (r |x|).1 (r |x|).2) := by
  rw [quant_of_ne_zero r hx, if_neg hlo.not_ge, if_neg hhi.not_ge]

/-- `quant` underflows to the sentinel by the exponent alone, since four digits never spell it. -/
theorem quant_eq_sentinel_iff (r : Round4) {x : Rat} (hx : x ≠ 0) (hlo : 1000 ≤ (r |x|).1) (hhi : (r |x|).1 ≤ 9999) :
    quant r x = .ok sentinel ↔ (r |x|).2 ≤ -100 := by
  rw [quant_of_ne_zero r hx]
  split_ifs with hunder hover
  · simp [hunder]
  · simp [hunder]
  · simp [hunder, roundedTriple_ne_sentinel x _ hlo hhi]

theorem quant_eq_valueTooLarge_iff (r : Round4) {x : Rat} (hx : x ≠ 0) :
    quant r x = .error .valueTooLarge ↔ 100 ≤ (r |x|).2 := by
  rw [quant_of_ne_zero r hx]
  split_ifs with hunder hover
  · simp only [false_iff]; omega
  · simp [hover]
  · simp [hover]

/-! ### The exponent of a rounding -/

/-- The next power of ten is 10000 units of the fourth digit. -/
theorem zpow_succ_eq_units (d : Int) : (10 : Rat) ^ (d + 1) = 10000 * (10 : Rat) ^ (d - 3) := by
  rw [show d + 1 = 4 + (d - 3) by ring, zpow_add₀ (by norm_num)]
  norm_num

/-- Below 9999.5 units of the fourth digit, 10000 of them are more than half a unit away, and the exponent stays. -/
theorem Round4.Sound.exponent_eq {r : Round4} (hr : r.Sound) {y : Rat} {d : Int} (h1 : (10 : Rat) ^ d ≤ y)
    (h2 : y < (10 : Rat) ^ (d + 1)) (hy : 2 * y < 19999 * (10 : Rat) ^ (d - 3)) : (r y).2 = d := by
  obtain ⟨-, -, he, hnear⟩ := hr y d h1 h2
  rcases he with he | ⟨hm, he⟩
  · exact he
  · have hunits : ((r y).1 : Rat) * (10 : Rat) ^ ((r y).2 - 3) = 10000 * (10 : Rat) ^ (d - 3) := by
      rw [hm, he, show d + 1 - 3 = 1 + (d - 3) by ring, zpow_add₀ (by norm_num)]
      norm_num
      ring
    rw [hunits] at hnear
    linarith [(abs_le.1 hnear).2]

/-- Above 9999.5 units of the fourth digit, 10000 of them are nearer than half a unit, and the number rounds up. -/
theorem Round4.Sound.eq_of_roundsUp {r : Round4} (hr : r.Sound) {y : Rat} {d : Int} (h1 : (10 : Rat) ^ d ≤ y)
    (h2 : y < (10 : Rat) ^ (d + 1)) (hy : 19999 * (10 : Rat) ^ (d - 3) < 2 * y) : r y = (1000, d + 1) := by
  have hnear : |((10000 : Nat) : Rat) * (10 : Rat) ^ (d - 3) - y| < (10 : Rat) ^ (d - 3) / 2 := by
    rw [zpow_succ_eq_units] at h2
    rw [abs_lt]
    push_cast
    constructor <;> linarith
  simpa using hr.eq_of_near h1 h2 hnear

/-- Settles O54: each answer of `quant` by its branch, and the bound from the rounding's own. -/
theorem quantIsWithinHalfAUnit : Obligations.QuantIsWithinHalfAUnit := by
  intro r hr
  refine ⟨quant_zero r, fun x d h1 h2 => ?_⟩
  have hx : x ≠ 0 := abs_pos.1 (lt_of_lt_of_le (by positivity) h1)
  obtain ⟨hmlo, hmhi, -, hnear⟩ := hr |x| d h1 h2
  refine ⟨hr.exponent_eq h1 h2, fun h => ?_, quant_eq_sentinel_iff r hx hmlo hmhi, quant_eq_valueTooLarge_iff r hx,
    fun hlo hhi => ?_⟩
  · exact Prod.ext_iff.1 (hr.eq_of_roundsUp h1 h2 h)
  · refine ⟨_, quant_of_exponent_between r hx hlo hhi, rfl, roundedTriple_vm_toNat x _ hmhi, hmlo, hmhi, rfl,
      roundedTriple_ee_toNat x _ hlo hhi, ?_⟩
    rw [abs_roundedTriple_val_sub x hmhi hlo hhi]
    exact hnear

end Sys2Proof.Machine
end

section
/-! PROOFS. Family 45_encode.md: what ENC builds (R170 to R174), the errors it reports (R171 to R175), the layout of a
block, and the two round trips with DEC (R177). -/

namespace Sys2Proof.Machine

/-! ### The characters of a block -/

/-- The bit of a sign character decides which of the two it is (00_scope.md R8). -/
theorem signChar_eq (b : BitVec 1) : signChar b = if b = 1 then 0x2D#8 else 0x2B#8 := by
  revert b; decide

/-- Settles O40: each field's characters written out. -/
theorem emittedBlockLayout : Obligations.EmittedBlockLayout := by
  intro e t
  simp only [← signChar_eq]
  rfl

/-! ### The payload of a record -/

/-- The payload a record is encoded as (45_encode.md R171, R172, R174). -/
def Telegram.payload : Telegram → List Byte
  | .da none => [0x44, 0x41]
  | .da (some c) => [0x44, 0x41] ++ decChars 3 c.toNat
  | .st c x => [0x53, 0x54] ++ decChars 3 c.toNat ++ x
  | .md es => [0x4D, 0x44] ++ decChars 2 es.length ++ [0x20] ++ es.flatMap fun e => e.block e.value.emitted

/-- The record passes every check of its type encoder (45_encode.md R171 to R174). -/
def Telegram.Fits : Telegram → Prop
  | .da none => True
  | .da (some c) => c.toNat ≤ 999
  | .st c x => c.toNat ≤ 999 ∧ x.length ≤ 4086
  | .md es => es.length ≤ 99 ∧ ∀ e ∈ es, e.Encodable

theorem Telegram.payload_md_length (es : List Reading) : (Telegram.md es).payload.length = 5 + 30 * es.length := by
  have hblocks := length_flatMap_blocks es (fun e => e.block e.value.emitted) (by simp)
  simp [Telegram.payload, hblocks]; omega

/-- A record that fits has a payload that a frame can hold (45_encode.md R173). -/
theorem Telegram.Fits.payload_length_le {r : Telegram} (h : r.Fits) : r.payload.length ≤ 4091 := by
  match r, h with
  | .da none, _ => decide
  | .da (some c), _ => simp [Telegram.payload]
  | .st c x, ⟨_, hx⟩ => simp [Telegram.payload]; omega
  | .md es, ⟨hn, _⟩ => rw [Telegram.payload_md_length]; omega

/-! ### The record of a state -/

theorem State.record_da_bare {s : State} (ht : s.ttype = 1) (hp : s.compP = false) : s.record = some (.da none) := by
  simp [State.record, ht, hp]

theorem State.record_da_component {s : State} (ht : s.ttype = 1) (hp : s.compP = true) :
    s.record = some (.da (some s.compVal)) := by simp [State.record, ht, hp]

theorem State.record_st {s : State} (ht : s.ttype = 2) :
    s.record = some (.st s.compVal (s.fbBytes 6 s.cmdlen.toNat)) := by simp [State.record, ht]

theorem State.record_md {s : State} (ht : s.ttype = 3) : s.record = some (.md (s.readings s.count.toNat)) := by
  simp [State.record, ht]

@[simp] theorem State.readings_length (s : State) (n : Nat) : (s.readings n).length = n := by simp [State.readings]

@[simp] theorem State.readings_getElem (s : State) (n i : Nat) (h : i < (s.readings n).length) :
    (s.readings n)[i] = s.rtReading i := by simp [State.readings]

/-- The four forms of a record, by TTYPE and COMP.P (10_state.md R29). -/
theorem State.record_eq_some {s : State} {r : Telegram} (h : s.record = some r) :
    (s.ttype = 1 ∧ s.compP = false ∧ r = .da none) ∨ (s.ttype = 1 ∧ s.compP = true ∧ r = .da (some s.compVal)) ∨
    (s.ttype = 2 ∧ r = .st s.compVal (s.fbBytes 6 s.cmdlen.toNat)) ∨
    (s.ttype = 3 ∧ r = .md (s.readings s.count.toNat)) := by
  have htt : ∀ x : BitVec 2, x = 0 ∨ x = 1 ∨ x = 2 ∨ x = 3 := by decide
  rcases htt s.ttype with ht | ht | ht | ht
  · rw [s.record_eq_none_iff.2 ht] at h; cases h
  · cases hp : s.compP with
    | false => rw [State.record_da_bare ht hp] at h; cases h; exact .inl ⟨ht, rfl, rfl⟩
    | true => rw [State.record_da_component ht hp] at h; cases h; exact .inr (.inl ⟨ht, rfl, rfl⟩)
  · rw [State.record_st ht] at h; cases h; exact .inr (.inr (.inl ⟨ht, rfl⟩))
  · rw [State.record_md ht] at h; cases h; exact .inr (.inr (.inr ⟨ht, rfl⟩))

/-! ### The type encoders, by TTYPE -/

theorem State.encodeRecord_none {s : State} (ht : s.ttype = 0) :
    s.encodeRecord = .error { code := .unknownTelegramType, infoA := 0, infoB := 0 } := by simp [State.encodeRecord, ht]

theorem State.encodeRecord_da {s : State} (ht : s.ttype = 1) : s.encodeRecord = s.encodeDa := by
  simp [State.encodeRecord, ht]

theorem State.encodeRecord_st {s : State} (ht : s.ttype = 2) : s.encodeRecord = s.encodeSt := by
  simp [State.encodeRecord, ht]

theorem State.encodeRecord_md {s : State} (ht : s.ttype = 3) : s.encodeRecord = s.encodeMd := by
  simp [State.encodeRecord, ht]

/-- The MD encoder past its check of COUNT (45_encode.md R174). -/
theorem State.encodeMd_of_count_le {s : State} (hn : s.count.toNat ≤ 99) :
    s.encodeMd = (s.encodeReadings 0 s.count.toNat).map fun bs =>
      { bytes := [0x4D, 0x44] ++ decChars 2 s.count.toNat ++ [space] ++ bs, length := 5 + 30 * s.count.toNat } := by
  rw [State.encodeMd, if_neg (Nat.not_lt.2 hn)]
  cases s.encodeReadings 0 s.count.toNat <;> rfl

/-- The entries below COUNT that encode are those of the record. -/
theorem State.readings_encodable_iff (s : State) (n : Nat) :
    (∀ e ∈ s.readings n, e.Encodable) ↔ ∀ i, i < n → (s.rtReading i).Encodable := by simp [State.readings]

/-- Every record that fits is encoded (45_encode.md R171, R172, R174). -/
theorem State.encodeRecord_of_fits {s : State} {r : Telegram} (hr : s.record = some r) (hf : r.Fits) :
    ∃ p, s.encodeRecord = .ok p := by
  rcases State.record_eq_some hr with ⟨ht, hp, rfl⟩ | ⟨ht, hp, rfl⟩ | ⟨ht, rfl⟩ | ⟨ht, rfl⟩
  · rw [State.encodeRecord_da ht]
    simp [State.encodeDa, hp]
  · have hv : ¬999 < s.compVal.toNat := Nat.not_lt.2 hf
    rw [State.encodeRecord_da ht]
    simp [State.encodeDa, hp, hv]
  · obtain ⟨hv, hx⟩ := hf
    rw [State.fbBytes_length] at hx
    rw [State.encodeRecord_st ht, State.encodeSt, if_neg (Nat.not_lt.2 hv), if_neg (Nat.not_lt.2 hx)]
    exact ⟨_, rfl⟩
  · obtain ⟨hn, he⟩ := hf
    rw [State.readings_length] at hn
    have hblocks := (s.encodeReadings_ok_iff 0 s.count.toNat _).2
      ⟨fun j hj => (Nat.zero_add j).symm ▸ (s.readings_encodable_iff _).1 he j hj, rfl⟩
    rw [State.encodeRecord_md ht, State.encodeMd_of_count_le hn, hblocks]
    exact ⟨_, rfl⟩

/-- The bytes from `k` on after some were stored there: those, then what was there. -/
theorem State.fbBytes_storeBytes_add (s : State) (k : Nat) (bs : List Byte) (m : Nat) :
    (s.storeBytes k bs).fbBytes k (bs.length + m) = bs ++ s.fbBytes (k + bs.length) m := by
  have hstored : (s.storeBytes k bs).HasBytes k (bs ++ s.fbBytes (k + bs.length) m) := by
    refine (State.hasBytes_append _ _ _ _).2 ⟨s.hasBytes_storeBytes k bs, ?_⟩
    rw [State.hasBytes_iff_fbBytes, State.fbBytes_length]
    exact State.fbBytes_congr fun j hj _ => State.fbGet_storeBytes_outside s (.inr hj)
  simpa using (State.hasBytes_iff_fbBytes _ _ _).1 hstored

/-- What a type encoder answers is the payload of the record, which fits (45_encode.md R170 to R174). -/
theorem State.record_of_encodeRecord {s : State} {p : EncodedPayload} (h : s.encodeRecord = .ok p) :
    ∃ r, s.record = some r ∧ r.Fits ∧ (s.storeBytes 1 p.bytes).fbBytes 1 p.length = r.payload := by
  rcases State.encodeRecord_ok h with ⟨ht, hp, rfl⟩ | ⟨ht, hp, hv, rfl⟩ | ⟨ht, hv, hx, rfl⟩ | ⟨ht, hn, he, rfl⟩
  · exact ⟨_, State.record_da_bare ht hp, trivial, s.fbBytes_storeBytes 1 [0x44, 0x41]⟩
  · exact ⟨_, State.record_da_component ht hp, hv,
      s.fbBytes_storeBytes 1 ([0x44, 0x41] ++ decChars 3 s.compVal.toNat)⟩
  · exact ⟨_, State.record_st ht, ⟨hv, by rwa [State.fbBytes_length]⟩,
      s.fbBytes_storeBytes_add 1 ([0x53, 0x54] ++ decChars 3 s.compVal.toNat) s.cmdlen.toNat⟩
  · refine ⟨_, State.record_md ht, ⟨by rwa [State.readings_length], (s.readings_encodable_iff _).2 he⟩, ?_⟩
    have hpayload : (Telegram.md (s.readings s.count.toNat)).payload =
        [0x4D, 0x44] ++ decChars 2 s.count.toNat ++ [space] ++
          (List.range s.count.toNat).flatMap fun i => (s.rtReading i).block (s.rtReading i).value.emitted := by
      rw [Telegram.payload, State.readings_length, State.readings, List.flatMap_map]; rfl
    have hlength := Telegram.payload_md_length (s.readings s.count.toNat)
    rw [hpayload, State.readings_length] at hlength
    rw [hpayload]
    dsimp only
    rw [← hlength]
    exact s.fbBytes_storeBytes 1 _

/-! ### What ENC builds -/

/-- ENC builds the frame of a record that fits (45_encode.md R170). -/
theorem exec_enc_of_fits {s : State} {r : Telegram} (hr : s.record = some r) (hf : r.Fits) :
    ∃ t, exec .enc s = .next t ∧ BuiltFrame s t s.ttype r.payload := by
  obtain ⟨p, hp⟩ := State.encodeRecord_of_fits hr hf
  obtain ⟨r', hr', -, hpayload⟩ := State.record_of_encodeRecord hp
  obtain rfl : r' = r := Option.some.inj (hr'.symm.trans hr)
  rw [← hpayload]
  exact exec_enc_built hp

/-- An ENC that reports no error has built the frame of a record that fits (45_encode.md R170). -/
theorem exec_enc_of_err_eq_zero {s t : State} (h : exec .enc s = .next t) (h0 : t.err = 0) :
    ∃ r, s.record = some r ∧ r.Fits ∧ BuiltFrame s t s.ttype r.payload := by
  cases he : s.encodeRecord with
  | error f =>
    rw [exec_enc_of_error he] at h; cases h
    exact absurd h0 f.code.number_ne_zero
  | ok p =>
    obtain ⟨u, hu, hb⟩ := exec_enc_built he
    obtain ⟨r, hr, hf, hpayload⟩ := State.record_of_encodeRecord he
    rw [hu] at h; cases h
    exact ⟨r, hr, hf, hpayload ▸ hb⟩

/-- ENC's report when its type encoder fails, as numbers (45_encode.md R170, 60_exceptions.md R220). -/
theorem exec_enc_reported {s : State} {x : BitVec 2} (ht : s.ttype = x) {f : Failure} {a b : Nat}
    (h : s.encodeRecord = .error f) (ha : f.infoA = BitVec.ofNat 16 a) (hb : f.infoB = BitVec.ofNat 16 b) :
    exec .enc s = .next ((s.setStatus false x).reported f.code.number.toNat a b) := by
  rw [exec_enc_of_error h, State.fail_eq_reported _ ha hb, ht]

/-- Settles O35. -/
theorem encNeedsARecord : Obligations.EncNeedsARecord := fun _ ht =>
  exec_enc_reported ht (State.encodeRecord_none ht) rfl rfl

/-- Settles O36: the record is `DA` without or with a component, and fits unless the component is above 999. -/
theorem encEncodesAddressing : Obligations.EncEncodesAddressing := by
  intro s ht
  refine ⟨fun hp => ?bare, fun hp hv => ?component, fun hp hv => ?tooLarge⟩
  case bare => rw [← ht]; exact exec_enc_of_fits (State.record_da_bare ht hp) trivial
  case component => rw [← ht]; exact exec_enc_of_fits (State.record_da_component ht hp) hv
  case tooLarge =>
    have herror : s.encodeRecord = .error (fieldRange s.compVal.toNat locatorComp) := by
      rw [State.encodeRecord_da ht, State.encodeDa, if_pos (by simp [hp, hv])]
    exact exec_enc_reported ht herror rfl rfl

/-- Settles O37: the two checks in order, and the command text as the end of the record's payload. -/
theorem encEncodesStatus : Obligations.EncEncodesStatus := by
  intro s ht
  refine ⟨fun hv => ?tooLarge, fun hv hx => ?tooLong, fun hv hx => ?built⟩
  case tooLarge =>
    have herror : s.encodeRecord = .error (fieldRange s.compVal.toNat locatorComp) := by
      rw [State.encodeRecord_st ht, State.encodeSt, if_pos hv]
    exact exec_enc_reported ht herror rfl rfl
  case tooLong =>
    have herror : s.encodeRecord = .error
        { code := .frameTooLong, infoA := BitVec.ofNat 16 (5 + s.cmdlen.toNat), infoB := BitVec.ofNat 16 4091 } := by
      rw [State.encodeRecord_st ht, State.encodeSt, if_neg (Nat.not_lt.2 hv), if_pos hx]
      rfl
    exact exec_enc_reported ht herror rfl rfl
  case built =>
    rw [← ht]
    exact exec_enc_of_fits (State.record_st ht) ⟨hv, by rwa [State.fbBytes_length]⟩

/-- Settles O38: the record is the entries below COUNT, and fits. -/
theorem encEncodesMeasurements : Obligations.EncEncodesMeasurements := by
  intro s ht hn he
  have hfits : (Telegram.md (s.readings s.count.toNat)).Fits :=
    ⟨by rwa [State.readings_length], (s.readings_encodable_iff _).2 he⟩
  have hbuilt := exec_enc_of_fits (State.record_md ht) hfits
  rwa [ht, Telegram.payload, State.readings_length] at hbuilt

/-! ### The errors of the MD encoder -/

/-- ENC of an MD record reports the error of the lowest entry with one (45_encode.md R174, 60_exceptions.md R216). -/
theorem exec_enc_entry_reported {s : State} (ht : s.ttype = 3) (hn : s.count.toNat ≤ 99) {i : Nat}
    (hi : i < s.count.toNat) (hlow : ∀ j, j < i → (s.rtReading j).Encodable) {f : Failure} {a b : Nat}
    (hf : encodeReading i (s.rtReading i) = .error f) (ha : f.infoA = BitVec.ofNat 16 a)
    (hb : f.infoB = BitVec.ofNat 16 b) :
    exec .enc s = .next ((s.setStatus false 3).reported f.code.number.toNat a b) := by
  have hentries : s.encodeReadings 0 s.count.toNat = .error f :=
    State.encodeReadings_error_of hi (by simpa only [Nat.zero_add] using hlow) (by simpa only [Nat.zero_add] using hf)
  have herror : s.encodeRecord = .error f := by
    rw [State.encodeRecord_md ht, State.encodeMd_of_count_le hn, hentries]; rfl
  exact exec_enc_reported ht herror ha hb

section
variable {e : Reading} (i : Nat)

theorem encodeReading_comp (hc : 999 < e.comp.toNat) :
    encodeReading i e = .error (fieldRange e.comp.toNat (locatorRt i .comp)) := if_pos hc

theorem encodeReading_vm (hc : e.comp.toNat ≤ 999) (hv : 9999 < e.value.vm.toNat) :
    encodeReading i e = .error (fieldRange e.value.vm.toNat (locatorRt i .vm)) := by
  rw [encodeReading, if_neg (Nat.not_lt.2 hc), if_pos hv]

/-- An exponent of three digits overflows unless its sign is negative (44_value_field.md R152). -/
theorem encodeReading_ee (hc : e.comp.toNat ≤ 999) (hv : e.value.vm.toNat ≤ 9999) (he : 99 < e.value.ee.toNat)
    (hs : e.value.es = 0) :
    encodeReading i e =
      .error { code := .valueTooLarge, infoA := e.value.ee.setWidth 16, infoB := locatorRt i .ee } := by
  have hnorm : e.value.norm = none := by
    rw [Triple.norm, if_neg (Nat.not_le.2 he), hs, if_neg (by decide)]
  rw [encodeReading, if_neg (Nat.not_lt.2 hc), if_neg (Nat.not_lt.2 hv), hnorm]

theorem encodeReading_serial (hc : e.comp.toNat ≤ 999) (hv : e.value.vm.toNat ≤ 9999)
    (he : e.value.ee.toNat ≤ 99 ∨ e.value.es = 1) (hs : 999 < e.serial.toNat) :
    encodeReading i e = .error (fieldRange e.serial.toNat (locatorRt i .serial)) := by
  have hnorm : e.value.norm = some e.value.emitted := Triple.norm_eq_some.2 ⟨he, rfl⟩
  rw [encodeReading, if_neg (Nat.not_lt.2 hc), if_neg (Nat.not_lt.2 hv), hnorm]
  exact if_pos hs

end

/-- Settles O39: the count, then the checks of the entry in their order. -/
theorem encRejectsFieldsThatDoNotFit : Obligations.EncRejectsFieldsThatDoNotFit := by
  intro s ht
  refine ⟨fun hn => ?count, fun hn i hi hlow =>
    ⟨fun hc => ?comp, fun hc hv => ?vm, fun hc hv he hs => ?ee, fun hc hv he hs => ?serial⟩⟩
  case count =>
    have herror : s.encodeRecord = .error (fieldRange s.count.toNat locatorCount) := by
      rw [State.encodeRecord_md ht, State.encodeMd, if_pos hn]
    exact exec_enc_reported ht herror rfl rfl
  case comp => exact exec_enc_entry_reported ht hn hi hlow (encodeReading_comp i hc) rfl rfl
  case vm => exact exec_enc_entry_reported ht hn hi hlow (encodeReading_vm i hc hv) rfl rfl
  case ee =>
    exact exec_enc_entry_reported ht hn hi hlow (encodeReading_ee i hc hv he hs)
      (BitVec.ofNat_toNat 16 (s.rtReading i).value.ee).symm rfl
  case serial => exact exec_enc_entry_reported ht hn hi hlow (encodeReading_serial i hc hv he hs) rfl rfl

/-! ### What ENC leaves -/

/-- Settles O41: the frame of the encode direction's commands, and the frame ENC built when it reports no error. -/
theorem encLeavesTheRecord : Obligations.EncLeavesTheRecord := by
  intro s
  obtain ⟨t, h⟩ := exec_total .enc s
  obtain ⟨hmodel, hregs, hrt, hfailed⟩ := exec_encodeDirection_frame (.inl rfl) h
  have hstatus : t.gotv = false ∧ t.htype = s.ttype := by
    cases he : s.encodeRecord with
    | error f => rw [exec_enc_of_error he] at h; cases h; exact ⟨rfl, rfl⟩
    | ok p =>
      obtain ⟨u, hu, hb⟩ := exec_enc_built he
      rw [hu] at h; cases h
      rw [hb.1]; exact ⟨rfl, rfl⟩
  refine ⟨t, h, hregs, hrt, hmodel, hstatus.1, hstatus.2, hfailed, fun h0 => ?_⟩
  obtain ⟨r, -, hfits, hb⟩ := exec_enc_of_err_eq_zero h h0
  have hle := hfits.payload_length_le
  obtain ⟨hlen, -⟩ := hb.facts hle
  have hplen : t.plen.toNat = r.payload.length := by
    rw [hb.1, BitVec.toNat_ofNat]; omega
  exact ⟨by rw [hlen, hplen], fun k hk => hb.2.2 k (hlen ▸ hk)⟩

/-! ### DEC after ENC -/

/-- The readings a commit leaves below COUNT are those committed (42_dispatch_da_st.md R120). -/
theorem State.commit_readings (s : State) {d : DecodedRecord} (hd : d.readings.length ≤ 99) :
    (s.commit d).readings (s.commit d).count.toNat = d.readings := by
  have hcount := s.commit_count_toNat hd
  refine List.ext_getElem (by rw [State.readings_length, hcount]) fun i h1 h2 => ?_
  rw [State.readings_getElem, s.commit_rtReading d h2]

theorem State.commit_record_md (s : State) {es : List Reading} (hes : es.length ≤ 99) :
    (s.commit (mdRecord es)).record = some (.md es) := by
  rw [State.record_md rfl, s.commit_readings (d := mdRecord es) hes]
  rfl

theorem Reading.Encodable.emitted_legal {e : Reading} (h : e.Encodable) :
    e.value.emitted.vm.toNat ≤ 9999 ∧ e.value.emitted.ee.toNat ≤ 99 := Triple.emitted_legal h.2.1

/-- Emitted blocks that stand one after another decode to their readings, sentinels in place (45_encode.md R177). -/
theorem State.decodeBlocks_of_blocks {t : State} {b : Nat} {es : List Reading} (he : ∀ e ∈ es, e.Encodable)
    (h : t.HasBytes b (es.flatMap fun e => e.block e.value.emitted)) :
    t.decodeBlocks b es.length = .ok (es.map Reading.emitted) := by
  refine (t.decodeBlocks_ok_iff b es.length _).2 ⟨List.length_map _, fun i hi => ?_⟩
  have hi' : i < es.length := by rwa [List.length_map] at hi
  have hblock := (t.hasBytes_flatMap b es _ fun e => e.block_length _).1 h i hi'
  have hfits := he _ (List.getElem_mem hi')
  obtain ⟨hvm, hee⟩ := hfits.emitted_legal
  obtain ⟨hcomp, -, -, hserial⟩ := hfits
  rw [List.getElem_map]
  exact State.decodeBlock_of_block hblock hcomp hvm hee hserial

/-- A three-digit component that stands in the buffer is read back. -/
theorem State.getDec_of_component {t : State} {k : Nat} {c : BitVec 10} (hc : c.toNat ≤ 999)
    (h : t.HasBytes k (decChars 3 c.toNat)) : t.getDec k 3 = .ok c.toNat :=
  (t.getDec_ok_iff k 3 c.toNat).2 ⟨by omega, h⟩

/-- An MD payload in the buffer: the tag and the count, a space, the blocks (45_encode.md R174). -/
theorem State.HasBytes.payload_md {t : State} {es : List Reading} (h : t.HasBytes 1 (Telegram.md es).payload) :
    t.HasBytes 1 ([0x4D, 0x44] ++ decChars 2 es.length) ∧ t.fbGet 5 = 0x20 ∧
      t.HasBytes 6 (es.flatMap fun e => e.block e.value.emitted) := by
  simpa [Telegram.payload, and_assoc] using h

/-- The payload of a record decodes to it, but for an ST record without text (45_encode.md R177). -/
theorem State.dispatch_payload {t : State} {r : Telegram} (hf : r.Fits) (hp : t.HasBytes 1 r.payload)
    (hne : ∀ c, r ≠ .st c []) :
    ∃ x d, t.dispatch r.payload.length = (x, .ok d) ∧ ((t.passed x).commit d).record = some r.emitted := by
  match r, hf, hp, hne with
  | .da none, _, ⟨h1, h2, _⟩, _ =>
    have hda : t.dispatch 2 = _ := State.dispatch_da le_rfl h1 h2
    rw [t.decodeDa_bare rfl] at hda
    exact ⟨_, _, hda, State.record_da_bare rfl rfl⟩
  | .da (some c), hc, ⟨h1, h2, h3⟩, _ =>
    have hda : t.dispatch 5 = _ := State.dispatch_da (by decide) h1 h2
    rw [State.decodeDa_of_getDec_ok rfl (State.getDec_of_component hc h3)] at hda
    refine ⟨_, _, hda, (State.record_da_component rfl rfl).trans ?_⟩
    exact congrArg (fun v => some (Telegram.da (some v))) (BitVec.ofNat_toNat 10 c)
  | .st c x, ⟨hc, hx⟩, hp, hne =>
    have hlength : (Telegram.st c x).payload.length = 5 + x.length := by simp [Telegram.payload]; omega
    have hpos : 0 < x.length := List.length_pos_iff.2 fun h => hne c (h ▸ rfl)
    obtain ⟨⟨h1, h2, h3⟩, htext⟩ := (t.hasBytes_append 1 ([0x53, 0x54] ++ decChars 3 c.toNat) x).1 hp
    have hst := State.dispatch_st (P := 5 + x.length) (by omega) h1 h2
    rw [State.decodeSt_of_getDec_ok (by omega) (State.getDec_of_component hc h3), ← hlength] at hst
    refine ⟨_, _, hst, (State.record_st rfl).trans ?_⟩
    have hcmdlen : (BitVec.ofNat 12 ((Telegram.st c x).payload.length - 5)).toNat = x.length := by
      rw [hlength, BitVec.toNat_ofNat]; omega
    have htext' : t.fbBytes 6 x.length = x := (t.hasBytes_iff_fbBytes 6 x).1 htext
    exact congrArg₂ (fun v y => some (Telegram.st v y)) (BitVec.ofNat_toNat 10 c)
      ((congrArg (t.fbBytes 6) hcmdlen).trans htext')
  | .md es, ⟨hn, he⟩, hp, _ =>
    have hlength := Telegram.payload_md_length es
    obtain ⟨⟨h1, h2, h3⟩, -, hblocks⟩ := hp.payload_md
    have hcount := (t.getDec_ok_iff 3 2 es.length).2 ⟨by omega, h3⟩
    have hmd := State.dispatch_md (P := (Telegram.md es).payload.length) (by omega) h1 h2
    rw [State.decodeMd_blocks hcount hlength, State.decodeBlocks_of_blocks he hblocks] at hmd
    exact ⟨_, _, hmd, State.commit_record_md _ (by rwa [List.length_map])⟩

/-- The record is an ST record without text exactly when TTYPE is 2 and CMDLEN 0 (10_state.md R29). -/
theorem State.record_st_nil_iff {s : State} {r : Telegram} (hr : s.record = some r) :
    (∃ c, r = .st c []) ↔ s.ttype = 2 ∧ s.cmdlen = 0 := by
  constructor
  · rintro ⟨c, rfl⟩
    rcases State.record_eq_some hr with ⟨_, _, h⟩ | ⟨_, _, h⟩ | ⟨ht, h⟩ | ⟨_, h⟩
    case inr.inr.inl =>
      have hlength := congrArg List.length (Telegram.st.inj h).2
      rw [State.fbBytes_length] at hlength
      exact ⟨ht, BitVec.eq_of_toNat_eq hlength.symm⟩
    all_goals cases h
  · rintro ⟨ht, hn⟩
    rw [State.record_st ht, hn] at hr
    exact ⟨_, (Option.some.inj hr).symm⟩

/-- Settles O44: the frame built passes DEC's frame check, and its payload decodes to the record unless that is an ST
record without text, which is too short. -/
theorem decAfterEncReturnsTheRecord : Obligations.DecAfterEncReturnsTheRecord := by
  intro s t h h0
  obtain ⟨r, hr, hfits, hb⟩ := exec_enc_of_err_eq_zero h h0
  obtain ⟨hlen, hframed, -, hpayload⟩ := hb.facts hfits.payload_length_le
  have hP : t.len.toNat - 4 = r.payload.length := by omega
  by_cases hempty : ∃ c, r = .st c []
  · obtain ⟨c, rfl⟩ := hempty
    have hfive : t.len.toNat - 4 = 5 := hP
    obtain ⟨h1, h2, -⟩ := hpayload
    have hst := State.dispatch_st (P := t.len.toNat - 4) (by omega) h1 h2
    rw [t.decodeSt_short (by omega)] at hst
    refine ⟨_, exec_dec_of_dispatch_error hframed hst, fun _ => ⟨rfl, ?_⟩,
      fun hn => absurd ((State.record_st_nil_iff hr).1 ⟨c, rfl⟩) hn⟩
    exact (State.noRecord_clearRecord_fail _ _).record_eq_none
  · obtain ⟨x, d, hd, hrec⟩ := State.dispatch_payload hfits hpayload fun c hc => hempty ⟨c, hc⟩
    exact ⟨_, exec_dec_of_dispatch_ok hframed (hP ▸ hd), fun hn => absurd ((State.record_st_nil_iff hr).2 hn) hempty,
      fun _ => ⟨rfl, r, hr, hrec⟩⟩

/-! ### ENC after DEC: the blocks -/

/-- Two buffers that hold the same characters at a place read the same there. -/
theorem State.HasBytes.fbGet_eq {s u : State} {k : Nat} {bs : List Byte} (hs : s.HasBytes k bs) (hu : u.HasBytes k bs)
    {j : Nat} (hk : k ≤ j) (hj : j < k + bs.length) : u.fbGet j = s.fbGet j := by
  obtain ⟨i, rfl⟩ := Nat.exists_eq_add_of_le hk
  have hi : i < bs.length := by omega
  rw [(u.hasBytes_iff_getElem k bs).1 hu i hi, (s.hasBytes_iff_getElem k bs).1 hs i hi]

/-- The fields of a block that stands in the buffer (30_encoding.md R73). -/
theorem State.HasBytes.block {u : State} {b : Nat} {e : Reading} {t : Triple} (h : u.HasBytes b (e.block t)) :
    u.HasBytes b (decChars 3 e.comp.toNat) ∧ u.HasBytes (b + 4) t.chars ∧ u.HasBytes (b + 13) (hexChars e.opsts) ∧
      u.HasBytes (b + 16) (hexChars e.errsts) ∧ u.HasBytes (b + 19) (decChars 3 e.serial.toNat) := by
  simp only [Reading.block, State.hasBytes_append, List.length_append, decChars_length, List.length_cons,
    List.length_nil, Triple.chars_length, hexChars_length, Nat.reduceAdd] at h
  obtain ⟨⟨⟨⟨⟨⟨⟨⟨⟨⟨⟨hcomp, -⟩, hvalue⟩, -⟩, hops⟩, -⟩, herr⟩, -⟩, hserial⟩, -⟩, -⟩, -⟩ := h
  exact ⟨hcomp, hvalue, hops, herr, hserial⟩

/-- Hexadecimal digits read in either case and written in uppercase keep their values (30_encoding.md R76, R77). -/
theorem hexUpperDigit_of_hexChars {s u : State} {k : Nat} {v : Byte} (hs : s.getHex2 k = .ok v)
    (hu : u.HasBytes k (hexChars v)) {j : Nat} (hj : j < 2) :
    hexUpperDigit (u.fbGet (k + j)) = hexDigit (s.fbGet (k + j)) := by
  obtain ⟨h, l, hh, hl, hv⟩ := (s.getHex2_ok_iff k v).1 hs
  obtain ⟨hhigh, hlow, -⟩ := hu
  have hh15 := hexDigit_le hh
  have hl15 := hexDigit_le hl
  obtain rfl | rfl : j = 0 ∨ j = 1 := by omega
  · rw [Nat.add_zero, hh, hhigh, show v.toNat / 16 = h by omega, hexUpperDigit_hexUpperChar hh15]
  · rw [hl, hlow, show v.toNat % 16 = l by omega, hexUpperDigit_hexUpperChar hl15]

section
variable {s u : State} {b o : Nat} {e : Reading}

/-- Digits and signs of a block are emitted as they were read (45_encode.md R177). -/
theorem fbGet_of_block_kept (hs : s.decodeBlock b = .ok e) (hu : u.HasBytes b (e.block e.value))
    (ho : o < 3 ∨ 4 ≤ o ∧ o < 12 ∨ 19 ≤ o ∧ o < 22) : u.fbGet (b + o) = s.fbGet (b + o) := by
  obtain ⟨-, hcomp, hvalue, -, -, -, hserial⟩ := (s.decodeBlock_ok_iff b e).1 hs
  obtain ⟨-, -, hchars⟩ := (s.getValue_ok_iff _ _).1 hvalue
  obtain ⟨hcomp', hchars', -, -, hserial'⟩ := hu.block
  rcases ho with ho | ho | ho
  · exact hcomp.fbGet_eq hcomp' (by omega) (by simpa using ho)
  · exact hchars.fbGet_eq hchars' (by omega) (by rw [Triple.chars_length]; omega)
  · exact hserial.fbGet_eq hserial' (by omega) (by rw [decChars_length]; omega)

/-- Hexadecimal digits of a block come back uppercase with the same value (45_encode.md R177). -/
theorem hexUpperDigit_of_block (hs : s.decodeBlock b = .ok e) (hu : u.HasBytes b (e.block e.value))
    (ho : 13 ≤ o ∧ o < 15 ∨ 16 ≤ o ∧ o < 18) : hexUpperDigit (u.fbGet (b + o)) = hexDigit (s.fbGet (b + o)) := by
  obtain ⟨-, -, -, hops, herr, -, -⟩ := (s.decodeBlock_ok_iff b e).1 hs
  obtain ⟨-, -, hops', herr', -⟩ := hu.block
  rcases ho with ⟨h1, h2⟩ | ⟨h1, h2⟩ <;> obtain ⟨j, rfl⟩ := Nat.exists_eq_add_of_le h1 <;> rw [← Nat.add_assoc]
  · exact hexUpperDigit_of_hexChars hops hops' (by omega)
  · exact hexUpperDigit_of_hexChars herr herr' (by omega)

/-- The offsets of a block DEC does not examine hold spaces and `000000` (45_encode.md R174, 30_encoding.md R74). -/
theorem fbGet_of_block_filler {t : Triple} (hu : u.HasBytes b (e.block t)) (ho : o < 30)
    (hf : o = 3 ∨ o = 12 ∨ o = 15 ∨ o = 18 ∨ 22 ≤ o) :
    u.fbGet (b + o) = if 23 ≤ o ∧ o ≤ 28 then 0x30 else 0x20 := by
  rw [(u.hasBytes_iff_getElem b _).1 hu o (by rwa [Reading.block_length])]
  simp only [emittedBlockLayout e t]
  obtain rfl | rfl | rfl | rfl | rfl | rfl | rfl | rfl | rfl | rfl | rfl | rfl : o = 3 ∨ o = 12 ∨ o = 15 ∨ o = 18 ∨
    o = 22 ∨ o = 23 ∨ o = 24 ∨ o = 25 ∨ o = 26 ∨ o = 27 ∨ o = 28 ∨ o = 29 := by omega
  all_goals rfl

end

/-- The offsets of a block by what becomes of them in a decode and an encode (30_encoding.md R73). -/
theorem blockClass_cases {o : Nat} (ho : o < 30) :
    ((blockClass o = .decimal ∨ blockClass o = .sign) ∧ (o < 3 ∨ 4 ≤ o ∧ o < 12 ∨ 19 ≤ o ∧ o < 22)) ∨
    (blockClass o = .hex ∧ (13 ≤ o ∧ o < 15 ∨ 16 ≤ o ∧ o < 18)) ∨
    (blockClass o = .anything ∧ (o = 3 ∨ o = 12 ∨ o = 15 ∨ o = 18 ∨ 22 ≤ o)) := by
  have hgroups : (o < 3 ∨ 5 ≤ o ∧ o < 9 ∨ 10 ≤ o ∧ o < 12 ∨ 19 ≤ o ∧ o < 22) ∨ (o = 4 ∨ o = 9) ∨
      (13 ≤ o ∧ o < 15 ∨ 16 ≤ o ∧ o < 18) ∨ (o = 3 ∨ o = 12 ∨ o = 15 ∨ o = 18 ∨ 22 ≤ o) := by omega
  rcases hgroups with h | h | h | h
  · exact .inl ⟨.inl (blockClass_decimal h), by omega⟩
  · exact .inl ⟨.inr (blockClass_sign h), by omega⟩
  · exact .inr (.inl ⟨blockClass_hex h, h⟩)
  · exact .inr (.inr ⟨blockClass_anything h, h⟩)

/-- A block decoded and emitted again, offset by offset (45_encode.md R177). -/
theorem block_rewritten {s u : State} {b o : Nat} {e : Reading} (hs : s.decodeBlock b = .ok e)
    (hu : u.HasBytes b (e.block e.value)) (ho : o < 30) :
    (blockClass o = .decimal ∨ blockClass o = .sign → u.fbGet (b + o) = s.fbGet (b + o)) ∧
    (blockClass o = .hex → hexUpperDigit (u.fbGet (b + o)) = hexDigit (s.fbGet (b + o))) ∧
    (blockClass o = .anything → u.fbGet (b + o) = if 23 ≤ o ∧ o ≤ 28 then 0x30 else 0x20) := by
  rcases blockClass_cases ho with ⟨hc | hc, hk⟩ | ⟨hc, hk⟩ | ⟨hc, hk⟩ <;> rw [hc]
  · exact ⟨fun _ => fbGet_of_block_kept hs hu hk, nofun, nofun⟩
  · exact ⟨fun _ => fbGet_of_block_kept hs hu hk, nofun, nofun⟩
  · exact ⟨nofun, fun _ => hexUpperDigit_of_block hs hu hk, nofun⟩
  · exact ⟨nofun, nofun, fun _ => fbGet_of_block_filler hu ho hk⟩

/-! ### ENC after DEC: the record -/

/-- What a block decodes to can be emitted, and without a sentinel (43_md.md R144). -/
theorem Reading.Legal.encodable {e : Reading} (h : e.Legal) : e.Encodable ∧ e.value.emitted = e.value := by
  obtain ⟨hcomp, hvm, hee, -, -, hserial⟩ := h
  exact ⟨⟨hcomp, hvm, .inl hee, hserial⟩, if_pos hee⟩

/-- The characters of a component just read, by the value committed for it (30_encoding.md R76). -/
theorem State.component_of_getDec {s : State} {k v : Nat} (hv : s.getDec k 3 = .ok v) :
    s.HasBytes k (decChars 3 (BitVec.ofNat 10 v).toNat) ∧ (BitVec.ofNat 10 v).toNat ≤ 999 := by
  obtain ⟨hlt, hchars⟩ := (s.getDec_ok_iff k 3 v).1 hv
  rw [BitVec.toNat_ofNat, Nat.mod_eq_of_lt (by omega)]
  exact ⟨hchars, by omega⟩

/-- The record DEC commits fits, and its payload is as long as the one decoded. A DA or ST payload is the one that
stands in the buffer; an MD payload has the same tag and count, and a block for each reading
decoded (45_encode.md R177). -/
theorem State.record_of_dispatch_ok {s : State} {P : Nat} {h d} (hP : P ≤ 4091) (hd : s.dispatch P = (h, .ok d)) :
    ∃ r, ((s.passed h).commit d).record = some r ∧ r.Fits ∧ r.payload.length = P ∧
      (d.ttype ≠ 3 ∧ s.HasBytes 1 r.payload ∨
        d.ttype = 3 ∧ ∃ es, r = .md es ∧ s.HasBytes 1 ([0x4D, 0x44] ++ decChars 2 es.length) ∧
          s.decodeBlocks 6 es.length = .ok es) := by
  rcases State.dispatch_ok hd with
    ⟨-, h1, h2, rfl, rfl⟩ | ⟨-, h1, h2, rfl, v, hv, rfl⟩ | ⟨-, h1, h2, h6, v, hv, rfl⟩ |
    ⟨-, h1, h2, n, es, hn, rfl, hes, rfl⟩
  · exact ⟨_, State.record_da_bare rfl rfl, trivial, rfl, .inl ⟨nofun, h1, h2, trivial⟩⟩
  · obtain ⟨hchars, hle⟩ := State.component_of_getDec hv
    exact ⟨_, State.record_da_component rfl rfl, hle, rfl, .inl ⟨nofun, h1, h2, hchars⟩⟩
  · obtain ⟨hchars, hle⟩ := State.component_of_getDec hv
    have hcmdlen : (BitVec.ofNat 12 (P - 5)).toNat = P - 5 := by rw [BitVec.toNat_ofNat]; omega
    have hpayload : s.HasBytes 1 (Telegram.st (BitVec.ofNat 10 v) (s.fbBytes 6 (P - 5))).payload :=
      (s.hasBytes_append 1 ([0x53, 0x54] ++ decChars 3 _) _).2
        ⟨⟨h1, h2, hchars⟩, (s.hasBytes_iff_fbBytes 6 _).2 (by rw [State.fbBytes_length])⟩
    refine ⟨.st (BitVec.ofNat 10 v) (s.fbBytes 6 (P - 5)), (State.record_st rfl).trans ?_,
      ⟨hle, by rw [State.fbBytes_length]; omega⟩, ?_, .inl ⟨nofun, hpayload⟩⟩
    · exact congrArg (fun n => some (Telegram.st (BitVec.ofNat 10 v) (s.fbBytes 6 n))) hcmdlen
    · simp [Telegram.payload]; omega
  · obtain ⟨hlt, hchars⟩ := (s.getDec_ok_iff 3 2 n).1 hn
    obtain ⟨rfl, hblocks⟩ := (s.decodeBlocks_ok_iff 6 n es).1 hes
    refine ⟨.md es, State.commit_record_md _ (by omega), ⟨by omega, fun e he => ?_⟩, Telegram.payload_md_length es,
      .inr ⟨rfl, es, rfl, ⟨h1, h2, hchars⟩, hes⟩⟩
    obtain ⟨i, hi, rfl⟩ := List.getElem_of_mem he
    exact (State.legal_of_decodeBlock (hblocks i hi)).encodable.1

/-- An MD payload decoded and emitted again (45_encode.md R177). -/
theorem md_payload_rewritten {s u : State} {es : List Reading}
    (hhead : s.HasBytes 1 ([0x4D, 0x44] ++ decChars 2 es.length)) (hes : s.decodeBlocks 6 es.length = .ok es)
    (hu : u.HasBytes 1 (Telegram.md es).payload) :
    (∀ k, 1 ≤ k → k < 5 → u.fbGet k = s.fbGet k) ∧ u.fbGet 5 = 0x20 ∧
      ∀ k, 6 ≤ k → k < 6 + 30 * es.length →
        (blockClass ((k - 6) % 30) = .decimal ∨ blockClass ((k - 6) % 30) = .sign → u.fbGet k = s.fbGet k) ∧
        (blockClass ((k - 6) % 30) = .hex → hexUpperDigit (u.fbGet k) = hexDigit (s.fbGet k)) ∧
        (blockClass ((k - 6) % 30) = .anything →
          u.fbGet k = if 23 ≤ (k - 6) % 30 ∧ (k - 6) % 30 ≤ 28 then 0x30 else 0x20) := by
  obtain ⟨hhead', hspace, hblocks'⟩ := hu.payload_md
  refine ⟨fun k h1 h5 => hhead.fbGet_eq hhead' h1 (by simpa using h5), hspace, fun k h6 hk => ?_⟩
  obtain ⟨i, o, ho, rfl⟩ : ∃ i o, o < 30 ∧ k = 6 + 30 * i + o := ⟨(k - 6) / 30, (k - 6) % 30, by omega, by omega⟩
  have hi : i < es.length := by omega
  have hblock := ((s.decodeBlocks_ok_iff 6 _ es).1 hes).2 i hi
  have hblock' := (u.hasBytes_flatMap 6 es _ fun e => e.block_length _).1 hblocks' i hi
  rw [(State.legal_of_decodeBlock hblock).encodable.2] at hblock'
  rw [show (6 + 30 * i + o - 6) % 30 = o by omega]
  exact block_rewritten hblock hblock' ho

/-- A DEC that ends without an error has found a frame and committed what the handler answered. -/
theorem exec_dec_of_err_eq_zero {s t : State} (h : exec .dec s = .next t) (h0 : t.err = 0) :
    s.Framed ∧ ∃ x d, s.dispatch (s.len.toNat - 4) = (x, .ok d) ∧ t = (s.passed x).commit d := by
  have hs : s.Framed := by
    by_contra hs
    obtain ⟨u, f, hc⟩ := State.frameCheck_setHtype_of_not_framed hs
    rw [exec_dec_of_failed hc] at h; cases h
    exact State.fail_err_ne_zero _ f h0
  cases hd : s.dispatch (s.len.toNat - 4) with
  | mk x r =>
    cases r with
    | error f =>
      rw [exec_dec_of_dispatch_error hs hd] at h; cases h
      exact absurd h0 (State.fail_err_ne_zero _ f)
    | ok d =>
      rw [exec_dec_of_dispatch_ok hs hd] at h; cases h
      exact ⟨hs, x, d, rfl, rfl⟩

/-- Settles O45: the record DEC committed is encoded with a payload of the same length, DA and ST with the same one. -/
theorem encAfterDecKeepsTheFrame : Obligations.EncAfterDecKeepsTheFrame := by
  intro s t h h0
  obtain ⟨hs, x, d, hd, rfl⟩ := exec_dec_of_err_eq_zero h h0
  have ⟨hmin, hstart, _⟩ := hs
  have hmax := s.len.isLt
  obtain ⟨r, hr, hfits, hlength, hkind⟩ := State.record_of_dispatch_ok (by omega) hd
  obtain ⟨u, hu, hb⟩ := exec_enc_of_fits hr hfits
  obtain ⟨hlen, ⟨-, hstart', -⟩, -, hpayload⟩ := hb.facts hfits.payload_length_le
  have hlen' : u.len = s.len := BitVec.eq_of_toNat_eq (by omega)
  refine ⟨u, hu, hb.err_eq_zero, hlen', ?_⟩
  rcases hkind with ⟨h3, hsame⟩ | ⟨h3, es, rfl, hhead, hes⟩
  · have hbytes : ((s.passed x).commit d).fbBytes 1 (s.len.toNat - 4) = r.payload := by
      rw [← hlength]; exact (s.hasBytes_iff_fbBytes 1 _).1 hsame
    rw [← hbytes] at hb
    exact ⟨fun _ k _ => (BuiltFrame.same_of_framed (s := (s.passed x).commit d) hs hb).2 k, fun h => absurd h h3⟩
  · obtain ⟨hfirst, hspace, hblocks⟩ := md_payload_rewritten hhead hes hpayload
    rw [Telegram.payload_md_length] at hlength
    refine ⟨fun h => absurd h3 h, fun _ => ⟨fun k hk => ?_, hspace, fun k h6 hk => hblocks k h6 (by omega)⟩⟩
    rcases Nat.eq_zero_or_pos k with rfl | hpos
    · exact hstart'.trans hstart.symm
    · exact hfirst k hpos hk

end Sys2Proof.Machine
end

section
/-! PROOFS. Family 46_host_port.md: what each host operation does and leaves (R190 to R196), and that every run from
reset keeps the invariant. -/

namespace Sys2Proof.Machine

/-! ### A value as a word -/

/-- A value no wider than a word keeps its number when it is zero-extended (46_host_port.md R191). -/
theorem setWidth_word_toNat {n : Nat} (hn : n ≤ 16) (x : BitVec n) : (x.setWidth 16 : Word).toNat = x.toNat :=
  BitVec.toNat_setWidth_of_le hn

theorem byte_setWidth_toNat (b : Byte) : (b.setWidth 16 : Word).toNat = b.toNat := setWidth_word_toNat (by decide) b

theorem byte_setWidth_toNat_lt (b : Byte) : (b.setWidth 16 : Word).toNat < 256 := by
  rw [byte_setWidth_toNat]; exact b.isLt

/-- Two bytes zero-extended are equal only when they are. -/
theorem byte_setWidth_ne {b c : Byte} (h : b ≠ c) : (b.setWidth 16 : Word) ≠ c.setWidth 16 := by
  rw [Ne, ← BitVec.toNat_inj, byte_setWidth_toNat, byte_setWidth_toNat, BitVec.toNat_inj]
  exact h

/-- A number no larger than an index fits a word. -/
theorem ofNat_toNat_of_index_le {n : Nat} {k : Index} (h : n ≤ k.toNat) : (BitVec.ofNat 16 n).toNat = n := by
  have hk := k.isLt
  exact Nat.mod_eq_of_lt (by omega)

/-! ### What a report may say -/

/-- Whether a report is allowed depends on the report alone. -/
theorem State.reportOk_congr {s t : State} (h : SameReport s t) : t.reportOk = s.reportOk := by
  obtain ⟨hg, hh, he, ha, hb⟩ := h
  rw [State.reportOk, State.reportOk, hg, hh, he, ha, hb]

/-- The report of no error is allowed, whatever STATUS says (10_state.md R16 to R18). -/
theorem State.reportOk_of_err_eq_zero {s : State} (he : s.err = 0) (ha : s.infoA = 0) (hb : s.infoB = 0) :
    s.reportOk = true := by
  simp [State.reportOk, he, ha, hb]

/-- A trailer that has no value, and the checksum (41_frame_envelope.md R103). -/
theorem checksumReport_unreadable {h l : Byte} (c : Byte) (hv : trailerValue h l = none) :
    checksumReport false (h ++ l) (c.setWidth 16) = true := by
  have hh : (h ++ l : Word).extractLsb' 8 8 = h := BitVec.extractLsb'_append_eq_left
  have hl : (h ++ l : Word).extractLsb' 0 8 = l := BitVec.extractLsb'_append_eq_right
  simpa [checksumReport, byte_setWidth_toNat_lt, hh, hl, -BitVec.toNat_setWidth] using trailerValue_eq_none.1 hv

/-- A trailer whose value is not the checksum (41_frame_envelope.md R100). -/
theorem checksumReport_mismatch {h l c : Byte} {g : Nat} (hv : trailerValue h l = some g) (hg : g ≠ c.toNat) :
    checksumReport true (BitVec.ofNat 16 g) (c.setWidth 16) = true := by
  have hlt := trailerValue_lt hv
  have hval : (BitVec.ofNat 16 g).toNat = g := Nat.mod_eq_of_lt (by omega)
  have hne : BitVec.ofNat 16 g ≠ c.setWidth 16 := by
    rw [Ne, ← BitVec.toNat_inj, hval, byte_setWidth_toNat]; exact hg
  simp [checksumReport, byte_setWidth_toNat_lt, hval, hlt, hne, -BitVec.toNat_setWidth]

/-- The report of a failed frame check is allowed with HTYPE 0 (41_frame_envelope.md R100, 60_exceptions.md R211). -/
theorem State.reportOk_of_frameCheck {s u : State} {f : Failure} (hh : s.htype = 0)
    (h : s.frameCheck = (u, some f)) : (u.fail f).reportOk = true := by
  rcases s.frameCheck_cases with
    ⟨h4, hc⟩ | ⟨_, h0, hc⟩ | ⟨h4, _, h3, hc⟩ | ⟨_, _, _, hv, hc⟩ | ⟨_, _, _, g, hv, hg, hc⟩ | ⟨_, hc⟩ <;>
    rw [hc] at h <;> cases h
  · have hval := ofNat_toNat_of_index_le (le_refl s.len.toNat)
    simp [State.reportOk, ErrCode.number, hh, hval, h4, -BitVec.toNat_ofNat, -BitVec.ofNat_toNat]
  · have hne : (s.fbGet 0).setWidth 16 ≠ 2#16 := byte_setWidth_ne h0
    simp [State.reportOk, ErrCode.number, hh, hne, byte_setWidth_toNat_lt, -BitVec.toNat_setWidth]
  · have hne : (s.fbGet (s.len.toNat - 3)).setWidth 16 ≠ 3#16 := byte_setWidth_ne h3
    have hval := ofNat_toNat_of_index_le (Nat.sub_le s.len.toNat 3)
    have hmax : s.len.toNat ≤ 4095 := Nat.le_of_lt_succ s.len.isLt
    have hmin : 1 ≤ s.len.toNat - 3 := by omega
    simp [State.reportOk, ErrCode.number, hh, hne, byte_setWidth_toNat_lt, hval, hmin, hmax, -BitVec.toNat_setWidth,
      -BitVec.toNat_ofNat]
  · simp [State.reportOk, ErrCode.number, hh, checksumReport_unreadable _ hv]
  · simp [State.reportOk, ErrCode.number, hh, checksumReport_mismatch hv hg]

/-- The report of a dispatcher that failed after a frame check that passed is allowed (42_dispatch_da_st.md R121,
60_exceptions.md R211). -/
theorem State.reportOk_of_dispatch {s u : State} {P : Nat} {f : Failure} (hP : P ≤ 4091)
    (hd : s.dispatch P = (u.htype, .error f)) (hg : u.gotv = true) : (u.fail f).reportOk = true := by
  rcases State.dispatch_error hP hd with ⟨hh, hc, hr⟩ | ⟨_, hc, hr⟩ | ⟨_, hr, k, _, _, rfl⟩
  · simp [State.reportOk, hc, ErrCode.number, hh, hg, hr]
  · simp [State.reportOk, hc, ErrCode.number, hg, hr]
  · have hc : (s.malformed k).code = .fieldFormatError := rfl
    simp [State.reportOk, hc, ErrCode.number, hg, hr]

/-- The report of a type encoder that failed is allowed with HTYPE as TTYPE (45_encode.md R170, 60_exceptions.md
R211). -/
theorem State.reportOk_of_encodeRecord {s : State} {f : Failure} (h : s.encodeRecord = .error f) :
    ((s.setStatus false s.ttype).fail f).reportOk = true := by
  rcases State.encodeRecord_failed h with
    ⟨ht, hc, ha, hb⟩ | ⟨_, hc, hr⟩ | ⟨ht, hc, hlo, hhi, hb, hb8⟩ | ⟨ht, hc, hr⟩
  · simp [State.reportOk, hc, ErrCode.number, ht, ha, hb, tagReport]
  · simp [State.reportOk, hc, ErrCode.number, hr]
  · simp [State.reportOk, hc, ErrCode.number, ht, hlo, hhi, hb, hb8, Config.rtSize, RtField.id]
  · rw [← ht] at hr
    simp [State.reportOk, hc, ErrCode.number, hr]

/-- The report of a WRAP of too long a payload is allowed (41_frame_envelope.md R110). -/
theorem State.reportOk_of_wrapTooLong {n : Index} (hn : 4091 < n.toNat) (s : State) :
    ((s.setStatus false 0).fail { code := .frameTooLong, infoA := n.setWidth 16, infoB := 4091 }).reportOk = true := by
  have hmax : n.toNat ≤ 4095 := Nat.le_of_lt_succ n.isLt
  have hval : (n.setWidth 16).toNat = n.toNat := setWidth_word_toNat (by decide) n
  simp [State.reportOk, ErrCode.number, longReport, hval, hn, hmax, -BitVec.toNat_setWidth]

/-- The report of an illegal word is allowed (46_host_port.md R196). -/
theorem State.reportOk_illegalCommand {w : Word} {why : Illegal} (h : decode w = .illegal why) (s : State) :
    (s.illegalCommand w).reportOk = true := by
  simp [State.reportOk, State.illegalCommand, ErrCode.number, h, Decoded.toInstr]

/-! ### Every command keeps the invariant -/

/-- The invariant is about the report, PLEN and what FB and RT list. -/
theorem State.Inv.of_same {s t : State} (hs : s.Inv) (hrep : SameReport s t) (hfb : t.fb = s.fb) (hrt : t.rt = s.rt)
    (hplen : t.plen = s.plen) : t.Inv := by
  rw [State.Inv, hfb, hrt, State.reportOk_congr hrep, hplen]; exact hs

theorem State.plen_passed_le (s : State) (h : BitVec 2) : (s.passed h).plen.toNat ≤ Config.payloadMax := by
  have hlen := s.len.isLt
  simp only [State.passed, BitVec.toNat_ofNat, Config.payloadMax]
  omega

/-- A frame check that passed keeps the invariant. -/
theorem State.Inv.passed {s : State} (hs : s.Inv) (h : BitVec 2) : (s.passed h).Inv := by
  obtain ⟨hfb, hrt, -, -⟩ := hs
  exact ⟨hfb, hrt, State.reportOk_of_err_eq_zero rfl rfl rfl, s.plen_passed_le h⟩

/-- A failed frame check keeps the invariant, with PLEN 0 (41_frame_envelope.md R101, 60_exceptions.md R220). -/
theorem State.Inv.frameCheck_failed {s u : State} {f : Failure} (hs : s.Inv)
    (h : (s.setHtype 0).frameCheck = (u, some f)) : ((u.setPlen 0).fail f).Inv := by
  obtain ⟨hfb, hrt, -, -⟩ := hs
  have hr : (u.fail f).reportOk = true := State.reportOk_of_frameCheck rfl h
  obtain ⟨⟨g, a, rfl⟩, -⟩ := State.frameCheck_failed h
  exact ⟨hfb, hrt, hr, Nat.zero_le _⟩

/-- Clearing the record registers too, as a failed DEC does, keeps the invariant (60_exceptions.md R220). -/
theorem State.Inv.clearRecord_fail {s : State} {f : Failure} (hs : (s.fail f).Inv) : (s.clearRecord.fail f).Inv :=
  hs.of_same (by simp [SameReport]) (by simp) (by simp) (by simp)

/-- FCHK keeps the invariant, by whether the buffer holds a frame. -/
theorem exec_fchk_keeps_inv {s t : State} (hs : s.Inv) (h : exec .fchk s = .next t) : t.Inv := by
  by_cases hf : s.Framed
  · rw [exec_fchk_of_framed hf] at h; cases h
    exact hs.passed 0
  · obtain ⟨u, f, hc⟩ := State.frameCheck_setHtype_of_not_framed hf
    rw [exec_fchk_of_failed hc] at h; cases h
    exact hs.frameCheck_failed hc

/-- A commit of the readings of a telegram keeps the invariant (42_dispatch_da_st.md R120). -/
theorem State.Inv.commit {s : State} (hs : s.Inv) {r : DecodedRecord} (hr : r.readings.length ≤ 99) :
    (s.commit r).Inv := by
  obtain ⟨hfb, hrt, hrep, hplen⟩ := hs
  have hsame : SameReport s (s.commit r) := by simp [SameReport, State.commit]
  have hwf : (s.rt.putReadings 0 r.readings).wf = true := Table.wf_putReadings hrt (by simpa [Config.rtEntries] using hr)
  rw [State.Inv, State.reportOk_congr hsame]
  simp [State.commit, hfb, hwf, hrep, hplen]

/-- DEC keeps the invariant, by the frame check and then by what the dispatcher answers. -/
theorem exec_dec_keeps_inv {s t : State} (hs : s.Inv) (h : exec .dec s = .next t) : t.Inv := by
  by_cases hf : s.Framed
  · cases hd : s.dispatch (s.len.toNat - 4) with
    | mk x r =>
      cases r with
      | ok r =>
        rw [exec_dec_of_dispatch_ok hf hd] at h; cases h
        exact (hs.passed x).commit (State.dispatch_readings_length_le hd)
      | error f =>
        have hlen := s.len.isLt
        have hrep := State.reportOk_of_dispatch (u := s.passed x) (by omega) hd rfl
        obtain ⟨hfb, hrt, -, hplen⟩ := hs.passed x
        have hfailed : ((s.passed x).fail f).Inv := ⟨hfb, hrt, hrep, hplen⟩
        rw [exec_dec_of_dispatch_error hf hd] at h; cases h
        exact hfailed.clearRecord_fail
  · obtain ⟨u, f, hc⟩ := State.frameCheck_setHtype_of_not_framed hf
    rw [exec_dec_of_failed hc] at h; cases h
    exact (hs.frameCheck_failed hc).clearRecord_fail

/-- A wrap that fits ends in the invariant whatever the report was before, since its own report is that of no error
(41_frame_envelope.md R110). -/
theorem State.inv_wrapFrame_succeed {s : State} (hfb : s.fb.wf = true) (hrt : s.rt.wf = true) {n : Nat}
    (hn : n ≤ Config.payloadMax) : (s.wrapFrame n).succeed.Inv := by
  have hwf := State.wrapFrame_wf hfb hn
  have hsame : (s.wrapFrame n).succeed.rt = s.rt := by simp [State.wrapFrame]
  have hplen : (s.wrapFrame n).succeed.plen = BitVec.ofNat 12 n := by simp [State.wrapFrame]
  rw [← hsame] at hrt
  refine ⟨hwf, hrt, State.reportOk_of_err_eq_zero rfl rfl rfl, ?_⟩
  rw [hplen, BitVec.toNat_ofNat]
  exact le_trans (Nat.mod_le _ _) hn

/-- WRAP keeps the invariant, by whether the payload fits. -/
theorem exec_wrap_keeps_inv {n : Index} {s t : State} (hs : s.Inv) (h : exec (.wrap n) s = .next t) : t.Inv := by
  obtain ⟨hfb, hrt, -, hplen⟩ := hs
  by_cases hn : 4091 < n.toNat
  · rw [exec_wrap_of_tooLong hn] at h; cases h
    exact ⟨hfb, hrt, s.reportOk_of_wrapTooLong hn, hplen⟩
  · have hfits : exec (.wrap n) s = .next ((s.setStatus false 0).wrapFrame n.toNat).succeed := if_neg hn
    rw [hfits] at h; cases h
    exact State.inv_wrapFrame_succeed hfb hrt (Nat.not_lt.1 hn)

/-- ENC keeps the invariant, by what the type encoder answers: a payload it answers fits the buffer. -/
theorem exec_enc_keeps_inv {s t : State} (hs : s.Inv) (h : exec .enc s = .next t) : t.Inv := by
  obtain ⟨hfb, hrt, -, hplen⟩ := hs
  rw [exec_enc_eq] at h
  cases hr : s.encodeRecord with
  | error f =>
    rw [hr] at h; cases h
    exact ⟨hfb, hrt, State.reportOk_of_encodeRecord hr, hplen⟩
  | ok p =>
    have hlength := State.encodeRecord_length_le hr
    have hbytes : p.bytes.length ≤ p.length := by
      rcases State.encodeRecord_length hr with hl | ⟨_, h5, hl⟩ <;> omega
    have hstored : ((s.setStatus false s.ttype).storeBytes 1 p.bytes).fb.wf = true :=
      Memory.wf_putBytes hfb (by simp only [Config.fbSize]; omega)
    rw [hr] at h; cases h
    exact State.inv_wrapFrame_succeed hstored hrt hlength

/-- Every command keeps the invariant. -/
theorem exec_keeps_inv {i : Instr} {s t : State} (hs : s.Inv) (h : exec i s = .next t) : t.Inv := by
  cases i with
  | nop | aclr | axb k | csum n => cases h; exact hs
  | fchk => exact exec_fchk_keeps_inv hs h
  | dec => exact exec_dec_keeps_inv hs h
  | wrap n => exact exec_wrap_keeps_inv hs h
  | enc => exact exec_enc_keeps_inv hs h

/-! ### The port, operation by operation -/

/-- A write to CMD runs the word (10_state.md R14). -/
theorem hostStep_cmdWrite (w : Word) (s : State) : hostStep (.csrWrite 0 w) s = runWord w s := by
  rw [hostStep, if_pos (csrOf_eq_cmd_iff.2 rfl)]

/-- A write to any other number stores (46_host_port.md R191). -/
theorem hostStep_csrWrite_of_ne {c : BitVec 4} (hc : c ≠ 0) (v : Word) (s : State) :
    hostStep (.csrWrite c v) s = .next (s.csrStore c v) := if_neg (mt csrOf_eq_cmd_iff.1 hc)

theorem runWord_of_command {w : Word} {i : Instr} (h : decode w = .command i) (s : State) :
    runWord w s = exec i s := by rw [runWord, h]

theorem runWord_of_illegal {w : Word} {why : Illegal} (h : decode w = .illegal why) (s : State) :
    runWord w s = .next (s.illegalCommand w) := by rw [runWord, h]

theorem step_of_port_nil {s : State} (h : s.port = []) : step s = .next s := by rw [step, portStep, h]

theorem step_of_port_cons {s : State} {o : HostOp} {os : List HostOp} (h : s.port = o :: os) :
    step s = hostStep o (s.setPort os) := by rw [step, portStep, h]

/-- Settles O5. -/
theorem stepTakesTheNextHostOperation : Obligations.StepTakesTheNextHostOperation := by
  refine fun s => ⟨step_of_port_nil, fun o os => step_of_port_cons, fun w i os hport hd _ => ?_⟩
  rw [step_of_port_cons hport, hostStep_cmdWrite, runWord_of_command hd]; rfl

/-- Settles O6. -/
theorem illegalWordReportsAndChangesNothingElse : Obligations.IllegalWordReportsAndChangesNothingElse := by
  intro w why s hd
  rw [hostStep_cmdWrite, runWord_of_illegal hd]; rfl

/-- Settles O13. -/
theorem nopChangesNothing : Obligations.NopChangesNothing :=
  ⟨decode_eq_command.2 rfl, ⟨_, formatZ_of_ne (a := argField 0x0001) (by decide) .nop⟩, fun _ => rfl⟩

/-! ### The registers -/

/-- The register a number selects is the one with that number (10_state.md R13). -/
theorem csrOf_number (r : Csr) : csrOf r.number = some r := by cases r <;> rfl

/-- The four unassigned numbers (10_state.md R13). -/
theorem csrOf_eq_none_iff {c : BitVec 4} : csrOf c = none ↔ 12 ≤ c.toNat := by revert c; decide

/-- A read of an assigned number answers the register's value (46_host_port.md R191). -/
theorem State.csrRead_number (s : State) (r : Csr) : s.csrRead r.number = s.csrValue r := by
  rw [State.csrRead, csrOf_number]

theorem State.csrRead_unassigned (s : State) {c : BitVec 4} (h : 12 ≤ c.toNat) : s.csrRead c = 0 := by
  rw [State.csrRead, csrOf_eq_none_iff.2 h]

/-- Settles O7. -/
theorem csrReadReturnsTheRegister : Obligations.CsrReadReturnsTheRegister := by
  refine fun s c => ⟨s.csrRead c, rfl, ?cmd, ?status, ?err, ?infoA, ?infoB, ?len, ?acc, ?plen, ?ttype, ?comp, ?cmdlen,
    ?count, s.csrRead_unassigned⟩ <;> rintro rfl
  case cmd => exact s.csrRead_number .cmd
  case status => exact (congrArg _ (s.csrRead_number .status)).trans s.statusWord_toNat
  case infoA => exact s.csrRead_number .infoA
  case infoB => exact s.csrRead_number .infoB
  case comp => exact (congrArg _ (s.csrRead_number .comp)).trans s.compWord_toNat
  all_goals exact setWidth_word_toNat (by decide) _

/-- A write to a read-only register or an unassigned number is ignored (46_host_port.md R191). -/
theorem State.csrStore_ignored {c : BitVec 4} (hc : 1 ≤ c.toNat ∧ c.toNat ≤ 4 ∨ 6 ≤ c.toNat ∧ c.toNat ≤ 7 ∨ 12 ≤ c.toNat)
    (s : State) (v : Word) : s.csrStore c v = s := by
  have hreg : csrOf c = some .status ∨ csrOf c = some .err ∨ csrOf c = some .infoA ∨ csrOf c = some .infoB ∨
      csrOf c = some .acc ∨ csrOf c = some .plen ∨ csrOf c = none := by revert c; decide
  rcases hreg with h | h | h | h | h | h | h <;> rw [State.csrStore, h]

/-- Settles O8. -/
theorem csrWriteStoresTheLowBits : Obligations.CsrWriteStoresTheLowBits := by
  intro s v
  have low : ∀ {n : Nat}, n ≤ 16 → v.extractLsb' 0 n = v.setWidth n := fun hn => (BitVec.setWidth_eq_extractLsb' hn).symm
  refine ⟨?len, ?ttype, ?comp, ?cmdlen, ?count, fun c hc => ?ignored⟩
  case ignored =>
    have hne : c ≠ 0 := by rintro rfl; revert hc; decide
    rw [hostStep_csrWrite_of_ne hne, s.csrStore_ignored hc]
  all_goals rw [hostStep_csrWrite_of_ne (by decide), low (by decide)]; rfl

/-! ### The frame buffer and the reading table -/

/-- Settles O9. -/
theorem fbWriteWritesOneByte : Obligations.FbWriteWritesOneByte := by
  refine fun s k b => ⟨Store.put s.fb k.toNat b, rfl, ?_, fun j hj => ?_⟩
  · exact (s.fbGet_fbSet k.toNat k.toNat b).trans (if_pos rfl)
  · exact (s.fbGet_fbSet k.toNat j b).trans (if_neg hj)

/-- What a field keeps of the data is its low bits (10_state.md R28). -/
theorem RtField.clip_toNat (f : RtField) (v : Word) : (f.clip v).toNat = v.toNat % 2 ^ f.width := by
  have hw : f.width ≤ 16 := by cases f <;> decide
  rw [RtField.clip, setWidth_word_toNat hw, BitVec.toNat_setWidth]

/-- The entry and the field that an address `8·i + f` selects (10_state.md R28). -/
theorem rtAddress_select {a i : Nat} {f : RtField} (h : a = rtAddress i f) : a / 8 = i ∧ rtFieldOf a = f :=
  rtAddress_inj.1 ((rtAddress_div_mod a).trans h)

section
variable {a : BitVec 10} {i : Nat} {f : RtField}

theorem rtAddress_lt_rtSize (hi : i ≤ 98) (ha : a.toNat = rtAddress i f) : a.toNat < Config.rtSize := by
  have hf := f.id_lt
  rw [ha, rtAddress, Config.rtSize]; omega

/-- A write to an assigned RT address writes the field it selects (46_host_port.md R194). -/
theorem State.rtWrite_assigned (s : State) (v : Word) (hi : i ≤ 98) (ha : a.toNat = rtAddress i f) :
    s.rtWrite a v = s.rtSet i f v := by
  obtain ⟨hentry, hfield⟩ := rtAddress_select ha
  rw [State.rtWrite, if_pos (rtAddress_lt_rtSize hi ha), hentry, hfield]

/-- A read of an assigned RT address answers the field it selects (46_host_port.md R194). -/
theorem State.rtRead_assigned (s : State) (hi : i ≤ 98) (ha : a.toNat = rtAddress i f) : s.rtRead a = s.rtGet i f := by
  obtain ⟨hentry, hfield⟩ := rtAddress_select ha
  rw [State.rtRead, if_pos (rtAddress_lt_rtSize hi ha), hentry, hfield]

theorem State.rtWrite_unassigned (s : State) (v : Word) (ha : 792 ≤ a.toNat) : s.rtWrite a v = s :=
  if_neg (Nat.not_lt.2 ha)

theorem State.rtRead_unassigned (s : State) (ha : 792 ≤ a.toNat) : s.rtRead a = 0 := if_neg (Nat.not_lt.2 ha)

end

/-- Settles O10. -/
theorem rtWriteWritesOneField : Obligations.RtWriteWritesOneField := by
  refine fun s v => ⟨fun i f a hi ha => ⟨s.rt.putField i f v, ?_, ?_, fun j g hne => ?_⟩, fun a ha => ?_⟩
  · exact congrArg _ (s.rtWrite_assigned v hi ha)
  · refine Eq.trans (congrArg _ ?_) (f.clip_toNat v)
    exact (s.rtGet_rtSet i i f f v).trans (if_pos ⟨rfl, rfl⟩)
  · exact (s.rtGet_rtSet i j f g v).trans (if_neg fun ⟨hj, hg⟩ => hne (by rw [hj, hg]))
  · exact congrArg _ (s.rtWrite_unassigned v ha)

/-- Settles O11. -/
theorem memoryReadsReturnWhatIsThere : Obligations.MemoryReadsReturnWhatIsThere := by
  refine fun s => ⟨fun k => rfl, fun i f a hi ha => ⟨?_, ?_⟩, fun a ha => ?_⟩
  · rw [hostStep, s.rtRead_assigned hi ha]; rfl
  · rw [State.rtGet, RtField.clip_toNat]
    exact Nat.mod_lt _ (by positivity)
  · rw [hostStep, s.rtRead_unassigned ha]; rfl

/-! ### Every step keeps the invariant -/

/-- A store into a register other than CMD keeps the invariant: it writes none of its fields (46_host_port.md R191). -/
theorem State.Inv.csrStore {s : State} (hs : s.Inv) (c : BitVec 4) (v : Word) : (s.csrStore c v).Inv := by
  unfold State.csrStore
  split <;> exact hs

/-- A field written at an assigned RT address keeps the reading table's form (46_host_port.md R194). -/
theorem State.Inv.rtWrite {s : State} (hs : s.Inv) (a : BitVec 10) (v : Word) : (s.rtWrite a v).Inv := by
  unfold State.rtWrite
  split
  · next ha =>
    obtain ⟨hfb, hrt, hrep, hplen⟩ := hs
    have hentry : a.toNat / 8 < Config.rtEntries := by
      simp only [Config.rtSize, Config.rtEntries] at *
      omega
    exact ⟨hfb, Table.wf_putField hrt hentry _ v, hrep, hplen⟩
  · exact hs

/-- The machine right after a reset is in the invariant, whatever its own fields hold (10_state.md R31). -/
theorem State.inv_reset (n : Nat) (port : List HostOp) (replies : List HostValue) :
    ({ State.reset with resets := n, port := port, replies := replies } : State).Inv :=
  ⟨rfl, rfl, rfl, Nat.zero_le _⟩

/-- Every host operation keeps the invariant. -/
theorem hostStep_keeps_inv {o : HostOp} {s t : State} (hs : s.Inv) (h : hostStep o s = .next t) : t.Inv := by
  cases o with
  | csrRead c | fbRead k | rtRead a => cases h; exact hs
  | csrWrite c v =>
    rcases hostStep_csrWrite_cases h with ⟨_, i, _, hx⟩ | ⟨_, why, hd, rfl⟩ | rfl
    · exact exec_keeps_inv hs hx
    · obtain ⟨hfb, hrt, -, hplen⟩ := hs
      exact ⟨hfb, hrt, s.reportOk_illegalCommand hd, hplen⟩
    · exact hs.csrStore c v
  | fbWrite k b =>
    cases h
    obtain ⟨hfb, hrt, hrep, hplen⟩ := hs
    exact ⟨Memory.wf_put hfb k.isLt b, hrt, hrep, hplen⟩
  | rtWrite a v => cases h; exact hs.rtWrite a v
  | reset => cases h; exact State.inv_reset _ _ _

/-- Every step keeps the invariant, with a host operation pending or none. -/
theorem step_keeps_inv {s t : State} (hs : s.Inv) (h : step s = .next t) : t.Inv := by
  cases hport : s.port with
  | nil => rw [step_of_port_nil hport] at h; cases h; exact hs
  | cons o os =>
    rw [step_of_port_cons hport] at h
    exact hostStep_keeps_inv (s := s.setPort os) hs h

/-- The invariant holds along every run from a state that meets it. -/
theorem Reaches.inv {s t : State} (hs : s.Inv) (h : Reaches s t) : t.Inv := by
  induction h with
  | refl => exact hs
  | step _ hstep ih => exact step_keeps_inv ih hstep

/-- A run from a state that meets the invariant is safe. -/
theorem State.Inv.safeRun {s : State} (hs : s.Inv) : SafeRun s := fun t ht => ⟨ht.inv hs, step_total t⟩

/-- Settles O49: reset meets the invariant, and every step keeps it and has a next state. -/
theorem everyRunFromResetIsSafe : Obligations.EveryRunFromResetIsSafe := fun ops =>
  (State.inv_reset 0 ops []).safeRun

end Sys2Proof.Machine
end

section
/-! PROOFS. Family 60_exceptions.md: the invariant of every step (R211, R213, R220), and the error codes that each command
can end with (R214). -/

namespace Sys2Proof.Machine

/-- Settles O47: `step_keeps_inv`, by cases on the pending host operation and, for a CMD write, on what the word is. -/
theorem everyStepKeepsTheInvariant : Obligations.EveryStepKeepsTheInvariant := fun _ _ hs h => step_keeps_inv hs h

/-! ### The codes of each command -/

/-- FCHK ends with no error or with one of the frame check (60_exceptions.md R214). -/
theorem exec_fchk_err {s t : State} (h : exec .fchk s = .next t) : t.err.toNat ∈ [0, 1, 2, 3, 4] := by
  by_cases hs : s.Framed
  · rw [exec_fchk_of_framed hs] at h; cases h
    simp [State.passed]
  · obtain ⟨u, f, hc⟩ := State.frameCheck_setHtype_of_not_framed hs
    rw [exec_fchk_of_failed hc] at h; cases h
    rcases State.frameCheck_failed_number hc with hn | hn | hn | hn <;> simp [hn]

/-- DEC ends with no error or with one of the frame check, the dispatcher or a handler (60_exceptions.md R214). -/
theorem exec_dec_err {s t : State} (h : exec .dec s = .next t) : t.err.toNat ∈ [0, 1, 2, 3, 4, 5, 6, 10] := by
  obtain ⟨u, hu, hcode⟩ := decIsTotal s
  rw [hu] at h; cases h
  rcases hcode with ⟨h0, -⟩ | ⟨he, -⟩
  · simp [h0]
  · rcases he with he | he | he | he | he | he | he <;> simp [he]

/-- WRAP ends with no error or with FrameTooLong (60_exceptions.md R214). -/
theorem exec_wrap_err {n : Index} {s t : State} (h : exec (.wrap n) s = .next t) : t.err.toNat ∈ [0, 12] := by
  rcases Nat.lt_or_ge 4091 n.toNat with hn | hn
  · rw [exec_wrap_of_tooLong hn] at h; cases h
    simp [ErrCode.number]
  · obtain ⟨u, hu, hb⟩ := exec_wrap_built hn s
    rw [hu] at h; cases h
    simp [hb.err_eq_zero]

/-- The errors of the type encoders have the codes 5, 8, 11 and 12 (60_exceptions.md R210, R214). -/
theorem State.encodeRecord_error_number {s : State} {f : Failure} (h : s.encodeRecord = .error f) :
    f.code.number = 5 ∨ f.code.number = 8 ∨ f.code.number = 11 ∨ f.code.number = 12 := by
  rcases State.encodeRecord_failed h with ⟨_, hc, _⟩ | ⟨_, hc, _⟩ | ⟨_, hc, _⟩ | ⟨_, hc, _⟩ <;> rw [hc] <;> decide

/-- ENC ends with no error or with one of its type encoder (60_exceptions.md R214). -/
theorem exec_enc_err {s t : State} (h : exec .enc s = .next t) : t.err.toNat ∈ [0, 5, 8, 11, 12] := by
  cases hr : s.encodeRecord with
  | error f =>
    rw [exec_enc_of_error hr] at h; cases h
    rcases State.encodeRecord_error_number hr with hn | hn | hn | hn <;> simp [hn]
  | ok p =>
    obtain ⟨u, hu, hb⟩ := exec_enc_built hr
    rw [hu] at h; cases h
    simp [hb.err_eq_zero]

/-- An illegal word ends with IllegalCommand (46_host_port.md R196, 60_exceptions.md R214). -/
theorem hostStep_cmdWrite_err_of_illegal {w : Word} {why : Illegal} {s t : State} (hd : decode w = .illegal why)
    (h : hostStep (.csrWrite 0 w) s = .next t) : t.err = 13 := by
  rw [hostStep_cmdWrite, runWord_of_illegal hd] at h; cases h
  rfl

/-- Settles O50: the commands row by row, then the illegal words. -/
theorem commandsEndWithTheirOwnCodes : Obligations.CommandsEndWithTheirOwnCodes := by
  refine ⟨fun i s t h => ?_, fun w why s t hd h => hostStep_cmdWrite_err_of_illegal hd h⟩
  cases i with
  | nop | aclr | axb k | csum n => cases h; rfl
  | fchk => exact exec_fchk_err h
  | dec => exact exec_dec_err h
  | wrap n => exact exec_wrap_err h
  | enc => exact exec_enc_err h

end Sys2Proof.Machine
end

section
/-! PROOFS. Family 70_reset_and_hazards.md: what a reset leaves in the CSRs (R240). -/

namespace Sys2Proof.Machine

/-- Where every register holds 0, every number reads 0, the unassigned ones too (46_host_port.md R191). -/
theorem State.csrRead_eq_zero {s : State} (h : ∀ r : Csr, s.csrValue r = 0) (c : BitVec 4) : s.csrRead c = 0 := by
  unfold State.csrRead
  split
  · next r _ => exact h r
  · rfl

/-- Right after a reset every register holds 0, whatever the model's own fields hold (10_state.md R31). -/
theorem State.csrValue_reset (n : Nat) (port : List HostOp) (replies : List HostValue) (r : Csr) :
    ({ State.reset with resets := n, port := port, replies := replies } : State).csrValue r = 0 := by
  cases r with
  | status => exact BitVec.eq_of_toNat_eq (State.statusWord_toNat _)
  | comp => exact BitVec.eq_of_toNat_eq (State.compWord_toNat _)
  | cmd | err | infoA | infoB | len | acc | plen | ttype | cmdlen | count => rfl

/-- Settles O12: the start state and the state a Reset leaves differ in the model's own fields alone. -/
theorem resetClearsEveryCsr : Obligations.ResetClearsEveryCsr :=
  ⟨State.csrRead_eq_zero (State.csrValue_reset 0 [] []), fun s =>
    ⟨s.hostReset, rfl, State.csrRead_eq_zero (State.csrValue_reset (s.resets + 1) s.port s.replies)⟩⟩

end Sys2Proof.Machine
end
